-- ==== Sys2Proof/Word.lean ====
section
/-!
DEFINITION. The word types of the engine: bytes, 32-bit register words (R8 `REG_W`, R10) and 16-byte blocks (R6, R11).
A block is a byte sequence of length 16, never a number: any word or bit order inside the cipher core is the core's own
(R61). The length travels with the bytes, so a block of another length cannot be built.
-/

namespace Sys2Proof

/-- A byte: an 8-bit unsigned value (R11). -/
abbrev Byte := BitVec 8

/-- The contents of a 32-bit register (R10, R40). -/
abbrev Word := BitVec 32

/-- A block: a byte sequence of length 16, byte 0 first (R11). -/
abbrev Block := { l : List Byte // l.length = 16 }

/-- Sixteen zero bytes: what CHAIN, BLK and IVB hold at reset and after every completion (R30, R31, R136). -/
def zeroBlock : Block := ⟨List.replicate 16 0, rfl⟩

end Sys2Proof
end

