-- ==== Sys2Proof/Syntax.lean ====
section
/-!
DEFINITION. The commands (R13, R91), one constructor per row of spec/opcode_table.json. A command's only immediate is PBS,
the padding block size (R92); every other operand is a register (R95).
-/

namespace Sys2Proof

/-- A command of the engine (R91). -/
inductive Instr where
  /-- ENC_CFB, R173. -/
  | encCfb
  /-- DEC_CFB, R176. -/
  | decCfb
  /-- ENC_CBC, R203. -/
  | encCbc
  /-- DEC_CBC, R205. -/
  | decCbc
  /-- PAD with its block size PBS, R233. -/
  | pad (bs : BitVec 8)
  /-- UNPAD with its block size PBS, R234. -/
  | unpad (bs : BitVec 8)
deriving DecidableEq, Repr

end Sys2Proof
end

