-- ==== Sys2Proof/WellFormed.lean ====
section
/-!
DEFINITION. Which commands can be encoded: PAD and UNPAD take a block size from 1 to 255 (R92, R93).
-/

namespace Sys2Proof

/-- A command is well formed when its block size, if it has one, is not 0 (R93). -/
def Instr.wf : Instr → Bool
  | .encCfb => true
  | .decCfb => true
  | .encCbc => true
  | .decCbc => true
  | .pad bs => bs != 0
  | .unpad bs => bs != 0

end Sys2Proof
end

