-- ==== Sys2Proof/Decode.lean ====
section
/-!
DEFINITION. The command word (R90): OP[3:0], RSV0[7:4], PBS[15:8], RSV1[31:16]. Decoding is a total function of the 32-bit
word (R94). An illegal word is refused with the reason; the engine itself reports one code for all of them, ILLEGAL_CMD
(R93). The encoder is written from the same table (R96).
-/

namespace Sys2Proof

/-- Why a word is no command (R93). -/
inductive IllegalWord where
  /-- RSV0 or RSV1 is not 0. -/
  | reservedBits
  /-- OP is 0 or 7 to 15. -/
  | unassignedOp
  /-- PBS is not 0 on ENC_CFB, DEC_CFB, ENC_CBC or DEC_CBC. -/
  | blockSizeGiven
  /-- PBS is 0 on PAD or UNPAD. -/
  | blockSizeZero
deriving DecidableEq, Repr

/-- The answer of the decoder (R94): a command, or Illegal with the reason. -/
inductive Decoded where
  | cmd (i : Instr)
  | illegal (why : IllegalWord)
deriving DecidableEq, Repr

/-- OP, bits [3:0] (R90). -/
def opField (w : Word) : BitVec 4 := w.extractLsb' 0 4

/-- RSV0, bits [7:4] (R90). -/
def rsv0Field (w : Word) : BitVec 4 := w.extractLsb' 4 4

/-- PBS, bits [15:8] (R90, R92). -/
def pbsField (w : Word) : BitVec 8 := w.extractLsb' 8 8

/-- RSV1, bits [31:16] (R90). -/
def rsv1Field (w : Word) : BitVec 16 := w.extractLsb' 16 16

/-- A command without a block size: PBS must be 0 (R93). -/
def withoutSize (pbs : BitVec 8) (i : Instr) : Decoded :=
  if pbs = 0 then .cmd i else .illegal .blockSizeGiven

/-- A command with a block size: PBS must not be 0 (R93). -/
def withSize (pbs : BitVec 8) (i : Instr) : Decoded :=
  if pbs = 0 then .illegal .blockSizeZero else .cmd i

/-- The decoder of R94. -/
def decode (w : Word) : Decoded :=
  if rsv0Field w ≠ 0 ∨ rsv1Field w ≠ 0 then .illegal .reservedBits
  else if opField w = 1 then withoutSize (pbsField w) .encCfb
  else if opField w = 2 then withoutSize (pbsField w) .decCfb
  else if opField w = 3 then withoutSize (pbsField w) .encCbc
  else if opField w = 4 then withoutSize (pbsField w) .decCbc
  else if opField w = 5 then withSize (pbsField w) (.pad (pbsField w))
  else if opField w = 6 then withSize (pbsField w) (.unpad (pbsField w))
  else .illegal .unassignedOp

/-- The command of a legal word, nothing for an illegal one. -/
def decode? (w : Word) : Option Instr :=
  match decode w with
  | .cmd i => some i
  | .illegal _ => none

/-- The OP number of a command (R91). -/
def Instr.op : Instr → BitVec 4
  | .encCfb => 1
  | .decCfb => 2
  | .encCbc => 3
  | .decCbc => 4
  | .pad _ => 5
  | .unpad _ => 6

/-- The PBS field of a command (R92): its block size, or 0. -/
def Instr.pbs : Instr → BitVec 8
  | .encCfb => 0
  | .decCfb => 0
  | .encCbc => 0
  | .decCbc => 0
  | .pad bs => bs
  | .unpad bs => bs

/-- The assembled word of a command: RSV1, PBS, RSV0 and OP from the top (R90, R96). -/
def encode (i : Instr) : Word := ((0#16 ++ i.pbs) ++ 0#4) ++ i.op

/-- The command the decoder reads from a row's word of `nbits` bits, bit 0 the least significant (R90: every command word
is one 32-bit word). -/
def decodeTableWord (nbits w : Nat) : Option Instr := decode? (BitVec.ofNat 32 (w % 2 ^ nbits))

end Sys2Proof
end

