-- ==== Sys2Proof/Config.lean ====
section
/-!
DEFINITION. What this hardware fixes (R6 to R8) and the parameters the spec leaves OPEN (R8, 92_eei_decisions.md): the
block cipher and the free bytes. Both are opaque: nothing can evaluate them, so a claim holds whatever they are. The
platform's own parameters (`BASE`, `dma_admit`) are plain data of the state, see `Machine/State.lean`.
-/

namespace Sys2Proof

/-- `BS`, the cipher block size in bytes (R6). -/
def Config.blockSize : Nat := 16

/-- `IVLEN`, the IV length in bytes (R8). -/
def Config.ivLen : Nat := 16

/-- `CFB_SEG`, the CFB segment size in bytes: this hardware is fixed at 16 (R8). -/
def Config.cfbSeg : Nat := 16

/-- `KEYLENS`, the valid key lengths in bytes (R7). -/
def Config.keyLens : List Nat := [16, 24, 32]

/-- The size of the buffer space, 2^ADDR_W (R64). -/
def Config.addrSpace : Nat := 4294967296

/-- The block cipher of R33: for every key a permutation of the blocks, which is the pair `E`, `D` with its two inverse
laws and nothing more. OPEN in the spec (D2); opaque here (log 5). -/
opaque Config.cipher : List Byte → Equiv.Perm Block

/-- `E(K, b)`, the forward block transform (R33). -/
def Config.E (k : List Byte) (b : Block) : Block := Config.cipher k b

/-- `D(K, b)`, the inverse block transform (R33). -/
def Config.D (k : List Byte) (b : Block) : Block := (Config.cipher k).symm b

/-- The free bytes: the n-th byte that the spec calls unspecified (U1, U2, U7). Opaque here (log 6). -/
opaque Config.freeByte : Nat → Byte

end Sys2Proof
end

