-- ==== Sys2Proof/Machine/State.lean ====
section
/-!
DEFINITION. The state of the machine: the register map (R40 to R54), the hidden registers (R22 to R31), the lines to the
random source and the reset input (R34, R290), the buffer memory (R64), the platform's parameters (R8) and the schedule of
what happens next (R20, R75). STATUS.BUSY, STATUS.RNG_WAIT and irq are views of other state (R36, R43, R46) and are computed
in `Machine/Flags.lean`.
-/

namespace Sys2Proof.Machine

/-- The sequencer state (R22). -/
inductive Phase where
  | idle
  | check
  | rngWait
  | precheck
  | run
deriving DecidableEq, Repr

/-- The result codes: the only values ERRCODE takes (R261). -/
inductive ResultCode where
  | ok
  | invalidKey
  | randomSource
  | ctTooShort
  | misaligned
  | padding
  | illegalCmd
  | bus
  | range
deriving DecidableEq, Repr

/-- The answer of the random source to a request (R34). -/
inductive RngAnswer where
  | ok (iv : Block)
  | fail
deriving DecidableEq, Repr

/-- The size of a host register access (R110). -/
inductive AccessSize where
  | byte
  | half
  | word
deriving DecidableEq, Repr

/-- A bus operation of the host (R97). Register accesses carry the byte offset from BASE. -/
inductive HostOp where
  /-- `R`: a register read of a size at an offset. -/
  | regRead (size : AccessSize) (off : Nat)
  /-- `W`: a register write of a size at an offset. -/
  | regWrite (size : AccessSize) (off : Nat) (w : Word)
  /-- `MR`: a read of n buffer bytes. -/
  | memRead (addr n : Nat)
  /-- `MW`: a write of buffer bytes. -/
  | memWrite (addr : Nat) (bytes : List Byte)
  /-- `WAITDONE`: reads of STATUS until BUSY reads 0 (R98). -/
  | waitDone
deriving DecidableEq, Repr

/-- What can happen next (R20, R75): a step of the engine, a host access, an answer of the random source, or an edge of the
reset input. -/
inductive Event where
  | engine
  | host (op : HostOp)
  | rng (a : RngAnswer)
  | resetAssert
  | resetRelease
deriving DecidableEq, Repr

/-- What the last host access got back (R97, R110, R111). The model's own (log 17). -/
inductive HostResp where
  /-- No access yet. -/
  | none
  /-- The value of a register read. -/
  | word (w : Word)
  /-- The bytes of a buffer read. -/
  | bytes (bs : List Byte)
  /-- A write was taken. -/
  | written
  /-- The error response to an illegal register access (R110). -/
  | busError
deriving DecidableEq, Repr

/-- A byte range: `len` bytes from `base` up (R65). Sums do not wrap (R10). -/
structure Region where
  base : Nat
  len : Nat
deriving DecidableEq, Repr

/-- The platform's parameters (R8, R70, R72, R73). No step changes them. -/
structure Platform where
  /-- BASE, the bus address of the register window (R73). -/
  base : Nat
  /-- Whether the register window also lies in the buffer space (R64). -/
  windowInBuffer : Bool
  /-- `dma_admit`, the bytes the bus serves without an error response (R70). -/
  dmaAdmit : List Region
  /-- The bytes whose accesses the bus never answers (R70, U3). -/
  dmaHang : List Region
  /-- The bytes that are not plain memory (R72, U7). -/
  nonPlain : List Region
deriving DecidableEq, Repr

/-- KEY0 to KEY7 (R54). -/
structure KeyRegs where
  key0 : Word
  key1 : Word
  key2 : Word
  key3 : Word
  key4 : Word
  key5 : Word
  key6 : Word
  key7 : Word
deriving DecidableEq, Repr

/-- All eight key registers zero: reset and every completion (R54, R136). -/
def zeroKeys : KeyRegs := ⟨0, 0, 0, 0, 0, 0, 0, 0⟩

/-- The buffer memory: the bytes that differ from what an unlisted address reads as, by rising address. The canonical form
is `Memory.wf` in `Machine/Memory.lean`. -/
abbrev Memory := List Host.Cell

/-- The state of the machine. -/
structure State where
  /-- CMD_LAST, the last accepted command word (R41). -/
  cmdLast : Word
  /-- STATUS.DONE (R44). -/
  done : Bool
  /-- STATUS.OVR (R45). -/
  ovr : Bool
  /-- STATUS.ERRCODE (R47). -/
  errcode : ResultCode
  /-- SRC_ADDR (R48). -/
  srcAddr : Word
  /-- DST_ADDR (R49). -/
  dstAddr : Word
  /-- SRC_LEN (R50). -/
  srcLen : Word
  /-- OUT_LEN (R51). -/
  outLen : Word
  /-- KEY_LEN (R52). -/
  keyLen : Word
  /-- IRQ_EN.DONE_IE (R53). -/
  doneIe : Bool
  /-- KEY0 to KEY7 (R54). -/
  keys : KeyRegs
  /-- PHASE (R22). -/
  phase : Phase
  /-- POS, the offset from SRC_ADDR of the next source byte of RUN (R24). -/
  pos : BitVec 33
  /-- CHAIN: FB in the CBC path, SR in the CFB path (R30). -/
  chain : Block
  /-- BLK, the datapath register (R31). -/
  blk : Block
  /-- PADV, the padding length a padding check read (R31). -/
  padv : Byte
  /-- OUTMAX, the size of the destination region (R31). -/
  outmax : BitVec 33
  /-- IVB, the drawn IV (R31). -/
  ivb : Block
  /-- Whether RUN has made its IV access. The model's own (log 3). -/
  ivMoved : Bool
  /-- The request line to the random source (R34). -/
  rngReq : Bool
  /-- The answer of the random source on its interface (R34). -/
  rngAnswer : Option RngAnswer
  /-- The reset input is asserted (R290). -/
  inReset : Bool
  /-- The engine waits on a bus access that is never answered (R70, U3). The model's own (log 9). -/
  busHung : Bool
  /-- A host write raced with the active command, whose output may then be anything (R77). The model's own (log 12). -/
  raced : Bool
  /-- The buffer memory (R64). -/
  mem : Memory
  /-- The index of the next free byte. The model's own (log 6). -/
  draws : Nat
  /-- What the last host access got back. The model's own (log 17). -/
  resp : HostResp
  /-- The mark BAD_REG_ACCESS, never cleared (R270, log 13). -/
  badRegAccess : Bool
  /-- The mark of the fault BUFFER_RACE, never cleared (R77, R270, log 12). -/
  bufferRace : Bool
  /-- The platform's parameters (R8). -/
  platform : Platform
  /-- What happens next, first first; with nothing listed the engine moves (R20, R75, log 1). -/
  events : List Event
deriving DecidableEq, Repr

/-- Why the machine stops with a fault. -/
inductive Fault where
  /-- A host buffer access past the last address of the buffer space (R64), a byte that does not exist. Raised by the host's
  buffer accesses. Safe: it is no access the spec gives an effect. BUFFER_RACE is no stop but the mark `bufferRace` of the
  state (R77, log 12). -/
  | outsideBufferSpace
deriving DecidableEq, Repr

/-- Why the model refuses to go on. -/
inductive Refusal where
  /-- An instruction without a meaning. Raised by no arm of this model. Safe. -/
  | notModelled (mnemonic : String)
  /-- A host register access while reset is asserted has no defined answer (R290, U9). Raised by the host's register
  accesses. Safe. -/
  | regAccessInReset
deriving DecidableEq, Repr

/-- The machine right after reset (R57, R290), with the platform and the model's own fields as the log says (logs 1, 3, 6,
8, 9, 10, 12, 13, 15, 17, 25). -/
def State.reset : State where
  cmdLast := 0
  done := false
  ovr := false
  errcode := .ok
  srcAddr := 0
  dstAddr := 0
  srcLen := 0
  outLen := 0
  keyLen := 0
  doneIe := false
  keys := zeroKeys
  phase := .idle
  pos := 0
  chain := zeroBlock
  blk := zeroBlock
  padv := 0
  outmax := 0
  ivb := zeroBlock
  ivMoved := false
  rngReq := false
  rngAnswer := none
  inReset := false
  busHung := false
  raced := false
  mem := []
  draws := 0
  resp := .none
  badRegAccess := false
  bufferRace := false
  platform := { base := 0, windowInBuffer := false, dmaAdmit := [⟨0, Config.addrSpace⟩], dmaHang := [], nonPlain := [] }
  events := []

end Sys2Proof.Machine
end

