-- ==== Sys2Proof/Machine/Flags.lean ====
section
/-!
DEFINITION. The status bits and every computation of a flag: the STATUS word (R42), BUSY (R43), RNG_WAIT (R46), ERRCODE
numbers (R261), IRQ_EN (R53), irq (R36), write-1-to-clear (R115).
-/

namespace Sys2Proof.Machine

/-- STATUS.BUSY: PHASE is not IDLE (R43). -/
def State.busy (s : State) : Bool := s.phase != .idle

/-- STATUS.RNG_WAIT: PHASE is RNG_WAIT (R46). -/
def State.rngWaiting (s : State) : Bool := s.phase == .rngWait

/-- The interrupt output: DONE and DONE_IE, at every instant (R36, R265). -/
def State.irq (s : State) : Bool := s.done && s.doneIe

/-- The number of a result code, STATUS bits [11:8] (R261). -/
def ResultCode.bits : ResultCode → BitVec 4
  | .ok => 0
  | .invalidKey => 1
  | .randomSource => 2
  | .ctTooShort => 3
  | .misaligned => 4
  | .padding => 5
  | .illegalCmd => 6
  | .bus => 7
  | .range => 8

/-- The value a read of STATUS returns (R42, R111): ERRCODE in [11:8], RNG_WAIT, OVR, DONE and BUSY in [3:0], all other
bits 0. -/
def State.statusWord (s : State) : Word :=
  0#20 ++ s.errcode.bits ++ 0#4 ++ BitVec.ofBool s.rngWaiting ++ BitVec.ofBool s.ovr ++ BitVec.ofBool s.done
    ++ BitVec.ofBool s.busy

/-- The value a read of IRQ_EN returns (R53, R111): DONE_IE in bit 0, all other bits 0. -/
def State.irqEnWord (s : State) : Word := 0#31 ++ BitVec.ofBool s.doneIe

/-- A write to STATUS (R115): 1 in bit 1 clears DONE, 1 in bit 2 clears OVR, all other bits are ignored. -/
def State.writeStatus (s : State) (w : Word) : State :=
  { s with done := s.done && !w.getLsbD 1, ovr := s.ovr && !w.getLsbD 2 }

/-- A write to IRQ_EN (R116): bit 0 goes to DONE_IE, all other bits are ignored. -/
def State.writeIrqEn (s : State) (w : Word) : State := { s with doneIe := w.getLsbD 0 }

/-- A write to a locked register while BUSY is lost and sets OVR (R45, R113). -/
def State.lostWrite (s : State) : State := { s with ovr := true }

end Sys2Proof.Machine
end

