-- ==== Sys2Proof/Machine/Memory.lean ====
section
/-!
DEFINITION. The buffer memory (R61, R64): one byte per address from 0 to 2^32 - 1, held as the list of the bytes that are
not 0, by rising address. An unlisted address reads 0 (log 15).
-/

namespace Sys2Proof.Machine

/-- What an address reads as when nothing is listed for it (log 15: DESIGN CHOICE). -/
def unlistedByte : Byte := 0

/-- The canonical form: addresses rise strictly and lie in the buffer space, and no entry is what an unlisted address reads
as. -/
def Memory.wf : Memory → Bool
  | [] => true
  | [c] => decide (c.1 < Config.addrSpace) && decide (c.2 ≠ unlistedByte)
  | c :: d :: m =>
    decide (c.1 < Config.addrSpace) && decide (c.2 ≠ unlistedByte) && decide (c.1 < d.1) && Memory.wf (d :: m)

/-- The byte at an address. -/
def Memory.read : Memory → Nat → Byte
  | [], _ => unlistedByte
  | c :: m, a => if c.1 = a then c.2 else Memory.read m a

/-- The list with every entry of an address taken out. -/
def Memory.erase : Memory → Nat → Memory
  | [], _ => []
  | c :: m, a => if c.1 = a then Memory.erase m a else c :: Memory.erase m a

/-- The list with an entry put at its place among rising addresses. -/
def Memory.insert : Memory → Nat → Byte → Memory
  | [], a, b => [(a, b)]
  | c :: m, a, b =>
    if a < c.1 then (a, b) :: c :: m else if c.1 = a then (a, b) :: m else c :: Memory.insert m a b

/-- The memory with one byte written. There is no byte past the buffer space (R64). -/
def Memory.write (m : Memory) (a : Nat) (b : Byte) : Memory :=
  if a < Config.addrSpace then (if b = unlistedByte then m.erase a else m.insert a b) else m

/-- The `n` bytes from an address up (R61). -/
def Memory.readRange (m : Memory) : Nat → Nat → List Byte
  | _, 0 => []
  | a, n + 1 => m.read a :: Memory.readRange m (a + 1) n

/-- The memory with bytes written from an address up, in ascending order (R12, R62). -/
def Memory.writeRange (m : Memory) : Nat → List Byte → Memory
  | _, [] => m
  | a, b :: bs => Memory.writeRange (m.write a b) (a + 1) bs

/-- The memory with `n` bytes from an address up unspecified: one free byte each, from the free byte `ctr` on (R70, R72,
R291). -/
def Memory.scramble (m : Memory) (ctr : Nat) : Nat → Nat → Memory
  | _, 0 => m
  | a, n + 1 => Memory.scramble (m.write a (Config.freeByte ctr)) (ctr + 1) (a + 1) n

end Sys2Proof.Machine
end

