-- ==== Sys2Proof/Machine/Operands.lean ====
section
/-!
DEFINITION. The operands of a command: the key (R54, R55), the source and destination regions and OUTMAX (R65), the range and
overlap conditions (R66, R67), and the byte sequences and blocks the datapath works on (R11).
-/

namespace Sys2Proof.Machine

/-- The four bytes of a register, the low byte first (R60). -/
def wordBytes (w : Word) : List Byte :=
  [w.extractLsb' 0 8, w.extractLsb' 8 8, w.extractLsb' 16 8, w.extractLsb' 24 8]

/-- The register whose bytes, low byte first, are given (R60, R98). -/
def bytesWord (b0 b1 b2 b3 : Byte) : Word := b3 ++ b2 ++ b1 ++ b0

/-- The 32 key bytes `kb`: byte j is byte j mod 4 of KEY[j div 4] (R54). -/
def KeyRegs.bytes (k : KeyRegs) : List Byte :=
  wordBytes k.key0 ++ wordBytes k.key1 ++ wordBytes k.key2 ++ wordBytes k.key3 ++ wordBytes k.key4 ++ wordBytes k.key5
    ++ wordBytes k.key6 ++ wordBytes k.key7

/-- The key registers with KEYw written (R114). -/
def KeyRegs.write (k : KeyRegs) (i : Fin 8) (w : Word) : KeyRegs :=
  match i with
  | 0 => { k with key0 := w }
  | 1 => { k with key1 := w }
  | 2 => { k with key2 := w }
  | 3 => { k with key3 := w }
  | 4 => { k with key4 := w }
  | 5 => { k with key5 := w }
  | 6 => { k with key6 := w }
  | 7 => { k with key7 := w }

/-- The key a command uses: the first KEY_LEN key bytes (R55). -/
def State.key (s : State) : List Byte := s.keys.bytes.take s.keyLen.toNat

/-- KEY_LEN names a valid key (R7, R52). -/
def State.keyValid (s : State) : Bool := Config.keyLens.contains s.keyLen.toNat

/-- `S` of the rules: SRC_ADDR as an integer (R10). -/
def State.src (s : State) : Nat := s.srcAddr.toNat

/-- `T` of the rules: DST_ADDR as an integer (R10). -/
def State.dst (s : State) : Nat := s.dstAddr.toNat

/-- `L` of the rules: SRC_LEN as an integer (R10). -/
def State.len (s : State) : Nat := s.srcLen.toNat

/-- POS as an integer (R24). -/
def State.posn (s : State) : Nat := s.pos.toNat

/-- Whether a command uses a key (R95). -/
def usesKey : Instr → Bool
  | .encCfb => true
  | .decCfb => true
  | .encCbc => true
  | .decCbc => true
  | .pad _ => false
  | .unpad _ => false

/-- OUTMAX of a command on `L` source bytes (R65). -/
def outmaxOf (i : Instr) (L : Nat) : Nat :=
  match i with
  | .encCfb => 16 + L
  | .decCfb => L - 16
  | .encCbc => 16 + 16 * (L / 16 + 1)
  | .decCbc => L - 16
  | .pad bs => L + (bs.toNat - L % bs.toNat)
  | .unpad _ => L

/-- The source region SRCR (R65). -/
def State.srcr (s : State) : Region := ⟨s.src, s.len⟩

/-- The destination region DSTR of a command (R65). -/
def State.dstr (s : State) (i : Instr) : Region := ⟨s.dst, outmaxOf i s.len⟩

/-- The range check (R66): no region passes the top of the address space, and the output length fits OUT_LEN. -/
def rangeOk (i : Instr) (S T L : Nat) : Bool :=
  decide (S + L ≤ 4294967296) && decide (T + outmaxOf i L ≤ 4294967296) && decide (outmaxOf i L ≤ 4294967295)

/-- The overlap check (R67). -/
def overlapOk (i : Instr) (S T L : Nat) : Bool :=
  match i with
  | .encCfb => decide (L = 0) || decide (T + 16 ≤ S) || decide (S + L ≤ T)
  | .encCbc => decide (L = 0) || decide (T + 16 ≤ S) || decide (S + L ≤ T)
  | .decCfb => decide (T ≤ S + 16) || decide (S + L ≤ T)
  | .decCbc => decide (T ≤ S + 16) || decide (S + L ≤ T)
  | .pad _ => decide (T ≤ S) || decide (S + L ≤ T)
  | .unpad _ => decide (T ≤ S) || decide (S + L ≤ T)

/-- Whether an address lies in a region. -/
def Region.has (r : Region) (a : Nat) : Bool := decide (r.base ≤ a) && decide (a < r.base + r.len)

/-- Whether two regions share a byte. -/
def Region.meets (r q : Region) : Bool :=
  decide (0 < r.len) && decide (0 < q.len) && decide (r.base < q.base + q.len) && decide (q.base < r.base + r.len)

/-- Bytewise exclusive or of two byte sequences (R11). -/
def xorBytes (a b : List Byte) : List Byte := List.zipWith (· ^^^ ·) a b

/-- Bytewise exclusive or of two blocks (R11). -/
def xorBlock (a b : Block) : Block := ⟨List.zipWith (· ^^^ ·) a.1 b.1, by simp [a.2, b.2]⟩

/-- The block of the first 16 bytes of a sequence; every use gives it 16 or more. -/
def blockOfBytes (l : List Byte) : Block := ⟨(l ++ List.replicate 16 0).take 16, by simp⟩

/-- A block with its first bytes replaced (`BLK[0:r] <- x`, R174). -/
def patchBlock (b : Block) (x : List Byte) : Block := blockOfBytes (x ++ b.1.drop x.length)

/-- The last byte of a block (`Pl[15]`, R206). -/
def lastByte (b : Block) : Byte := b.1.getLastD 0

end Sys2Proof.Machine
end

