-- ==== Sys2Proof/Machine/Ops.lean ====
section
/-!
DEFINITION. The operations every command shares: the DMA accesses (R62, R70 to R72), acceptance (R112), the completion, which
is this engine's exception entry (R136, R260, R267), the acknowledgement, which is its return (R268), CHECK (R130) and the
wait for the random source (R131).
-/

namespace Sys2Proof.Machine

/-! ### The bus -/

/-- How the bus answers an access of the engine to a byte (R70, U3). -/
inductive BusAnswer where
  | ok
  | error
  | never
deriving DecidableEq, Repr

/-- Whether an address lies in one of several regions. -/
def inRegions (rs : List Region) (a : Nat) : Bool := rs.any fun r => r.has a

/-- Whether a region shares a byte with one of several regions. -/
def meetsRegions (rs : List Region) (r : Region) : Bool := rs.any fun q => q.meets r

/-- The bus's answer: normal for a byte of `dma_admit`, an error response for any other byte, or no answer at all where the
platform's bus hangs instead (R70). -/
def busAnswer (p : Platform) (a : Nat) : BusAnswer :=
  if a < Config.addrSpace ∧ inRegions p.dmaAdmit a = true then .ok
  else if inRegions p.dmaHang a then .never
  else .error

/-- The bytes of the buffer space that are not plain memory (R72): those the platform names, and the engine's own register
window where it lies in the buffer space (R64). -/
def nonPlainRegions (p : Platform) : List Region :=
  if p.windowInBuffer then ⟨p.base, 64⟩ :: p.nonPlain else p.nonPlain

/-- What an access of the engine comes to: a value and the state after it, an error response, or no answer. The state of the
last two is the one in which the access failed. -/
inductive Access (α : Type) where
  | ok (v : α) (s : State)
  | busError (s : State)
  | noAnswer (s : State)

/-- An access and then another. Nothing follows an error response or a missing answer (R70, R260). -/
def Access.bind {α β : Type} (x : Access α) (f : α → State → Access β) : Access β :=
  match x with
  | .ok v s => f v s
  | .busError s => .busError s
  | .noAnswer s => .noAnswer s

/-- Whether what the engine reads from a byte is open: the byte is not plain memory (R71, R72, log 10), or a host write
raced with the active command (R77, log 12). -/
def readsFree (s : State) (a : Nat) : Bool := s.raced || inRegions (nonPlainRegions s.platform) a

/-- What the next DMA read of a byte answers: the byte of memory, or the next free byte. -/
def dmaValue (s : State) (a : Nat) : Byte := if readsFree s a then Config.freeByte s.draws else s.mem.read a

/-- A DMA read of one byte. -/
def dmaReadByte (s : State) (a : Nat) : Access Byte :=
  match busAnswer s.platform a with
  | .ok => .ok (dmaValue s a) (if readsFree s a then { s with draws := s.draws + 1 } else s)
  | .error => .busError s
  | .never => .noAnswer s

/-- `MemRead(addr, n)`: byte by byte in ascending order (R12, R62). -/
def dmaRead (s : State) : Nat → Nat → Access (List Byte)
  | _, 0 => .ok [] s
  | a, n + 1 => Access.bind (dmaReadByte s a) fun b t => Access.bind (dmaRead t (a + 1) n) fun bs u => .ok (b :: bs) u

/-- A DMA write of one byte. -/
def dmaWriteByte (s : State) (a : Nat) (b : Byte) : Access Unit :=
  match busAnswer s.platform a with
  | .ok => .ok () { s with mem := s.mem.write a b }
  | .error => .busError s
  | .never => .noAnswer s

/-- `MemWrite(addr, n, b)`: byte by byte in ascending order (R12, R62). -/
def dmaWrite (s : State) : Nat → List Byte → Access Unit
  | _, [] => .ok () s
  | a, b :: bs => Access.bind (dmaWriteByte s a b) fun _ t => dmaWrite t (a + 1) bs

/-! ### Unspecified destination bytes -/

/-- Every byte of a region unspecified: a free byte each (R70, R72, R291). -/
def scrambleRegion (s : State) (a n : Nat) : State :=
  { s with mem := s.mem.scramble s.draws a n, draws := s.draws + n }

/-- Whether the active command's output is open: its regions cover a byte that is not plain memory (R72), or a host write
raced with it (R77, log 12). -/
def outputFree (s : State) : Bool :=
  s.raced || meetsRegions (nonPlainRegions s.platform) s.srcr
    || meetsRegions (nonPlainRegions s.platform) ⟨s.dst, s.outmax.toNat⟩

/-! ### Acceptance, completion, acknowledgement -/

/-- Acceptance of a command word, legal or not (R112). -/
def accept (s : State) (w : Word) : State :=
  { s with cmdLast := w, done := false, errcode := .ok, outLen := 0, phase := .check }

/-- The completion (R136): the one step that ends every command, and this engine's counterpart of taking an exception
(R267). The result is saved in ERRCODE and OUT_LEN, the key and the hidden registers are zeroed, DONE is set. -/
def completion (s : State) (code : ResultCode) (n : Nat) : State :=
  { s with
    errcode := code
    outLen := if code = .ok then BitVec.ofNat 32 n else 0
    keys := zeroKeys
    keyLen := 0
    chain := zeroBlock
    blk := zeroBlock
    ivb := zeroBlock
    padv := 0
    outmax := 0
    pos := 0
    ivMoved := false
    raced := false
    rngReq := false
    rngAnswer := none
    phase := .idle
    done := true }

/-- `raise ERR_X`: completion with an error code (R12, R260). -/
def raiseError (s : State) (code : ResultCode) : State := completion s code 0

/-- `complete(n)`: completion with code OK (R12, R136). Where its output is open, every byte of DSTR is unspecified (R72, R77,
U7). -/
def complete (s : State) (n : Nat) : State :=
  if outputFree s then completion (scrambleRegion s s.dst s.outmax.toNat) .ok n else completion s .ok n

/-- The end of a command at an error response (R70): code BUS, every byte of DSTR unspecified. -/
def raiseBus (s : State) : State := raiseError (scrambleRegion s s.dst s.outmax.toNat) .bus

/-- The acknowledgement (R268): a STATUS write that clears DONE and OVR (R98 `ACK`). It restores nothing. -/
def acknowledge (s : State) : State := s.writeStatus 6

/-- The end of an engine step: its state, a BUS completion, or the engine held by a bus that never answers (R70, U3). -/
def settle (x : Access Unit) : State :=
  match x with
  | .ok _ s => s
  | .busError s => raiseBus s
  | .noAnswer s => { s with busHung := true }

/-! ### CHECK -/

/-- The checks of R130 in their order: the code of the first that fails (R262). The illegal words are found before, by the
decoder. -/
def checkError (i : Instr) (s : State) : Option ResultCode :=
  if usesKey i && !s.keyValid then some .invalidKey
  else if (i = .decCfb ∨ i = .decCbc) ∧ s.len < 16 then some .ctTooShort
  else if i = .decCbc ∧ (s.len - 16) % 16 ≠ 0 then some .misaligned
  else if !(rangeOk i s.src s.dst s.len) || !(overlapOk i s.src s.dst s.len) then some .range
  else none

/-- The phase a command enters when every check passes (R130). -/
def phaseAfterCheck (i : Instr) : Phase :=
  match i with
  | .encCfb => .rngWait
  | .encCbc => .rngWait
  | .decCbc => .precheck
  | .unpad _ => .precheck
  | .decCfb => .run
  | .pad _ => .run

/-- CHECK (R130). On entering RNG_WAIT the engine raises its request (R131). -/
def check (i : Instr) (s : State) : State :=
  match checkError i s with
  | some code => raiseError s code
  | none =>
    { s with
      outmax := BitVec.ofNat 33 (outmaxOf i s.len)
      phase := phaseAfterCheck i
      rngReq := phaseAfterCheck i == .rngWait }

/-- The engine's step with an illegal word in CMD_LAST: CHECK completes it with ILLEGAL_CMD (R93, R130). No other phase is
reached with one. -/
def checkIllegal (s : State) : State :=
  match s.phase with
  | .check => raiseError s .illegalCmd
  | .idle => s
  | .rngWait => s
  | .precheck => s
  | .run => s

/-! ### The random source and the IV -/

/-- The engine in RNG_WAIT (R131): it takes no step until the source answers. -/
def awaitRandom (s : State) : State :=
  match s.rngAnswer with
  | none => s
  | some (.ok iv) => { s with ivb := iv, rngReq := false, rngAnswer := none, phase := .run }
  | some .fail => raiseError s .randomSource

/-- The IV-prepend wrapper (R133): the first access of RUN writes IVB at DST_ADDR; the chaining register takes the IV. -/
def prependIv (s : State) : Access Unit :=
  Access.bind (dmaWrite s s.dst s.ivb.1) fun _ t => .ok () { t with chain := t.ivb, pos := 0, ivMoved := true }

/-- The split (R134): the first access of RUN reads the IV from the source into the chaining register. -/
def splitIv (s : State) : Access Unit :=
  Access.bind (dmaRead s s.src 16) fun iv t => .ok () { t with chain := blockOfBytes iv, pos := 16, ivMoved := true }

/-- POS moved on by `n` bytes (R24). -/
def advance (s : State) (n : Nat) : State := { s with pos := s.pos + BitVec.ofNat 33 n }

/-- A command word as the host's CMD write leaves it, with the engine's step next: where the engine takes its next command
from (R78, log 18). -/
def placeCommand (s : State) (w : Word) : State :=
  { accept s w with
    inReset := false
    busHung := false
    raced := false
    events := if s.events = [] then [] else .engine :: s.events }

end Sys2Proof.Machine
end

