-- ==== Sys2Proof/Machine/Padding.lean ====
section
/-!
DEFINITION. The PKCS7 padding module (44_padding.md): pad, unpad and the strict validator (R230 to R232), and the commands PAD
(R233) and UNPAD (R234 to R236).
-/

namespace Sys2Proof.Machine

/-- The padding length of `n` bytes for a block size: `bs - (n mod bs)`, from 1 to bs (R230). -/
def padLen (bs n : Nat) : Nat := bs - n % bs

/-- The padding bytes `[p]*p` (R230). -/
def padBytes (p : Nat) : List Byte := List.replicate p (BitVec.ofNat 8 p)

/-- `pad(d, bs)` (R230). -/
def pad (d : List Byte) (bs : Nat) : List Byte := d ++ padBytes (padLen bs d.length)

/-- `pkcs7_valid(d, bs, n)`: the strict validator on a sequence `d` whose whole length is `n` (R232). -/
def pkcs7Valid (d : List Byte) (bs n : Nat) : Bool :=
  let p := d.getLastD 0
  if n = 0 then false
  else if p = 0 then false
  else if p.toNat > bs then false
  else if p.toNat > n then false
  else (d.drop (d.length - p.toNat)).all (· == p)

/-- `unpad(d, bs)` (R231), nothing where it fails with PADDING. -/
def unpad (d : List Byte) (bs : Nat) : Option (List Byte) :=
  if pkcs7Valid d bs d.length then some (d.take (d.length - (d.getLastD 0).toNat)) else none

/-- The copy of one byte in RUN_PAD and RUN_UNPAD (R233, R236). -/
def copyByte (s : State) : Access Unit :=
  Access.bind (dmaRead s (s.src + s.posn) 1) fun b t =>
    Access.bind (dmaWrite t (t.dst + t.posn) b) fun _ u => .ok () (advance u 1)

/-- One unit of RUN_PAD (R233): a byte, or the padding bytes and the completion. -/
def padRun (bs : Nat) (s : State) : Access Unit :=
  if s.posn < s.len then copyByte s
  else
    Access.bind (dmaWrite s (s.dst + s.len) (padBytes (padLen bs s.len))) fun _ t =>
      .ok () (complete t (s.len + padLen bs s.len))

/-- PAD, by phase (R233). -/
def padStep (bs : BitVec 8) (s : State) : State :=
  match s.phase with
  | .idle => s
  | .check => check (.pad bs) s
  | .rngWait => s
  | .precheck => s
  | .run => settle (padRun bs.toNat s)

/-- PAD: one step of the engine on it (R233). -/
def execPad (bs : BitVec 8) (s : State) : Host.Outcome State Fault Refusal := .next (padStep bs s)

/-- PRECHECK_UNPAD (R235). -/
def unpadPrecheck (bs : Nat) (s : State) : Access Unit :=
  if s.len = 0 then .ok () (raiseError s .padding)
  else
    Access.bind (dmaRead s (s.src + s.len - 1) 1) fun lastRead t =>
      let p := lastRead.headD 0
      let t := { t with padv := p }
      if p = 0 ∨ p.toNat > bs ∨ p.toNat > t.len then .ok () (raiseError t .padding)
      else
        Access.bind (dmaRead t (t.src + t.len - p.toNat) p.toNat) fun tail u =>
          if tail.all (· == p) then .ok () { u with phase := .run } else .ok () (raiseError u .padding)

/-- One unit of RUN_UNPAD (R236): a byte, or the completion. -/
def unpadRun (s : State) : Access Unit :=
  if s.posn < s.len - s.padv.toNat then copyByte s else .ok () (complete s (s.len - s.padv.toNat))

/-- UNPAD, by phase (R234). -/
def unpadStep (bs : BitVec 8) (s : State) : State :=
  match s.phase with
  | .idle => s
  | .check => check (.unpad bs) s
  | .rngWait => s
  | .precheck => settle (unpadPrecheck bs.toNat s)
  | .run => settle (unpadRun s)

/-- UNPAD: one step of the engine on it (R234). -/
def execUnpad (bs : BitVec 8) (s : State) : Host.Outcome State Fault Refusal := .next (unpadStep bs s)

end Sys2Proof.Machine
end

