-- ==== Sys2Proof/Machine/Cbc.lean ====
section
/-!
DEFINITION. The CBC mode engine (43_cbc.md): the functions cbc_enc and cbc_dec (R201, R202) and the commands ENC_CBC (R203,
R204) and DEC_CBC (R205 to R207).
-/

namespace Sys2Proof.Machine

/-- The forward chaining of R201, block by block: `Ci = E(K, Pi XOR FB)`, and FB takes Ci. -/
def cbcEncBlocks (E : Block → Block) : Block → List Block → List Block
  | _, [] => []
  | fb, p :: ps => E (xorBlock p fb) :: cbcEncBlocks E (E (xorBlock p fb)) ps

/-- The inverse chaining of R202, block by block: `Pi = D(K, Ci) XOR FB`, and FB takes Ci. -/
def cbcDecBlocks (D : Block → Block) : Block → List Block → List Block
  | _, [] => []
  | fb, c :: cs => xorBlock (D c) fb :: cbcDecBlocks D c cs

/-- A byte sequence cut into `m` blocks from its front. -/
def blocksOf : Nat → List Byte → List Block
  | 0, _ => []
  | m + 1, xs => blockOfBytes (xs.take 16) :: blocksOf m (xs.drop 16)

/-- The bytes of a sequence of blocks. -/
def bytesOf : List Block → List Byte
  | [] => []
  | b :: bs => b.1 ++ bytesOf bs

/-- `cbc_enc(K, IV, P)` on a sequence of whole blocks (R201). -/
def cbcEnc (E : Block → Block) (iv : Block) (p : List Byte) : List Byte :=
  bytesOf (cbcEncBlocks E iv (blocksOf (p.length / 16) p))

/-- `cbc_dec(K, IV, C)` on a sequence of whole blocks (R202). -/
def cbcDec (D : Block → Block) (iv : Block) (c : List Byte) : List Byte :=
  bytesOf (cbcDecBlocks D iv (blocksOf (c.length / 16) c))

/-- The number of source bytes of the block at POS in RUN_ENC_CBC: 16, or what is left of the source in the last one
(R204). -/
def encCbcTake (s : State) : Nat := min 16 (s.len - s.posn)

/-- One block of RUN_ENC_CBC (R204): the last one is filled with padding bytes that the engine makes itself. -/
def encCbcBlock (E : Block → Block) (s : State) : Access Unit :=
  Access.bind (dmaRead s (s.src + s.posn) (encCbcTake s)) fun x t =>
    let b := if t.posn + 16 < 16 * (t.len / 16 + 1) then blockOfBytes x
      else blockOfBytes (x ++ padBytes (padLen 16 t.len))
    let c := E (xorBlock b t.chain)
    Access.bind (dmaWrite { t with blk := b } (t.dst + 16 + t.posn) c.1) fun _ u =>
      .ok () (advance { u with chain := c } 16)

/-- One unit of RUN_ENC_CBC (R204): the IV, then the blocks, then the completion. -/
def encCbcRun (E : Block → Block) (s : State) : Access Unit :=
  if s.ivMoved = false then prependIv s
  else if s.posn < 16 * (s.len / 16 + 1) then encCbcBlock E s
  else .ok () (complete s (16 + 16 * (s.len / 16 + 1)))

/-- ENC_CBC, by phase, for the forward transform of the key (R203). -/
def encCbcStep (E : Block → Block) (s : State) : State :=
  match s.phase with
  | .idle => s
  | .check => check .encCbc s
  | .rngWait => awaitRandom s
  | .precheck => s
  | .run => settle (encCbcRun E s)

/-- ENC_CBC: one step of the engine on it (R203). -/
def execEncCbc (s : State) : Host.Outcome State Fault Refusal := .next (encCbcStep (Config.E s.key) s)

/-- The number `m` of payload blocks of DEC_CBC (R206). -/
def decCbcBlocks (s : State) : Nat := (s.len - 16) / 16

/-- PRECHECK_DEC_CBC (R206): the padding of the final block, before any write. -/
def decCbcPrecheck (D : Block → Block) (s : State) : Access Unit :=
  let m := decCbcBlocks s
  if m = 0 then .ok () (raiseError s .padding)
  else
    Access.bind (dmaRead s (s.src + 16 * (m - 1)) 16) fun prev t =>
      Access.bind (dmaRead t (t.src + 16 * m) 16) fun last u =>
        let pl := xorBlock (D (blockOfBytes last)) (blockOfBytes prev)
        let u := { u with padv := lastByte pl }
        if pkcs7Valid pl.1 16 (16 * m) then .ok () { u with phase := .run } else .ok () (raiseError u .padding)

/-- The output length of DEC_CBC: the payload less its padding (R207). -/
def decCbcOutLen (s : State) : Nat := 16 * decCbcBlocks s - s.padv.toNat

/-- One block of RUN_DEC_CBC (R207): the feedback comes from BLK, before the write; padding bytes are not written. -/
def decCbcBlock (D : Block → Block) (s : State) : Access Unit :=
  Access.bind (dmaRead s (s.src + s.posn) 16) fun x t =>
    let c := blockOfBytes x
    let p := xorBlock (D c) t.chain
    let u := { t with blk := c, chain := c }
    Access.bind (dmaWrite u (u.dst + u.posn - 16) (p.1.take (decCbcOutLen u - (u.posn - 16)))) fun _ v =>
      .ok () (advance v 16)

/-- One unit of RUN_DEC_CBC (R207): the IV, then the blocks, then the completion. -/
def decCbcRun (D : Block → Block) (s : State) : Access Unit :=
  if s.ivMoved = false then splitIv s
  else if s.posn < s.len then decCbcBlock D s
  else .ok () (complete s (decCbcOutLen s))

/-- DEC_CBC, by phase, for the inverse transform of the key (R205). -/
def decCbcStep (D : Block → Block) (s : State) : State :=
  match s.phase with
  | .idle => s
  | .check => check .decCbc s
  | .rngWait => s
  | .precheck => settle (decCbcPrecheck D s)
  | .run => settle (decCbcRun D s)

/-- DEC_CBC: one step of the engine on it (R205). -/
def execDecCbc (s : State) : Host.Outcome State Fault Refusal := .next (decCbcStep (Config.D s.key) s)

end Sys2Proof.Machine
end

