-- ==== Sys2Proof/Machine/Cfb.lean ====
section
/-!
DEFINITION. The CFB mode engine (42_cfb.md): the function cfb of R172 and the commands ENC_CFB (R173, R174) and DEC_CFB (R176,
R177). The rule is written for a segment size `seg`; this hardware has 16 (R8).
-/

namespace Sys2Proof.Machine

/-- The direction of the CFB path (R172). -/
inductive CfbDir where
  | enc
  | dec
deriving DecidableEq, Repr

/-- The keystream combination of R170 and R171: `x XOR first(E(K, SR), r)` with r the length of x. -/
def cfbCombine (E : Block → Block) (sr : Block) (x : List Byte) : List Byte := xorBytes x ((E sr).1.take x.length)

/-- The shift-register feedback (R172): `SR <- SR[s:16] || c` after a full segment, SR as it is after a partial one. -/
def cfbFeedback (seg : Nat) (sr : Block) (c : List Byte) : Block :=
  if c.length = seg then blockOfBytes (sr.1.drop seg ++ c) else sr

/-- The function cfb of R172 with `fuel` segments at most. -/
def cfbLoop (E : Block → Block) (seg : Nat) (dir : CfbDir) : Nat → Block → List Byte → List Byte
  | 0, _, _ => []
  | fuel + 1, sr, xs =>
    if xs = [] then []
    else
      let x := xs.take seg
      let y := cfbCombine E sr x
      y ++ cfbLoop E seg dir fuel (cfbFeedback seg sr (if dir = .enc then y else x)) (xs.drop seg)

/-- The function cfb of R172 for this hardware's segment size: one segment a byte at most. -/
def cfb (E : Block → Block) (dir : CfbDir) (iv : Block) (xs : List Byte) : List Byte :=
  cfbLoop E Config.cfbSeg dir xs.length iv xs

/-- `cfb_enc(K, IV, P)` (R172), for the forward transform of the key. -/
def cfbEnc (E : Block → Block) (iv : Block) (p : List Byte) : List Byte := cfb E .enc iv p

/-- `cfb_dec(K, IV, C)` (R172), for the forward transform of the key. -/
def cfbDec (E : Block → Block) (iv : Block) (c : List Byte) : List Byte := cfb E .dec iv c

/-- One segment of RUN_ENC_CFB (R174). -/
def encCfbSegment (E : Block → Block) (s : State) : Access Unit :=
  Access.bind (dmaRead s (s.src + s.posn) (min Config.cfbSeg (s.len - s.posn))) fun x t =>
    let y := cfbCombine E t.chain x
    Access.bind (dmaWrite { t with blk := patchBlock t.blk x } (t.dst + 16 + t.posn) y) fun _ u =>
      .ok () (advance { u with chain := cfbFeedback Config.cfbSeg u.chain y } x.length)

/-- One unit of RUN_ENC_CFB (R174): the IV, then the segments, then the completion. -/
def encCfbRun (E : Block → Block) (s : State) : Access Unit :=
  if s.ivMoved = false then prependIv s
  else if s.posn < s.len then encCfbSegment E s
  else .ok () (complete s (16 + s.len))

/-- ENC_CFB, by phase, for the forward transform of the key (R173). -/
def encCfbStep (E : Block → Block) (s : State) : State :=
  match s.phase with
  | .idle => s
  | .check => check .encCfb s
  | .rngWait => awaitRandom s
  | .precheck => s
  | .run => settle (encCfbRun E s)

/-- ENC_CFB: one step of the engine on it (R173). -/
def execEncCfb (s : State) : Host.Outcome State Fault Refusal := .next (encCfbStep (Config.E s.key) s)

/-- One segment of RUN_DEC_CFB (R177): the feedback comes from BLK, before the write. -/
def decCfbSegment (E : Block → Block) (s : State) : Access Unit :=
  Access.bind (dmaRead s (s.src + s.posn) (min Config.cfbSeg (s.len - s.posn))) fun x t =>
    let y := cfbCombine E t.chain x
    let u := { t with blk := patchBlock t.blk x, chain := cfbFeedback Config.cfbSeg t.chain x }
    Access.bind (dmaWrite u (u.dst + u.posn - 16) y) fun _ v => .ok () (advance v x.length)

/-- One unit of RUN_DEC_CFB (R177): the IV, then the segments, then the completion. -/
def decCfbRun (E : Block → Block) (s : State) : Access Unit :=
  if s.ivMoved = false then splitIv s
  else if s.posn < s.len then decCfbSegment E s
  else .ok () (complete s (s.len - 16))

/-- DEC_CFB, by phase, for the forward transform of the key (R176). -/
def decCfbStep (E : Block → Block) (s : State) : State :=
  match s.phase with
  | .idle => s
  | .check => check .decCfb s
  | .rngWait => s
  | .precheck => s
  | .run => settle (decCfbRun E s)

/-- DEC_CFB: one step of the engine on it (R176). -/
def execDecCfb (s : State) : Host.Outcome State Fault Refusal := .next (decCfbStep (Config.E s.key) s)

end Sys2Proof.Machine
end

