-- ==== Sys2Proof/Machine/Dispatch.lean ====
section
/-!
DEFINITION. One step of the engine on a command, by command.
-/

namespace Sys2Proof.Machine

def exec (i : Instr) (s : State) : Host.Outcome State Fault Refusal :=
  match i with
  | .encCfb => Sys2Proof.Machine.execEncCfb s
  | .decCfb => Sys2Proof.Machine.execDecCfb s
  | .encCbc => Sys2Proof.Machine.execEncCbc s
  | .decCbc => Sys2Proof.Machine.execDecCbc s
  | .pad bs => Sys2Proof.Machine.execPad bs s
  | .unpad bs => Sys2Proof.Machine.execUnpad bs s

end Sys2Proof.Machine
end

