-- ==== Sys2Proof/Machine/HostAccess.lean ====
section
/-!
DEFINITION. The host's accesses: registers (40_host_access.md, R110 to R116) and buffer memory (R117), with the race of R77.
-/

namespace Sys2Proof.Machine

/-- The registers of the window (R40). -/
inductive Reg where
  | cmd
  | status
  | srcAddr
  | dstAddr
  | srcLen
  | outLen
  | keyLen
  | irqEn
  | key (w : Fin 8)
deriving DecidableEq, Repr

/-- The register at a byte offset from BASE (R40): none where no aligned 32-bit access goes. -/
def regAt (off : Nat) : Option Reg :=
  match off with
  | 0x00 => some .cmd
  | 0x04 => some .status
  | 0x08 => some .srcAddr
  | 0x0C => some .dstAddr
  | 0x10 => some .srcLen
  | 0x14 => some .outLen
  | 0x18 => some .keyLen
  | 0x1C => some .irqEn
  | 0x20 => some (.key 0)
  | 0x24 => some (.key 1)
  | 0x28 => some (.key 2)
  | 0x2C => some (.key 3)
  | 0x30 => some (.key 4)
  | 0x34 => some (.key 5)
  | 0x38 => some (.key 6)
  | 0x3C => some (.key 7)
  | _ => none

/-- The byte offset of a register from BASE (R40). -/
def regOffset (r : Reg) : Nat :=
  match r with
  | .cmd => 0x00
  | .status => 0x04
  | .srcAddr => 0x08
  | .dstAddr => 0x0C
  | .srcLen => 0x10
  | .outLen => 0x14
  | .keyLen => 0x18
  | .irqEn => 0x1C
  | .key w => 0x20 + 4 * w.val

/-- The register a legal access names: 32 bits at an aligned offset of the window (R110). -/
def legalReg (size : AccessSize) (off : Nat) : Option Reg :=
  match size with
  | .word => regAt off
  | .half => none
  | .byte => none

/-- The registers locked while BUSY (R40, R113). -/
def locked (r : Reg) : Bool :=
  match r with
  | .cmd => true
  | .status => false
  | .srcAddr => true
  | .dstAddr => true
  | .srcLen => true
  | .outLen => false
  | .keyLen => true
  | .irqEn => false
  | .key _ => true

/-- REG_READ (R111): the value, with no side effect. The key registers read 0 (R54). -/
def readReg (s : State) (r : Reg) : Word :=
  match r with
  | .cmd => s.cmdLast
  | .status => s.statusWord
  | .srcAddr => s.srcAddr
  | .dstAddr => s.dstAddr
  | .srcLen => s.srcLen
  | .outLen => s.outLen
  | .keyLen => s.keyLen
  | .irqEn => s.irqEnWord
  | .key _ => 0

/-- A register write that is not lost (R112, R114 to R116): CMD starts a command, OUT_LEN ignores it. -/
def writeReg (s : State) (r : Reg) (w : Word) : State :=
  match r with
  | .cmd => accept s w
  | .status => s.writeStatus w
  | .srcAddr => { s with srcAddr := w }
  | .dstAddr => { s with dstAddr := w }
  | .srcLen => { s with srcLen := w }
  | .outLen => s
  | .keyLen => { s with keyLen := w }
  | .irqEn => s.writeIrqEn w
  | .key i => { s with keys := s.keys.write i w }

/-- REG_WRITE (R112 to R116): lost with OVR on a locked register while BUSY. -/
def regWrite (s : State) (r : Reg) (w : Word) : State :=
  if locked r && s.busy then s.lostWrite else writeReg s r w

/-- The error response to an illegal register access (R110): no state of the engine changes; the mark of R270 is set. -/
def badAccess (s : State) : State := { s with resp := .busError, badRegAccess := true }

/-- The active command, if its word is legal: what fixes the regions of a race (R65, R77, log 12). -/
def activeCommand (s : State) : Option Instr := if s.busy then decode? s.cmdLast else none

/-- Whether a host access to a byte range is a race (R77): BUSY, and a byte of SRCR or DSTR in it. -/
def races (s : State) (r : Region) : Bool :=
  match activeCommand s with
  | none => false
  | some i => r.meets s.srcr || r.meets (s.dstr i)

/-- Whether what the host reads from a byte is open: the byte is raced for (R77), or is not plain memory (R72, log 11). -/
def hostReadsFree (s : State) (a : Nat) : Bool := races s ⟨a, 1⟩ || inRegions (nonPlainRegions s.platform) a

/-- The bytes a host read gets from an address up: those of memory, and a free byte for each one that is open; byte j of the
read takes the free byte `ctr + j`. -/
def hostBytes (s : State) (ctr : Nat) : Nat → Nat → List Byte
  | _, 0 => []
  | a, n + 1 => (if hostReadsFree s a then Config.freeByte ctr else s.mem.read a) :: hostBytes s (ctr + 1) (a + 1) n

/-- `MR` (R97, R117). A racing read may return any mix of old and new bytes, and sets the mark BUFFER_RACE (R77, log 12). -/
def hostRead (s : State) (a n : Nat) : State :=
  if races s ⟨a, n⟩ || meetsRegions (nonPlainRegions s.platform) ⟨a, n⟩ then
    { s with
      resp := .bytes (hostBytes s s.draws a n)
      draws := s.draws + n
      bufferRace := s.bufferRace || races s ⟨a, n⟩ }
  else { s with resp := .bytes (s.mem.readRange a n) }

/-- `MW` (R97, R117). A racing write may change the command's output in any way, and sets the mark BUFFER_RACE (R77, log
12). -/
def hostWrite (s : State) (a : Nat) (bs : List Byte) : State :=
  { s with
    mem := s.mem.writeRange a bs
    resp := .written
    raced := s.raced || races s ⟨a, bs.length⟩
    bufferRace := s.bufferRace || races s ⟨a, bs.length⟩ }

/-- A host buffer access to a byte range (R117), with the state after it. A range with a byte that does not exist (R64) stops
as `outsideBufferSpace`, also where another byte of it is raced for or is not plain memory: DESIGN CHOICE (log 16). -/
def bufferAccess (r : Region) (t : State) : Host.Outcome State Fault Refusal :=
  if Config.addrSpace < r.base + r.len then .fault .outsideBufferSpace else .next t

/-- The schedule of a `WAITDONE` that read BUSY as 1 (R98): the agent scheduled next moves, the engine where none or the
host's own next operation is, and then STATUS is read again (log 28). -/
def waitAgain (es : List Event) : List Event :=
  match es with
  | [] => [.engine, .host .waitDone]
  | .host op :: rest => .engine :: .host .waitDone :: .host op :: rest
  | .engine :: rest => .engine :: .host .waitDone :: rest
  | .rng a :: rest => .rng a :: .host .waitDone :: rest
  | .resetAssert :: rest => .resetAssert :: .host .waitDone :: rest
  | .resetRelease :: rest => .resetRelease :: .host .waitDone :: rest

/-- One read of `WAITDONE`: `R STATUS`, and the wait goes on while its bit 0 reads 1 (R98). -/
def waitDone (s : State) : State :=
  { s with
    resp := .word s.statusWord
    events := if s.statusWord.getLsbD 0 then waitAgain s.events else s.events }

/-- One operation of the host (R97). A register access while reset is asserted is refused (R290). -/
def hostStep (op : HostOp) (s : State) : Host.Outcome State Fault Refusal :=
  match op with
  | .regRead size off =>
    if s.inReset then .refused .regAccessInReset
    else
      match legalReg size off with
      | some r => .next { s with resp := .word (readReg s r) }
      | none => .next (badAccess s)
  | .regWrite size off w =>
    if s.inReset then .refused .regAccessInReset
    else
      match legalReg size off with
      | some r => .next { regWrite s r w with resp := .written }
      | none => .next (badAccess s)
  | .memRead a n => bufferAccess ⟨a, n⟩ (hostRead s a n)
  | .memWrite a bs => bufferAccess ⟨a, bs.length⟩ (hostWrite s a bs)
  | .waitDone => if s.inReset then .refused .regAccessInReset else .next (waitDone s)

/-! ### Host program notation (R97, R98) -/

/-- `W <REG>, <value>` (R97). -/
def opW (r : Reg) (w : Word) : Event := .host (.regWrite .word (regOffset r) w)

/-- `R <REG>` (R97). -/
def opR (r : Reg) : Event := .host (.regRead .word (regOffset r))

/-- Word `w` of a key, missing bytes taken as 0 (R98 `LOADKEY`). -/
def keyWord (k : List Byte) (w : Nat) : Word :=
  bytesWord (k.getD (4 * w) 0) (k.getD (4 * w + 1) 0) (k.getD (4 * w + 2) 0) (k.getD (4 * w + 3) 0)

/-- `LOADKEY <k>` (R98). -/
def opLoadKey (k : List Byte) : List Event :=
  [opW (.key 0) (keyWord k 0), opW (.key 1) (keyWord k 1), opW (.key 2) (keyWord k 2), opW (.key 3) (keyWord k 3),
    opW (.key 4) (keyWord k 4), opW (.key 5) (keyWord k 5), opW (.key 6) (keyWord k 6), opW (.key 7) (keyWord k 7),
    opW .keyLen (BitVec.ofNat 32 k.length)]

/-- `START <mnemonic>` (R98). -/
def opStart (i : Instr) : Event := opW .cmd (encode i)

/-- `WAITDONE` (R98). -/
def opWaitDone : Event := .host .waitDone

/-- `ACK` (R98). -/
def opAck : Event := opW .status 6

end Sys2Proof.Machine
end

