-- ==== Sys2Proof/Machine/ResetInput.lean ====
section
/-!
DEFINITION. The reset input (70_reset_and_hazards.md, R290 to R292).
-/

namespace Sys2Proof.Machine

/-- The memory after reset (R291): a command active at reset leaves every byte of its destination region unspecified, as far
as the buffer space goes; outside a command nothing changes. -/
def resetMemory (s : State) : State :=
  match activeCommand s with
  | none => s
  | some i => scrambleRegion s s.dst (min (outmaxOf i s.len) (Config.addrSpace - s.dst))

/-- Reset asserted (R57, R290): every register and hidden register at its reset value, the request and the answer withdrawn,
a hung access dropped. Memory is as `resetMemory` says; the platform, the schedule and the model's marks are not the
block's. -/
def resetAssert (s : State) : State :=
  { State.reset with
    inReset := true
    mem := (resetMemory s).mem
    draws := (resetMemory s).draws
    resp := s.resp
    badRegAccess := s.badRegAccess
    bufferRace := s.bufferRace
    platform := s.platform
    events := s.events }

/-- Reset released (R290): the state stays the reset state. -/
def resetRelease (s : State) : State := { s with inReset := false }

end Sys2Proof.Machine
end

