-- ==== Sys2Proof/Machine/Engine.lean ====
section
/-!
DEFINITION. What one step of the machine is, by who moves: the engine (R22, R130), the host (R97), the random source (R131) or
the reset input (R290). Steps never overlap (R75).
-/

namespace Sys2Proof.Machine

/-- The engine can take a step: a command is active, reset is not asserted, and no access of it is left unanswered. -/
def State.engineReady (s : State) : Bool := s.busy && !s.inReset && !s.busHung

/-- A step of the engine: the active command is the one that CMD_LAST decodes to (R130). An engine that cannot move holds. -/
def engineStep (s : State) : Host.Outcome State Fault Refusal :=
  if s.engineReady then
    match decode s.cmdLast with
    | .cmd i => exec i s
    | .illegal _ => .next (checkIllegal s)
  else .next s

/-- An answer of the random source (R131): it enables the engine's step in RNG_WAIT, and is consumed by it. An answer to no
request is discarded (R34). -/
def rngStep (a : RngAnswer) (s : State) : Host.Outcome State Fault Refusal :=
  if s.phase = .rngWait ∧ s.rngReq = true then engineStep { s with rngAnswer := some a } else .next s

/-- A step of what the schedule names. -/
def eventStep (e : Event) (s : State) : Host.Outcome State Fault Refusal :=
  match e with
  | .engine => engineStep s
  | .host op => hostStep op s
  | .rng a => rngStep a s
  | .resetAssert => .next (resetAssert s)
  | .resetRelease => .next (resetRelease s)

/-- A step of the machine: the schedule's first event, or the engine when nothing is scheduled (log 1). -/
def machineStep (s : State) : Host.Outcome State Fault Refusal :=
  match s.events with
  | [] => engineStep s
  | e :: es => eventStep e { s with events := es }

end Sys2Proof.Machine
end

