-- ==== Sys2Proof/Machine/Step.lean ====
section
/-!
DEFINITION. The machine's one step, and where it takes its next command from.
-/

namespace Sys2Proof.Machine

/-- One step of the machine. -/
def step (s : State) : Host.Outcome State Fault Refusal := machineStep s

/-- The state with a command word where the engine takes its next command from: CMD_LAST as an accepted CMD write leaves it,
in CHECK (R78, R112, log 18). -/
def State.withFetchWord (s : State) (nbits w : Nat) : State := placeCommand s (BitVec.ofNat 32 (w % 2 ^ nbits))

end Sys2Proof.Machine
end

