-- ==== Sys2Proof/Safety.lean ====
section
/-!
DEFINITION. What a good state and a good run are, in the terms that statements use: the invariant of the machine, the legal
moves of PHASE (R23), the end of a run (R137), and the regions on which a command's accesses are served (R70) and plain (R72).
-/

namespace Sys2Proof.Machine

/-- The commands that draw an IV (R132). -/
def draws? (i : Instr) : Bool :=
  match i with
  | .encCfb => true
  | .encCbc => true
  | .decCfb => false
  | .decCbc => false
  | .pad _ => false
  | .unpad _ => false

/-- The commands that check padding before any write (R22, R130). -/
def prechecks (i : Instr) : Bool :=
  match i with
  | .decCbc => true
  | .unpad _ => true
  | .encCfb => false
  | .encCbc => false
  | .decCfb => false
  | .pad _ => false

/-- The hidden registers at their reset values (R57), as every completion leaves them (R136). -/
structure State.HiddenZero (s : State) : Prop where
  pos : s.pos = 0
  chain : s.chain = zeroBlock
  blk : s.blk = zeroBlock
  padv : s.padv = 0
  outmax : s.outmax = 0
  ivb : s.ivb = zeroBlock
  ivMoved : s.ivMoved = false

/-- The block at its reset values (R57, R290): what it is while reset is asserted. -/
structure State.BlockReset (s : State) : Prop where
  cmdLast : s.cmdLast = 0
  done : s.done = false
  ovr : s.ovr = false
  errcode : s.errcode = .ok
  srcAddr : s.srcAddr = 0
  dstAddr : s.dstAddr = 0
  srcLen : s.srcLen = 0
  outLen : s.outLen = 0
  keyLen : s.keyLen = 0
  doneIe : s.doneIe = false
  keys : s.keys = zeroKeys
  phase : s.phase = .idle
  hidden : s.HiddenZero
  rngReq : s.rngReq = false
  rngAnswer : s.rngAnswer = none
  busHung : s.busHung = false
  raced : s.raced = false

/-- Where RUN of a command can be: the place of POS, and of the IV access where there is one (R24, R174, R177, R204, R207,
R233, R236). -/
def RunPlace (i : Instr) (s : State) : Prop :=
  match i with
  | .encCfb => s.posn ≤ s.len ∧ (s.ivMoved = false → s.pos = 0)
  | .encCbc => s.posn ≤ 16 * (s.len / 16 + 1) ∧ s.posn % 16 = 0 ∧ (s.ivMoved = false → s.pos = 0)
  | .decCfb => if s.ivMoved then 16 ≤ s.posn ∧ s.posn ≤ s.len else s.pos = 0
  | .decCbc =>
    32 ≤ s.len ∧ 1 ≤ s.padv.toNat ∧ s.padv.toNat ≤ 16 ∧
      if s.ivMoved then 16 ≤ s.posn ∧ s.posn ≤ s.len ∧ s.posn % 16 = 0 else s.pos = 0
  | .pad _ => s.posn ≤ s.len ∧ s.ivMoved = false
  | .unpad bs =>
    1 ≤ s.padv.toNat ∧ s.padv.toNat ≤ bs.toNat ∧ s.padv.toNat ≤ s.len ∧ s.posn ≤ s.len - s.padv.toNat ∧
      s.ivMoved = false

/-- A command past CHECK: its word is legal, its checks passed, and OUTMAX is its own (R130). -/
def PastCheck (i : Instr) (s : State) : Prop :=
  decode s.cmdLast = .cmd i ∧ checkError i s = none ∧ s.outmax.toNat = outmaxOf i s.len

/-- The invariant of the machine. -/
structure State.Inv (s : State) : Prop where
  /-- The memory is in its canonical form. -/
  memory : s.mem.wf = true
  /-- No key, IV, chaining value or length of one command is left for the next (R30, R31, R136, R281). -/
  idle_clean : s.phase = .idle → s.HiddenZero
  /-- CHECK starts from clean hidden registers (R112). -/
  check_clean : s.phase = .check → s.HiddenZero
  /-- The request line is high exactly in RNG_WAIT (R34). -/
  request : s.rngReq = true ↔ s.phase = .rngWait
  /-- An answer is consumed in the step it comes in (R34). -/
  answer : s.rngAnswer = none
  /-- While BUSY, DONE, ERRCODE and OUT_LEN are 0 (R43, R47, R51). -/
  busy_cleared : s.phase ≠ .idle → s.done = false ∧ s.errcode = .ok ∧ s.outLen = 0
  /-- An error leaves OUT_LEN 0 (R51). -/
  error_len : s.errcode ≠ .ok → s.outLen = 0
  /-- RNG_WAIT is reached only by an encrypt command that passed its checks (R23). -/
  rng_wait : s.phase = .rngWait → ∃ i, PastCheck i s ∧ draws? i = true ∧ s.pos = 0 ∧ s.ivMoved = false
  /-- PRECHECK is reached only by DEC_CBC and UNPAD, past their checks (R23). -/
  precheck : s.phase = .precheck → ∃ i, PastCheck i s ∧ prechecks i = true ∧ s.pos = 0 ∧ s.ivMoved = false
  /-- RUN is reached only past the checks, and POS is where the command's rule can have it (R23, R24). -/
  run : s.phase = .run → ∃ i, PastCheck i s ∧ RunPlace i s
  /-- A hung access is one of PRECHECK or RUN (R70). -/
  hung : s.busHung = true → s.phase = .precheck ∨ s.phase = .run
  /-- A race is one with the active command, and is on the mark (R77). -/
  raced : s.raced = true → s.phase ≠ .idle ∧ s.bufferRace = true
  /-- While reset is asserted the block is in its reset state (R290). -/
  reset_held : s.inReset = true → s.BlockReset

/-- The engine's next step is its own: nothing is scheduled before it, reset is not asserted, no access hangs. -/
structure State.Free (s : State) : Prop where
  events : s.events = []
  inReset : s.inReset = false
  busHung : s.busHung = false

/-- The active command is `i`, in RUN, and past its checks. -/
structure State.Running (s : State) (i : Instr) : Prop where
  free : s.Free
  phase : s.phase = .run
  past : PastCheck i s

/-- The bus serves every byte of a region (R70). -/
def servedRegion (p : Platform) (r : Region) : Prop := ∀ c, r.has c = true → busAnswer p c = .ok

/-- No byte of a region is non-plain memory (R72). -/
def plainRegion (p : Platform) (r : Region) : Prop := meetsRegions (nonPlainRegions p) r = false

/-- A command's regions are served by the bus and plain memory, and no host write raced with it. -/
structure State.GoodBuffers (s : State) (i : Instr) : Prop where
  src_served : servedRegion s.platform s.srcr
  dst_served : servedRegion s.platform (s.dstr i)
  src_plain : plainRegion s.platform s.srcr
  dst_plain : plainRegion s.platform (s.dstr i)
  unraced : s.raced = false

/-- Bytes stored at an address and nowhere else: they read back, and every other byte of memory reads as before. -/
def StoredAt (s t : State) (a : Nat) (bs : List Byte) : Prop :=
  t.mem.readRange a bs.length = bs ∧ ∀ c, ¬(a ≤ c ∧ c < a + bs.length) → t.mem.read c = s.mem.read c

/-- A command that ends with OK: `out` stored at DST_ADDR and nowhere else, OUT_LEN its length, and everything else as the
completion leaves it (R69, R136). -/
def CompletedOk (s t : State) (out : List Byte) : Prop :=
  t = completion { s with mem := t.mem } .ok out.length ∧ t.outLen.toNat = out.length ∧ StoredAt s t s.dst out

/-- The bus answers every byte of a region, if only with an error (R70, R138). -/
def answeredRegion (p : Platform) (r : Region) : Prop := ∀ c, r.has c = true → busAnswer p c ≠ .never

/-- The byte addresses that the engine's next step on a command accesses, in the order in which it accesses them (R62, R174,
R177, R204, R206, R207, R233, R235, R236). How many bytes PRECHECK of UNPAD goes on to read depends on the first. -/
def stepAddresses (i : Instr) (s : State) : List Nat :=
  let rest := min 16 (s.len - s.posn)
  let copied := [s.src + s.posn, s.dst + s.posn]
  match i with
  | .encCfb =>
    if s.phase ≠ .run then []
    else if s.ivMoved = false then List.range' s.dst 16
    else if s.posn < s.len then List.range' (s.src + s.posn) rest ++ List.range' (s.dst + 16 + s.posn) rest
    else []
  | .decCfb =>
    if s.phase ≠ .run then []
    else if s.ivMoved = false then List.range' s.src 16
    else if s.posn < s.len then List.range' (s.src + s.posn) rest ++ List.range' (s.dst + s.posn - 16) rest
    else []
  | .encCbc =>
    if s.phase ≠ .run then []
    else if s.ivMoved = false then List.range' s.dst 16
    else if s.posn < 16 * (s.len / 16 + 1) then
      List.range' (s.src + s.posn) rest ++ List.range' (s.dst + 16 + s.posn) 16
    else []
  | .decCbc =>
    let m := (s.len - 16) / 16
    if s.phase = .precheck then
      if m = 0 then [] else List.range' (s.src + 16 * (m - 1)) 16 ++ List.range' (s.src + 16 * m) 16
    else if s.phase ≠ .run then []
    else if s.ivMoved = false then List.range' s.src 16
    else if s.posn < s.len then
      List.range' (s.src + s.posn) 16
        ++ List.range' (s.dst + s.posn - 16) (min 16 (16 * m - s.padv.toNat - (s.posn - 16)))
    else []
  | .pad bs =>
    if s.phase ≠ .run then []
    else if s.posn < s.len then copied
    else List.range' (s.dst + s.len) (bs.toNat - s.len % bs.toNat)
  | .unpad bs =>
    if s.phase = .precheck then
      if s.len = 0 then []
      else
        let p := (dmaValue s (s.src + s.len - 1)).toNat
        (s.src + s.len - 1) :: if p = 0 ∨ bs.toNat < p ∨ s.len < p then [] else List.range' (s.src + s.len - p) p
    else if s.phase ≠ .run then []
    else if s.posn < s.len - s.padv.toNat then copied
    else []

/-- The end of a host program's run (R137): no host operation is left, BUSY is 0 and no request is pending. -/
def State.endOfRun (s : State) : Bool :=
  s.events.all (fun e => match e with | .host _ => false | .engine => true | .rng _ => true | .resetAssert => true | .resetRelease => true)
    && !s.busy && !s.rngReq

end Sys2Proof.Machine
end

