-- ==== Sys2Proof/Certificates/Slice0/Obligations.lean ====
section
/-!
DEFINITION. The statements for the provers, from the numbered rules of spec/. Each says what it states in its docstring, with
the rule it follows. "log <n>" is notes/assumptions/<n>.md.
-/

open Sys2Proof Sys2Proof.Machine

/-! ### The command word -/

/-- Decoding and encoding agree: a word decodes to a command exactly when the command is well formed and the word is its
encoding. So no bit of a legal word is dropped and no word has two readings (R90, R94, R96). -/
def Obligations.DecodeAndEncodeAgree : Prop :=
  ∀ (w : Word) (i : Instr), decode w = .cmd i ↔ i.wf = true ∧ encode i = w

/-- R94: the decoder reads OP, RSV0, PBS and RSV1 as the rule's pseudo-code does (here as digits of the word's number), the
legal words are exactly those the rule lists, and there are 514 of them. -/
def Obligations.LegalWordsAreThe514 : Prop :=
  (∀ (w : Word) (i : Instr), decode w = .cmd i ↔
    w.toNat / 16 % 16 = 0 ∧ w.toNat / 65536 = 0 ∧
      ((w.toNat % 16 = 1 ∧ w.toNat / 256 % 256 = 0 ∧ i = .encCfb) ∨
        (w.toNat % 16 = 2 ∧ w.toNat / 256 % 256 = 0 ∧ i = .decCfb) ∨
        (w.toNat % 16 = 3 ∧ w.toNat / 256 % 256 = 0 ∧ i = .encCbc) ∨
        (w.toNat % 16 = 4 ∧ w.toNat / 256 % 256 = 0 ∧ i = .decCbc) ∨
        (w.toNat % 16 = 5 ∧ w.toNat / 256 % 256 ≠ 0 ∧ i = .pad (BitVec.ofNat 8 (w.toNat / 256 % 256))) ∨
        (w.toNat % 16 = 6 ∧ w.toNat / 256 % 256 ≠ 0 ∧ i = .unpad (BitVec.ofNat 8 (w.toNat / 256 % 256))))) ∧
  (∀ w : Word, (∃ i, decode w = .cmd i) ↔
    w = 0x00000001 ∨ w = 0x00000002 ∨ w = 0x00000003 ∨ w = 0x00000004 ∨
      ∃ nn : Nat, 1 ≤ nn ∧ nn ≤ 255 ∧ (w = BitVec.ofNat 32 (256 * nn + 5) ∨ w = BitVec.ofNat 32 (256 * nn + 6))) ∧
  ∃ ws : List Word, ws.Nodup ∧ ws.length = 4 + 255 + 255 ∧ ∀ w : Word, (∃ i, decode w = .cmd i) ↔ w ∈ ws

/-- A few words written out from the encoding of R90 and R96, one of each command. -/
def Obligations.DecodeReadsWrittenWords : Prop :=
  decode 0b00000000000000000000000000000001 = .cmd .encCfb ∧
  decode 0b00000000000000000000000000000010 = .cmd .decCfb ∧
  decode 0b00000000000000000000000000000011 = .cmd .encCbc ∧
  decode 0b00000000000000000000000000000100 = .cmd .decCbc ∧
  decode 0b00000000000000000001000000000101 = .cmd (.pad 16) ∧
  decode 0b00000000000000000000100000000110 = .cmd (.unpad 8)

/-- R93: which words are legal; an illegal word is accepted like any other, and CHECK completes it with ILLEGAL_CMD, touching
no memory. The word 0 is illegal. -/
def Obligations.IllegalWordCompletesIllegalCmd : Prop :=
  (∀ w : Word, (∃ i, decode w = .cmd i) ↔
    (1 ≤ (opField w).toNat ∧ (opField w).toNat ≤ 6) ∧ rsv0Field w = 0 ∧ rsv1Field w = 0 ∧
      (opField w = 1 ∨ opField w = 2 ∨ opField w = 3 ∨ opField w = 4 → pbsField w = 0) ∧
      (opField w = 5 ∨ opField w = 6 → pbsField w ≠ 0)) ∧
  (∀ (s : State) (w : Word), s.phase = .idle → (accept s w).busy = true ∧ (accept s w).cmdLast = w) ∧
  (∀ s : State, s.Free → s.phase = .check → (∀ i, decode s.cmdLast ≠ .cmd i) →
    ∃ t, step s = .next t ∧ t = completion s .illegalCmd 0 ∧ t.mem = s.mem ∧ t.statusWord.toNat / 256 = 6) ∧
  (∀ i, decode 0x00000000 ≠ .cmd i)

/-! ### The step of the machine -/

/-- A step runs the decoded command: with a command active and the engine able to move, the machine's step is `exec` of the
command that CMD_LAST decodes to (R78, R130). That the engine moves at once when nothing is scheduled, that otherwise the
schedule's first event moves and is taken off, is the model's choice (log 1), and so is the latch `busHung` (log 9). -/
def Obligations.StepRunsDecodedCommand : Prop :=
  ∀ (s : State) (i : Instr), s.phase ≠ .idle → s.inReset = false → s.busHung = false → decode s.cmdLast = .cmd i →
    (s.events = [] → step s = exec i s) ∧
    (∀ es, s.events = .engine :: es → step s = exec i { s with events := es })

/-- The invariant of the machine holds at reset. The values of the memory, the platform and the model's own fields are the
model's choices (logs 1, 6, 8, 9, 10, 15). -/
def Obligations.InvariantAtReset : Prop := State.reset.Inv

/-- Every step keeps the invariant of the machine: the memory's canonical form, clean hidden registers in IDLE and CHECK, the
request line high exactly in RNG_WAIT, DONE, ERRCODE and OUT_LEN 0 while BUSY, every phase past CHECK reached only by a
command that may be there and that passed its checks, POS where the command's rule can have it, the reset state while reset is
asserted (R22 to R24, R30, R31, R34, R43, R47, R51, R136, R290). -/
def Obligations.EveryStepKeepsInvariant : Prop :=
  ∀ s t : State, s.Inv → step s = .next t → t.Inv

/-- R23: PHASE moves only as the rule lists. -/
def Obligations.OnlyLegalPhaseMoves : Prop :=
  ∀ s t : State, s.Inv → step s = .next t →
    t.phase = s.phase ∨
    -- IDLE to CHECK on an accepted CMD write
    (s.phase = .idle ∧ t.phase = .check ∧ ∃ w es, s.events = .host (.regWrite .word 0x00 w) :: es ∧ t.cmdLast = w) ∨
    -- CHECK onwards once every check passes
    (s.phase = .check ∧ ∃ i, decode s.cmdLast = .cmd i ∧ checkError i s = none ∧
      ((t.phase = .rngWait ∧ (i = .encCfb ∨ i = .encCbc)) ∨
        (t.phase = .precheck ∧ (i = .decCbc ∨ ∃ bs, i = .unpad bs)) ∨
        (t.phase = .run ∧ (i = .decCfb ∨ ∃ bs, i = .pad bs)))) ∨
    -- RNG_WAIT to RUN on ok(iv)
    (s.phase = .rngWait ∧ t.phase = .run ∧ ∃ iv es, s.events = .rng (.ok iv) :: es ∧ t.ivb = iv) ∨
    -- PRECHECK to RUN when the padding is valid
    (s.phase = .precheck ∧ t.phase = .run ∧
      ((decode s.cmdLast = .cmd .decCbc ∧ (s.GoodBuffers .decCbc →
          pkcs7Valid (cbcDec (Config.D s.key) (blockOfBytes (s.mem.readRange s.src 16))
            (s.mem.readRange (s.src + 16) (s.len - 16))) 16 (s.len - 16) = true)) ∨
        ∃ bs, decode s.cmdLast = .cmd (.unpad bs) ∧ (s.GoodBuffers (.unpad bs) →
          pkcs7Valid (s.mem.readRange s.src s.len) bs.toNat s.len = true))) ∨
    -- a busy phase to IDLE through completion
    (s.phase ≠ .idle ∧ t.phase = .idle ∧ t.done = true ∧ t.keys = zeroKeys ∧ t.keyLen = 0) ∨
    -- any state to IDLE on reset
    (t.phase = .idle ∧ ∃ es, s.events = .resetAssert :: es)

/-- While a command is active and reset is not asserted, no step changes CMD_LAST, SRC_ADDR, DST_ADDR, SRC_LEN or the
platform, and KEY0 to KEY7 and KEY_LEN change only by the completion, to zero (R55, R113, R136). -/
def Obligations.OperandsFrozenWhileBusy : Prop :=
  ∀ s t : State, s.phase ≠ .idle → (∀ es, s.events ≠ .resetAssert :: es) → step s = .next t →
    t.cmdLast = s.cmdLast ∧ t.srcAddr = s.srcAddr ∧ t.dstAddr = s.dstAddr ∧ t.srcLen = s.srcLen ∧
      t.platform = s.platform ∧
      ((t.keys = s.keys ∧ t.keyLen = s.keyLen) ∨ (t.phase = .idle ∧ t.keys = zeroKeys ∧ t.keyLen = 0))

/-! ### CHECK and completion -/

/-- R130: CHECK performs the rule's checks in the rule's order, and enters the rule's phase when all pass. The size OUTMAX, the
range condition and the overlap condition are written out here, command by command, as the tables of R65 to R67 have them. -/
def Obligations.CheckRunsInOrder : Prop :=
  (∀ s : State, s.Free → s.phase = .check → (∀ i, decode s.cmdLast ≠ .cmd i) →
    step s = .next (completion s .illegalCmd 0)) ∧
  ∀ (i : Instr) (s : State), s.phase = .check →
    let S := s.srcAddr.toNat
    let T := s.dstAddr.toNat
    let L := s.srcLen.toNat
    let outmax := match i with
      | .encCfb => 16 + L
      | .decCfb => L - 16
      | .encCbc => 16 + 16 * (L / 16 + 1)
      | .decCbc => L - 16
      | .pad pbs => L + (pbs.toNat - L % pbs.toNat)
      | .unpad _ => L
    exec i s = .next (
      if (i = .encCfb ∨ i = .decCfb ∨ i = .encCbc ∨ i = .decCbc) ∧
          ¬(s.keyLen.toNat = 16 ∨ s.keyLen.toNat = 24 ∨ s.keyLen.toNat = 32) then completion s .invalidKey 0
      else if (i = .decCfb ∨ i = .decCbc) ∧ L < 16 then completion s .ctTooShort 0
      else if i = .decCbc ∧ (L - 16) % 16 ≠ 0 then completion s .misaligned 0
      else if S + L > 2 ^ 32 ∨ T + outmax > 2 ^ 32 ∨ outmax > 2 ^ 32 - 1 ∨
          ((i = .encCfb ∨ i = .encCbc) ∧ ¬(L = 0 ∨ T + 16 ≤ S ∨ T ≥ S + L)) ∨
          ((i = .decCfb ∨ i = .decCbc) ∧ ¬(T ≤ S + 16 ∨ T ≥ S + L)) ∨
          (¬(i = .encCfb ∨ i = .encCbc ∨ i = .decCfb ∨ i = .decCbc) ∧ ¬(T ≤ S ∨ T ≥ S + L)) then
        completion s .range 0
      else
        { s with
          outmax := BitVec.ofNat 33 outmax
          phase := match i with
            | .encCfb => .rngWait
            | .encCbc => .rngWait
            | .decCbc => .precheck
            | .unpad _ => .precheck
            | .decCfb => .run
            | .pad _ => .run
          rngReq := match i with
            | .encCfb => true
            | .encCbc => true
            | .decCbc => false
            | .unpad _ => false
            | .decCfb => false
            | .pad _ => false })

/-- R136: what the completion writes, for OK with its length and for every error with 0, and what it leaves. -/
def Obligations.CompletionSetsResultAndZeroesKey : Prop :=
  ∀ (s : State) (code : ResultCode) (n : Nat), ∃ t, completion s code n = t ∧
    t.errcode = code ∧ t.outLen = (if code = .ok then BitVec.ofNat 32 n else 0) ∧
    t.keys = zeroKeys ∧ t.keyLen = 0 ∧ t.chain = zeroBlock ∧ t.blk = zeroBlock ∧ t.ivb = zeroBlock ∧ t.padv = 0 ∧
    t.outmax = 0 ∧ t.pos = 0 ∧ t.rngReq = false ∧ t.phase = .idle ∧ t.busy = false ∧ t.rngWaiting = false ∧
    t.done = true ∧ t.irq = s.doneIe ∧
    t.ovr = s.ovr ∧ t.srcAddr = s.srcAddr ∧ t.dstAddr = s.dstAddr ∧ t.srcLen = s.srcLen ∧ t.cmdLast = s.cmdLast ∧
    t.doneIe = s.doneIe ∧ t.mem = s.mem ∧ t.raced = false ∧ t.bufferRace = s.bufferRace

/-- Every command that ends, ends in a completion: whenever BUSY falls other than by reset, DONE is set, the key is zero, the
hidden registers are zero, no request is pending, and OUT_LEN is 0 unless the code is OK (R44, R51, R54, R136, R281). -/
def Obligations.EveryEndOfCommandZeroesKey : Prop :=
  ∀ s t : State, s.Inv → step s = .next t → s.busy = true → t.busy = false → t.inReset = false →
    t.done = true ∧ t.keys = zeroKeys ∧ t.keyLen = 0 ∧ t.HiddenZero ∧ t.rngReq = false ∧
      (t.errcode ≠ .ok → t.outLen = 0)

/-! ### Host register accesses -/

/-- R111: what a register read returns, with no side effect on any state of the block. The record of the answer (`resp`) is
the model's own (log 17). -/
def Obligations.RegisterReadsReturn : Prop :=
  (∀ (s : State) (off : Nat) (v : Word), s.inReset = false →
    ((off = 0x00 ∧ v = s.cmdLast) ∨
      (off = 0x04 ∧ v.toNat = s.errcode.bits.toNat * 256 + (if s.phase = .rngWait then 8 else 0)
        + (if s.ovr then 4 else 0) + (if s.done then 2 else 0) + (if s.phase = .idle then 0 else 1)) ∨
      (off = 0x08 ∧ v = s.srcAddr) ∨ (off = 0x0C ∧ v = s.dstAddr) ∨ (off = 0x10 ∧ v = s.srcLen) ∨
      (off = 0x14 ∧ v = s.outLen) ∨ (off = 0x18 ∧ v = s.keyLen) ∨
      (off = 0x1C ∧ v.toNat = if s.doneIe then 1 else 0) ∨
      (0x20 ≤ off ∧ off ≤ 0x3C ∧ off % 4 = 0 ∧ v = 0)) →
    hostStep (.regRead .word off) s = .next { s with resp := .word v }) ∧
  (∀ s : State, s.Inv → s.busy = true → s.outLen = 0 ∧ s.errcode.bits = 0)

/-- R112: a CMD write while idle is accepted: CMD_LAST takes the word, DONE, ERRCODE and OUT_LEN are cleared, PHASE goes to
CHECK; nothing else of the block changes; irq is low and BUSY reads 1. -/
def Obligations.CmdWriteIsAccepted : Prop :=
  ∀ (s : State) (w : Word), s.inReset = false → s.phase = .idle →
    ∃ t, hostStep (.regWrite .word 0x00 w) s = .next t ∧
      t = { s with cmdLast := w, done := false, errcode := .ok, outLen := 0, phase := .check, resp := .written } ∧
      t.irq = false ∧ t.busy = true ∧ (s.ovr = false → t.statusWord = 0x00000001)

/-- R113: a write to a locked register while BUSY sets OVR; nothing else of the block changes. -/
def Obligations.LockedWriteWhileBusySetsOvr : Prop :=
  ∀ (s : State) (off : Nat) (w : Word), s.inReset = false → s.busy = true →
    (off = 0x00 ∨ off = 0x08 ∨ off = 0x0C ∨ off = 0x10 ∨ off = 0x18 ∨ (0x20 ≤ off ∧ off ≤ 0x3C ∧ off % 4 = 0)) →
    hostStep (.regWrite .word off w) s = .next { s with ovr := true, resp := .written }

/-- R114: a write to an operand register while idle stores all 32 bits, whatever they are; nothing else of the block changes.
For the key registers: the four key bytes of the word written, low byte first, and no other key byte (R54). -/
def Obligations.OperandWriteWhileIdle : Prop :=
  ∀ (s : State) (w : Word), s.inReset = false → s.phase = .idle →
    hostStep (.regWrite .word 0x08 w) s = .next { s with srcAddr := w, resp := .written } ∧
    hostStep (.regWrite .word 0x0C w) s = .next { s with dstAddr := w, resp := .written } ∧
    hostStep (.regWrite .word 0x10 w) s = .next { s with srcLen := w, resp := .written } ∧
    hostStep (.regWrite .word 0x18 w) s = .next { s with keyLen := w, resp := .written } ∧
    ∀ i : Nat, i < 8 → ∃ k : KeyRegs,
      hostStep (.regWrite .word (0x20 + 4 * i) w) s = .next { s with keys := k, resp := .written } ∧
      ∀ j : Nat, j < 32 → k.bytes.getD j 0 =
        if j / 4 = i then w.extractLsb' (8 * (j % 4)) 8 else s.keys.bytes.getD j 0

/-- R115: a STATUS write clears DONE by bit 1 and OVR by bit 2, at any time; all other bits are ignored and nothing else of the
block changes. -/
def Obligations.StatusWriteClears : Prop :=
  ∀ (s : State) (w : Word), s.inReset = false →
    hostStep (.regWrite .word 0x04 w) s = .next
      { s with
        done := if w.toNat / 2 % 2 = 1 then false else s.done
        ovr := if w.toNat / 4 % 2 = 1 then false else s.ovr
        resp := .written }

/-- R116: an IRQ_EN write stores bit 0 at any time; an OUT_LEN write is ignored at any time; neither sets OVR. -/
def Obligations.IrqEnAndOutLenWrites : Prop :=
  ∀ (s : State) (w : Word), s.inReset = false →
    hostStep (.regWrite .word 0x1C w) s = .next { s with doneIe := decide (w.toNat % 2 = 1), resp := .written } ∧
    hostStep (.regWrite .word 0x14 w) s = .next { s with resp := .written }

/-- An access that R110 calls illegal gets an error response and changes no state of the block. That the model goes on, with
the mark BAD_REG_ACCESS set, is its choice (log 13). -/
def Obligations.IllegalAccessChangesNothing : Prop :=
  ∀ (s : State) (size : AccessSize) (off : Nat) (w : Word), s.inReset = false →
    (size ≠ .word ∨ off % 4 ≠ 0 ∨ 0x3C < off) →
    hostStep (.regRead size off) s = .next { s with resp := .busError, badRegAccess := true } ∧
    hostStep (.regWrite size off w) s = .next { s with resp := .busError, badRegAccess := true }

/-- R45: a write to a locked register while BUSY sets OVR and has no other effect, and nothing else sets it; a STATUS write with
bit 2 set and reset clear it, and nothing else does, no acceptance and no completion. -/
def Obligations.OvrIsSticky : Prop :=
  ∀ s : State,
    let lockedWrite := fun es : List Event => ∃ (off : Nat) (w : Word), s.events = .host (.regWrite .word off w) :: es ∧
      (off = 0x00 ∨ off = 0x08 ∨ off = 0x0C ∨ off = 0x10 ∨ off = 0x18 ∨ (0x20 ≤ off ∧ off ≤ 0x3C ∧ off % 4 = 0))
    let clears := fun es : List Event =>
      (∃ w : Word, s.events = .host (.regWrite .word 0x04 w) :: es ∧ w.toNat / 4 % 2 = 1) ∨ s.events = .resetAssert :: es
    (∀ es, s.inReset = false → s.busy = true → lockedWrite es →
      step s = .next { s with ovr := true, resp := .written, events := es }) ∧
    ∀ t, step s = .next t →
      (s.ovr = false → t.ovr = true → s.busy = true ∧ ∃ es, lockedWrite es) ∧
      (s.ovr = true → t.ovr = false → ∃ es, clears es) ∧
      ∀ es, clears es → t.ovr = false

/-- R36: irq is DONE and DONE_IE. Clearing DONE, clearing DONE_IE, accepting a command and reset lower it; setting DONE_IE
while DONE is 1 raises it. -/
def Obligations.IrqFollowsDoneAndEnable : Prop :=
  ∀ s : State,
    (s.irq = true ↔ s.done = true ∧ s.doneIe = true) ∧
    (∀ w : Word, w.toNat / 2 % 2 = 1 → (s.writeStatus w).irq = false) ∧
    (∀ w : Word, w.toNat % 2 = 0 → (s.writeIrqEn w).irq = false) ∧
    (∀ w : Word, w.toNat % 2 = 1 → s.done = true → (s.writeIrqEn w).irq = true) ∧
    (∀ w : Word, (accept s w).irq = false) ∧
    (resetAssert s).irq = false

/-! ### Host buffer accesses -/

/-- While BUSY, a host read or write of a byte of SRCR or DSTR of the active command is a race (R77): it sets the mark of the
fault BUFFER_RACE, which no step clears and nothing else sets. Any other host access to bytes of the buffer space goes to
memory, also while idle, with whatever word in CMD_LAST, and while an illegal word waits for CHECK (R117). That a racing read
gets a free byte for each byte raced for, and that a racing write is stored and leaves the output open, is how the model
takes "any mix" and "any way" (log 12); that a byte which is not plain memory reads free to the host is log 11. -/
def Obligations.BufferRaceFaults : Prop :=
  (∀ (s : State) (a n : Nat) (bs : List Byte), n = bs.length → a + n ≤ 2 ^ 32 →
    let inBuffers := fun c : Nat => ∃ i, decode s.cmdLast = .cmd i ∧
      ((s.src ≤ c ∧ c < s.src + s.len) ∨ (s.dst ≤ c ∧ c < s.dst + outmaxOf i s.len))
    ((s.busy = true ∧ ∃ c, a ≤ c ∧ c < a + n ∧ inBuffers c) →
      (∃ v d, hostStep (.memRead a n) s = .next { s with resp := .bytes v, draws := d, bufferRace := true } ∧
        v.length = n ∧ ∃ ctr, ∀ j, j < n →
          (inBuffers (a + j) → v.getD j 0 = Config.freeByte (ctr + j)) ∧
          (¬inBuffers (a + j) → plainRegion s.platform ⟨a + j, 1⟩ → v.getD j 0 = s.mem.read (a + j))) ∧
      ∃ t, hostStep (.memWrite a bs) s = .next t ∧
        t = { s with mem := t.mem, resp := .written, raced := true, bufferRace := true } ∧ StoredAt s t a bs) ∧
    ((s.busy = false ∨ ∀ c, a ≤ c → c < a + n → ¬inBuffers c) →
      (plainRegion s.platform ⟨a, n⟩ →
        hostStep (.memRead a n) s = .next { s with resp := .bytes (s.mem.readRange a n) }) ∧
      (∃ v d, hostStep (.memRead a n) s = .next { s with resp := .bytes v, draws := d } ∧ v.length = n ∧
        ∀ j, j < n → plainRegion s.platform ⟨a + j, 1⟩ → v.getD j 0 = s.mem.read (a + j)) ∧
      ∃ t, hostStep (.memWrite a bs) s = .next t ∧ t = { s with mem := t.mem, resp := .written } ∧ StoredAt s t a bs)) ∧
  ∀ s t : State, step s = .next t →
    (s.bufferRace = true → t.bufferRace = true) ∧
    (s.bufferRace = false → t.bufferRace = true → s.busy = true ∧ ∃ (op : HostOp) (a n : Nat) (es : List Event),
      s.events = .host op :: es ∧ (op = .memRead a n ∨ ∃ bs, op = .memWrite a bs ∧ n = bs.length) ∧
      ∃ i, decode s.cmdLast = .cmd i ∧ ∃ c, a ≤ c ∧ c < a + n ∧
        ((s.src ≤ c ∧ c < s.src + s.len) ∨ (s.dst ≤ c ∧ c < s.dst + outmaxOf i s.len)))

/-! ### The random source -/

/-- R131: in RNG_WAIT the request is raised and STATUS reads 0x00000009, plus OVR; an encrypt command takes no step, however
many are taken, until the source answers; `ok(iv)` puts the 16 bytes in IVB and goes to RUN; `fail` completes with
RANDOM_SOURCE. -/
def Obligations.RandomSourceAnswersOrHolds : Prop :=
  ∀ (s : State) (i : Instr), s.Inv → s.phase = .rngWait → decode s.cmdLast = .cmd i →
    s.rngReq = true ∧ s.statusWord.toNat = 9 + (if s.ovr then 4 else 0) ∧
    (∀ k, s.events = [] → Host.Core.run Sys2Proof.core k s = .next s) ∧
    (∀ es, s.events = .engine :: es → step s = .next { s with events := es }) ∧
    (∀ iv es, s.events = .rng (.ok iv) :: es →
      step s = .next { s with ivb := iv, rngReq := false, phase := .run, events := es }) ∧
    (∀ es, s.events = .rng .fail :: es → step s = .next (completion { s with events := es } .randomSource 0)) ∧
    exec i s = .next s

/-- An answer of the random source to no request is discarded: outside RNG_WAIT it changes nothing. R34 and R291 say it of an
answer after a reset; that it holds of every unrequested answer is the model's deduction (log 7). -/
def Obligations.UnrequestedAnswerIsDiscarded : Prop :=
  ∀ (s : State) (a : RngAnswer) (es : List Event), s.phase ≠ .rngWait → s.events = .rng a :: es →
    step s = .next { s with events := es }

/-- The IV-prepend wrapper: the first access of RUN of ENC_CFB and ENC_CBC writes IVB, the bytes of the draw, at DST_ADDR, and
the chaining register takes them. Nothing else changes (R133, R174, R204). -/
def Obligations.EncryptionWritesIvFirst : Prop :=
  ∀ (i : Instr) (s : State), (i = .encCfb ∨ i = .encCbc) → s.phase = .run → s.ivMoved = false →
    servedRegion s.platform ⟨s.dst, 16⟩ →
    ∃ t, exec i s = .next t ∧ t = { s with mem := t.mem, chain := s.ivb, pos := 0, ivMoved := true } ∧
      StoredAt s t s.dst s.ivb.1

/-- The split: the first access of RUN of DEC_CFB and DEC_CBC reads the IV, the first 16 source bytes, into the chaining
register. It writes nothing (R134, R177, R207). -/
def Obligations.DecryptionReadsIvFirst : Prop :=
  ∀ (i : Instr) (s : State), (i = .decCfb ∨ i = .decCbc) → s.phase = .run → s.ivMoved = false →
    servedRegion s.platform ⟨s.src, 16⟩ → plainRegion s.platform ⟨s.src, 16⟩ → s.raced = false →
    exec i s = .next
      { s with chain := blockOfBytes (s.mem.readRange s.src 16), pos := 16, ivMoved := true }

/-! ### One unit of RUN -/

/-- One segment of ENC_CFB: the ciphertext `x XOR first(E(K, SR), r)` of the next source bytes is stored at DST_ADDR + 16 + POS
and nowhere else, SR takes it after a full segment, POS moves on; every other register is as it was (R170 to R172, R174). -/
def Obligations.EncCfbSegmentStep : Prop :=
  ∀ s : State, s.phase = .run → s.ivMoved = true → s.posn < s.len →
    let r := min 16 (s.len - s.posn)
    servedRegion s.platform ⟨s.src + s.posn, r⟩ → plainRegion s.platform ⟨s.src + s.posn, r⟩ → s.raced = false →
    servedRegion s.platform ⟨s.dst + 16 + s.posn, r⟩ →
    let x := s.mem.readRange (s.src + s.posn) r
    let y := List.zipWith (· ^^^ ·) x ((Config.E s.key s.chain).1.take r)
    ∃ t, exec .encCfb s = .next t ∧ StoredAt s t (s.dst + 16 + s.posn) y ∧
      t.blk.1 = x ++ s.blk.1.drop r ∧ t.chain.1 = (if r = 16 then y else s.chain.1) ∧ t.posn = s.posn + r ∧
      t = { s with mem := t.mem, blk := t.blk, chain := t.chain, pos := t.pos }

/-- One segment of DEC_CFB: the plaintext of the next source bytes is stored at DST_ADDR + POS - 16 and nowhere else, SR takes
the ciphertext segment after a full one, POS moves on; every other register is as it was (R170 to R172, R177). -/
def Obligations.DecCfbSegmentStep : Prop :=
  ∀ s : State, s.phase = .run → s.ivMoved = true → 16 ≤ s.posn → s.posn < s.len →
    let r := min 16 (s.len - s.posn)
    servedRegion s.platform ⟨s.src + s.posn, r⟩ → plainRegion s.platform ⟨s.src + s.posn, r⟩ → s.raced = false →
    servedRegion s.platform ⟨s.dst + (s.posn - 16), r⟩ →
    let x := s.mem.readRange (s.src + s.posn) r
    let y := List.zipWith (· ^^^ ·) x ((Config.E s.key s.chain).1.take r)
    ∃ t, exec .decCfb s = .next t ∧ StoredAt s t (s.dst + (s.posn - 16)) y ∧
      t.blk.1 = x ++ s.blk.1.drop r ∧ t.chain.1 = (if r = 16 then x else s.chain.1) ∧ t.posn = s.posn + r ∧
      t = { s with mem := t.mem, blk := t.blk, chain := t.chain, pos := t.pos }

/-- One block of ENC_CBC: `E(K, BLK XOR FB)` is stored at DST_ADDR + 16 + POS and nowhere else, where BLK is the next source
block, or the rest of the source with its padding bytes in the last one; FB takes the ciphertext block, POS moves on by 16;
every other register is as it was (R201, R204). -/
def Obligations.EncCbcBlockStep : Prop :=
  ∀ s : State, s.phase = .run → s.ivMoved = true → s.posn % 16 = 0 → s.posn < 16 * (s.len / 16 + 1) →
    let r := min 16 (s.len - s.posn)
    servedRegion s.platform ⟨s.src + s.posn, r⟩ → plainRegion s.platform ⟨s.src + s.posn, r⟩ → s.raced = false →
    servedRegion s.platform ⟨s.dst + 16 + s.posn, 16⟩ →
    ∃ t, exec .encCbc s = .next t ∧
      t.blk.1 = s.mem.readRange (s.src + s.posn) r ++ List.replicate (16 - r) (BitVec.ofNat 8 (16 - s.len % 16)) ∧
      t.chain = Config.E s.key (xorBlock t.blk s.chain) ∧ StoredAt s t (s.dst + 16 + s.posn) t.chain.1 ∧
      t.posn = s.posn + 16 ∧
      t = { s with mem := t.mem, blk := t.blk, chain := t.chain, pos := t.pos }

/-- One block of DEC_CBC: of `D(K, BLK) XOR FB` the bytes that are output, and no padding byte, are stored at DST_ADDR + POS -
16 and nowhere else; FB takes the ciphertext block from BLK, POS moves on by 16; every other register is as it was (R202,
R207). -/
def Obligations.DecCbcBlockStep : Prop :=
  ∀ s : State, s.phase = .run → s.ivMoved = true → 16 ≤ s.posn → s.posn < s.len →
    let n := 16 * ((s.len - 16) / 16) - s.padv.toNat
    let w := min 16 (n - (s.posn - 16))
    servedRegion s.platform ⟨s.src + s.posn, 16⟩ → plainRegion s.platform ⟨s.src + s.posn, 16⟩ → s.raced = false →
    servedRegion s.platform ⟨s.dst + (s.posn - 16), w⟩ →
    ∃ t, exec .decCbc s = .next t ∧ t.blk.1 = s.mem.readRange (s.src + s.posn) 16 ∧ t.chain = t.blk ∧
      StoredAt s t (s.dst + (s.posn - 16)) ((xorBlock (Config.D s.key t.blk) s.chain).1.take w) ∧
      t.posn = s.posn + 16 ∧
      t = { s with mem := t.mem, blk := t.blk, chain := t.chain, pos := t.pos }

/-- One byte of the copy in RUN of PAD and UNPAD: the source byte at POS is stored at DST_ADDR + POS and nowhere else, POS
moves on by 1; every other register is as it was (R233, R236). -/
def Obligations.PaddingCommandsCopyOneByte : Prop :=
  ∀ (bs : BitVec 8) (i : Instr) (s : State), s.phase = .run →
    (i = .pad bs ∧ s.posn < s.len ∨ i = .unpad bs ∧ s.posn < s.len - s.padv.toNat) →
    servedRegion s.platform ⟨s.src + s.posn, 1⟩ → plainRegion s.platform ⟨s.src + s.posn, 1⟩ → s.raced = false →
    servedRegion s.platform ⟨s.dst + s.posn, 1⟩ →
    ∃ t, exec i s = .next t ∧ StoredAt s t (s.dst + s.posn) [s.mem.read (s.src + s.posn)] ∧ t.posn = s.posn + 1 ∧
      t = { s with mem := t.mem, pos := t.pos }

/-- The end of PAD: with the data copied, the p padding bytes of value p are stored at DST_ADDR + L and nowhere else, and the
command completes with OK and OUT_LEN = L + p (R230, R233). That
the padding bytes and the completion are one step is the model's grain (log 2). -/
def Obligations.PadAppendsAndCompletes : Prop :=
  ∀ (bs : BitVec 8) (s : State), s.phase = .run → s.posn = s.len → bs ≠ 0 → outputFree s = false →
    let p := bs.toNat - s.len % bs.toNat
    servedRegion s.platform ⟨s.dst + s.len, p⟩ →
    ∃ t, exec (.pad bs) s = .next t ∧ StoredAt s t (s.dst + s.len) (List.replicate p (BitVec.ofNat 8 p)) ∧
      t = completion { s with mem := t.mem } .ok (s.len + p)

/-- The end of the other five commands: with nothing left to move, each completes with OK and its output length, and no byte
of memory changes (R174, R177, R204, R207, R236). -/
def Obligations.RunCompletesWhenNothingIsLeft : Prop :=
  ∀ (i : Instr) (s : State) (n : Nat), s.phase = .run → outputFree s = false →
    ((i = .encCfb ∧ s.ivMoved = true ∧ s.len ≤ s.posn ∧ n = 16 + s.len) ∨
      (i = .decCfb ∧ s.ivMoved = true ∧ s.len ≤ s.posn ∧ n = s.len - 16) ∨
      (i = .encCbc ∧ s.ivMoved = true ∧ 16 * (s.len / 16 + 1) ≤ s.posn ∧ n = 16 + 16 * (s.len / 16 + 1)) ∨
      (i = .decCbc ∧ s.ivMoved = true ∧ s.len ≤ s.posn ∧ n = 16 * ((s.len - 16) / 16) - s.padv.toNat) ∨
      ∃ bs, i = .unpad bs ∧ s.len - s.padv.toNat ≤ s.posn ∧ n = s.len - s.padv.toNat) →
    exec i s = .next (completion s .ok n)

/-! ### PRECHECK -/

/-- PRECHECK of DEC_CBC: with no payload block, or with a final block whose decryption does not end in a valid padding, the
command completes with PADDING; with a valid one PADV takes the padding length and PHASE goes to RUN. No byte of memory
changes (R206). -/
def Obligations.DecCbcPrecheckDecidesPadding : Prop :=
  ∀ s : State, s.phase = .precheck →
    let m := (s.len - 16) / 16
    (m = 0 → exec .decCbc s = .next (completion s .padding 0)) ∧
    (m ≠ 0 → servedRegion s.platform ⟨s.src + 16 * (m - 1), 32⟩ → plainRegion s.platform ⟨s.src + 16 * (m - 1), 32⟩ →
      s.raced = false →
      let prev := blockOfBytes (s.mem.readRange (s.src + 16 * (m - 1)) 16)
      let last := blockOfBytes (s.mem.readRange (s.src + 16 * m) 16)
      let pl := xorBlock (Config.D s.key last) prev
      (pkcs7Valid pl.1 16 (16 * m) = true →
        exec .decCbc s = .next { s with padv := pl.1.getLastD 0, phase := .run }) ∧
      (pkcs7Valid pl.1 16 (16 * m) = false → exec .decCbc s = .next (completion s .padding 0)))

/-- PRECHECK of UNPAD computes `pkcs7_valid(d, bs, L)` of the source: where it is true PADV takes the last byte and PHASE goes
to RUN, else the command completes with PADDING. No byte of memory changes (R232, R235). -/
def Obligations.UnpadPrecheckDecidesPadding : Prop :=
  ∀ (bs : BitVec 8) (s : State), s.phase = .precheck →
    servedRegion s.platform s.srcr → plainRegion s.platform s.srcr → s.raced = false →
    let d := s.mem.readRange s.src s.len
    (pkcs7Valid d bs.toNat s.len = true →
      exec (.unpad bs) s = .next { s with padv := d.getLastD 0, phase := .run }) ∧
    (pkcs7Valid d bs.toNat s.len = false → exec (.unpad bs) s = .next (completion s .padding 0))

/-! ### Whole commands -/

/-- ENC_CFB, from the drawn IV to its end: in ⌈L/16⌉ + 2 steps it completes with OK, `IV || cfb_enc(K, IV, P)` at DST_ADDR and
OUT_LEN = 16 + L, where P is the source as it stood, though the regions may overlap as R67 allows; every byte outside is as it
was (R69, R138, R173). -/
def Obligations.EncCfbWritesIvAndCiphertext : Prop :=
  ∀ s : State, s.Running .encCfb → s.GoodBuffers .encCfb → s.pos = 0 → s.ivMoved = false →
    ∃ t, Host.Core.run Sys2Proof.core ((s.len + 15) / 16 + 2) s = .next t ∧
      CompletedOk s t (s.ivb.1 ++ cfbEnc (Config.E s.key) s.ivb (s.mem.readRange s.src s.len))

/-- DEC_CFB, from CHECK to its end: when every check passes, it completes with OK, `cfb_dec(K, X[0:16], X[16:L])` at DST_ADDR
and OUT_LEN = L - 16, where X is the source as it stood, also in place; every byte outside is as it was (R69, R176). -/
def Obligations.DecCfbWritesPlaintext : Prop :=
  ∀ s : State, s.Free → s.phase = .check → s.HiddenZero → decode s.cmdLast = .cmd .decCfb →
    checkError .decCfb s = none → s.GoodBuffers .decCfb →
    ∃ k t, Host.Core.run Sys2Proof.core k s = .next t ∧ k ≤ (s.len + 15) / 16 + 2 ∧
      CompletedOk s t (cfbDec (Config.E s.key) (blockOfBytes (s.mem.readRange s.src 16))
        (s.mem.readRange (s.src + 16) (s.len - 16)))

/-- ENC_CBC, from the drawn IV to its end: in m + 2 steps, m = L div 16 + 1, it completes with OK, `IV || cbc_enc(K, IV,
pad(P, 16))` at DST_ADDR and OUT_LEN = 16 + 16 m, where P is the source as it stood; every byte outside is as it was (R69,
R203). -/
def Obligations.EncCbcWritesIvAndCiphertext : Prop :=
  ∀ s : State, s.Running .encCbc → s.GoodBuffers .encCbc → s.pos = 0 → s.ivMoved = false →
    ∃ t, Host.Core.run Sys2Proof.core (s.len / 16 + 3) s = .next t ∧
      CompletedOk s t (s.ivb.1 ++ cbcEnc (Config.E s.key) s.ivb (pad (s.mem.readRange s.src s.len) 16))

/-- DEC_CBC, from CHECK to its end: when every check passes and the padded plaintext has a valid padding, it completes with OK,
`unpad(cbc_dec(K, X[0:16], X[16:L]), 16)` at DST_ADDR and OUT_LEN its length, where X is the source as it stood, also in
place; with an invalid padding it completes with PADDING and memory as it was (R69, R205). -/
def Obligations.DecCbcWritesPlaintextOrFailsPadding : Prop :=
  ∀ s : State, s.Free → s.phase = .check → s.HiddenZero → decode s.cmdLast = .cmd .decCbc →
    checkError .decCbc s = none → s.GoodBuffers .decCbc →
    ∃ k t, Host.Core.run Sys2Proof.core k s = .next t ∧ k ≤ (s.len + 15) / 16 + 3 ∧
      match unpad (cbcDec (Config.D s.key) (blockOfBytes (s.mem.readRange s.src 16))
          (s.mem.readRange (s.src + 16) (s.len - 16))) 16 with
      | some out => CompletedOk s t out
      | none => t = completion s .padding 0

/-- PAD, from CHECK to its end: when every check passes, it completes with OK, `pad(d, bs)` at DST_ADDR and OUT_LEN = L + p,
where d is the source as it stood, also in place; every byte outside is as it was (R69, R233). -/
def Obligations.PadWritesPaddedData : Prop :=
  ∀ (bs : BitVec 8) (s : State), s.Free → s.phase = .check → s.HiddenZero → decode s.cmdLast = .cmd (.pad bs) →
    checkError (.pad bs) s = none → s.GoodBuffers (.pad bs) →
    ∃ k t, Host.Core.run Sys2Proof.core k s = .next t ∧ k ≤ s.len + 256 ∧
      CompletedOk s t (pad (s.mem.readRange s.src s.len) bs.toNat)

/-- UNPAD, from CHECK to its end: when every check passes and the data has a valid padding, it completes with OK,
`unpad(d, bs)` at DST_ADDR and OUT_LEN its length, where d is the source as it stood, also in place; with an invalid padding it
completes with PADDING and memory as it was (R69, R234). -/
def Obligations.UnpadWritesDataOrFailsPadding : Prop :=
  ∀ (bs : BitVec 8) (s : State), s.Free → s.phase = .check → s.HiddenZero → decode s.cmdLast = .cmd (.unpad bs) →
    checkError (.unpad bs) s = none → s.GoodBuffers (.unpad bs) →
    ∃ k t, Host.Core.run Sys2Proof.core k s = .next t ∧ k ≤ s.len + 256 ∧
      match unpad (s.mem.readRange s.src s.len) bs.toNat with
      | some out => CompletedOk s t out
      | none => t = completion s .padding 0

/-- Progress: from CHECK, PRECHECK and RUN the engine, left to itself on a bus that answers every access, if only with an
error, reaches completion, or the wait for the random source, within the step bound of the rule (R138). -/
def Obligations.EngineFinishesWithinBound : Prop :=
  ∀ (s : State) (i : Instr), s.Inv → s.Free → s.phase ≠ .idle → decode s.cmdLast = .cmd i →
    answeredRegion s.platform s.srcr → answeredRegion s.platform (s.dstr i) →
    ∃ k t, Host.Core.run Sys2Proof.core k s = .next t ∧ (t.phase = .idle ∨ t.phase = .rngWait) ∧
      match i with
      | .encCfb => k ≤ (s.len + 15) / 16 + 2
      | .decCfb => k ≤ (s.len + 15) / 16 + 2
      | .encCbc => k ≤ (s.len + 15) / 16 + 3
      | .decCbc => k ≤ (s.len + 15) / 16 + 3
      | .pad _ => k ≤ s.len + 256
      | .unpad _ => k ≤ s.len + 256

/-! ### The functions -/

/-- CFB round trip and lengths: decrypting an encryption gives the plaintext back, for every key, IV and plaintext, the empty
one too, and neither direction changes the length (R171, R178 (a), (b)). -/
def Obligations.CfbRoundTrip : Prop :=
  ∀ (k : List Byte) (iv : Block) (p : List Byte),
    cfbDec (Config.E k) iv (cfbEnc (Config.E k) iv p) = p ∧ (cfbEnc (Config.E k) iv p).length = p.length ∧
      (cfbDec (Config.E k) iv p).length = p.length

/-- Error spread of CFB: with one byte of a full payload block flipped by d, the plaintext byte in the same place is flipped by
d, and every byte outside that block and the next one is as it was (R178 (c)). -/
def Obligations.CfbErrorSpread : Prop :=
  ∀ (k : List Byte) (iv : Block) (c : List Byte) (i j : Nat) (d : Byte), j < 16 → 16 * i + 16 ≤ c.length →
    let c' := c.set (16 * i + j) (c.getD (16 * i + j) 0 ^^^ d)
    let p := cfbDec (Config.E k) iv c
    let p' := cfbDec (Config.E k) iv c'
    p'.getD (16 * i + j) 0 = p.getD (16 * i + j) 0 ^^^ d ∧
      ∀ n, n ≠ 16 * i + j → ¬(16 * i + 16 ≤ n ∧ n < 16 * i + 32) → p'.getD n 0 = p.getD n 0

/-- CBC round trip: decrypting the encryption of a padded plaintext gives the padded plaintext back, and unpadding it the
plaintext, for every key, IV and length; the ciphertext payload has 16 (L div 16 + 1) bytes (R202, R209 (a), (b)). -/
def Obligations.CbcRoundTrip : Prop :=
  ∀ (k : List Byte) (iv : Block) (p : List Byte),
    cbcDec (Config.D k) iv (cbcEnc (Config.E k) iv (pad p 16)) = pad p 16 ∧
      unpad (cbcDec (Config.D k) iv (cbcEnc (Config.E k) iv (pad p 16))) 16 = some p ∧
      (cbcEnc (Config.E k) iv (pad p 16)).length = 16 * (p.length / 16 + 1)

/-- Tamper locality of CBC: changing byte j of the IV by d changes plaintext byte j of the first block by d and nothing else;
changing byte j of ciphertext block i by d changes plaintext byte j of block i + 1 by d and nothing else outside block i (R209
(c)). -/
def Obligations.CbcTamperLocality : Prop :=
  ∀ (k : List Byte) (iv : Block) (c : List Byte) (j : Nat) (d : Byte), j < 16 → c.length % 16 = 0 →
    (let iv' := blockOfBytes (iv.1.set j (iv.1.getD j 0 ^^^ d))
      let p := cbcDec (Config.D k) iv c
      let p' := cbcDec (Config.D k) iv' c
      (16 ≤ c.length → p'.getD j 0 = p.getD j 0 ^^^ d) ∧ ∀ n, n ≠ j → p'.getD n 0 = p.getD n 0) ∧
    ∀ i, 16 * i + 32 ≤ c.length →
      let c' := c.set (16 * i + j) (c.getD (16 * i + j) 0 ^^^ d)
      let p := cbcDec (Config.D k) iv c
      let p' := cbcDec (Config.D k) iv c'
      p'.getD (16 * i + 16 + j) 0 = p.getD (16 * i + 16 + j) 0 ^^^ d ∧
        ∀ n, n ≠ 16 * i + 16 + j → ¬(16 * i ≤ n ∧ n < 16 * i + 16) → p'.getD n 0 = p.getD n 0

/-- The padding laws: unpad inverts pad, the padded length is a multiple of the block size, from 1 to bs bytes are added, pad
is injective, and what pad adds passes the strict validator (R230, R237 (a) to (e)). -/
def Obligations.UnpadInvertsPad : Prop :=
  ∀ (d : List Byte) (bs : Nat), 1 ≤ bs → bs ≤ 255 →
    unpad (pad d bs) bs = some d ∧ (pad d bs).length % bs = 0 ∧ d.length + 1 ≤ (pad d bs).length ∧
      (pad d bs).length ≤ d.length + bs ∧ (∀ d', pad d' bs = pad d bs → d' = d) ∧
      pkcs7Valid (pad d bs) bs (pad d bs).length = true

/-- The strict validator holds of exactly the sequences that end in p bytes of value p, 1 ≤ p ≤ bs, p no more than the whole
length (R231, R232). -/
def Obligations.ValidatorIsStrict : Prop :=
  ∀ (d : List Byte) (bs : Nat), bs ≤ 255 →
    (pkcs7Valid d bs d.length = true ↔
      ∃ (p : Nat) (e : List Byte), 1 ≤ p ∧ p ≤ bs ∧ d = e ++ List.replicate p (BitVec.ofNat 8 p)) ∧
    ∀ e, unpad d bs = some e ↔ ∃ p : Nat, 1 ≤ p ∧ p ≤ bs ∧ d = e ++ List.replicate p (BitVec.ofNat 8 p)

/-- The padding check of DEC_CBC on the final block alone is the check on the whole padded plaintext (R206). -/
def Obligations.FinalBlockDecidesPadding : Prop :=
  ∀ (k : List Byte) (iv : Block) (c : List Byte) (m : Nat), c.length = 16 * (m + 1) →
    let prev := if m = 0 then iv else blockOfBytes ((c.drop (16 * (m - 1))).take 16)
    let pl := xorBlock (Config.D k (blockOfBytes (c.drop (16 * m)))) prev
    pkcs7Valid pl.1 16 (16 * (m + 1)) = pkcs7Valid (cbcDec (Config.D k) iv c) 16 (16 * (m + 1)) ∧
      pl.1.getLastD 0 = (cbcDec (Config.D k) iv c).getLastD 0

/-! ### Errors and memory -/

/-- Errors are precise: a step that ends a command with a code other than OK and BUS is no step of RUN and changes no byte of
memory, and no step before RUN does unless it ends the command with BUS (R68, R263). So the engine has changed no byte when a
command ends with such a code. -/
def Obligations.FailedCommandLeavesMemory : Prop :=
  ∀ s t : State, s.Inv → s.events = [] → step s = .next t → s.busy = true →
    (t.busy = false → t.errcode ≠ .ok → t.errcode ≠ .bus → s.phase ≠ .run ∧ t.mem = s.mem) ∧
    (s.phase ≠ .run → (t.busy = true ∨ t.errcode ≠ .bus) → t.mem = s.mem)

/-- The engine writes only its destination region: no step of the engine changes a byte outside DSTR of the active command,
whatever the bus answers (R68, R70). -/
def Obligations.EngineWritesOnlyDestination : Prop :=
  ∀ (s t : State) (i : Instr), s.Inv → s.events = [] → step s = .next t → decode s.cmdLast = .cmd i →
    ∀ c, ¬(s.dst ≤ c ∧ c < s.dst + outmaxOf i s.len) → t.mem.read c = s.mem.read c

/-- A BUS completion is imprecise: OUT_LEN is 0, every byte of DSTR is a free byte of its own, and every byte outside DSTR is as
it was (R70). -/
def Obligations.BusErrorScramblesDestination : Prop :=
  ∀ (s t : State) (i : Instr), s.Inv → s.events = [] → step s = .next t → s.busy = true → decode s.cmdLast = .cmd i →
    t.busy = false → t.errcode = .bus →
    t.outLen = 0 ∧ t.done = true ∧ t.keys = zeroKeys ∧ (s.phase = .precheck ∨ s.phase = .run) ∧
      (∃ ctr, ∀ j, j < outmaxOf i s.len → t.mem.read (s.dst + j) = Config.freeByte (ctr + j)) ∧
      ∀ c, ¬(s.dst ≤ c ∧ c < s.dst + outmaxOf i s.len) → t.mem.read c = s.mem.read c

/-- A byte outside `dma_admit` ends the command with BUS at that access (R70), wherever it is: the IV, a source read or a
payload write of RUN, a copied byte, a padding byte, or a read of PRECHECK, where BUS comes before PADDING (R262). The bytes
that a step accesses are `stepAddresses`, in order, and those before the first unserved one are served; where all are served
the step raises no BUS. -/
def Obligations.UnservedByteRaisesBus : Prop :=
  ∀ (i : Instr) (s : State),
    (∀ k, k < (stepAddresses i s).length → (∀ j, j < k → busAnswer s.platform ((stepAddresses i s).getD j 0) = .ok) →
      busAnswer s.platform ((stepAddresses i s).getD k 0) = .error →
      ∃ t, exec i s = .next t ∧ t.phase = .idle ∧ t.errcode = .bus ∧ t.outLen = 0 ∧ t.done = true ∧ t.keys = zeroKeys ∧
        t.keyLen = 0) ∧
    (s.errcode ≠ .bus → (∀ c ∈ stepAddresses i s, busAnswer s.platform c = .ok) →
      ∃ t, exec i s = .next t ∧ t.errcode ≠ .bus ∧ t.busHung = s.busHung)

/-- A bus that never answers leaves the engine in its phase for ever, until reset (R70, U3, R290): an access of any step to a byte
whose access the bus never answers, where the bytes before it are served, leaves the command active in its phase, DONE,
ERRCODE, OUT_LEN and the key as they were, and the engine waiting; from then on no number of steps changes anything, and reset
ends it. The latch `busHung` that holds the engine is the model's own (log 9). -/
def Obligations.HungBusHoldsEngine : Prop :=
  (∀ (i : Instr) (s : State) (k : Nat), k < (stepAddresses i s).length →
    (∀ j, j < k → busAnswer s.platform ((stepAddresses i s).getD j 0) = .ok) →
    busAnswer s.platform ((stepAddresses i s).getD k 0) = .never →
    ∃ t, exec i s = .next t ∧ t.phase = s.phase ∧ t.busHung = true ∧ t.cmdLast = s.cmdLast ∧ t.done = s.done ∧
      t.errcode = s.errcode ∧ t.outLen = s.outLen ∧ t.keys = s.keys ∧ t.keyLen = s.keyLen ∧ t.events = s.events) ∧
  ∀ s : State, s.busHung = true → s.events = [] →
    (∀ k, Host.Core.run Sys2Proof.core k s = .next s) ∧
    ∀ es, ∃ t, step { s with events := .resetAssert :: es } = .next t ∧ t.busHung = false ∧ t.phase = .idle

/-- The output of a command is unspecified over memory that is not plain and after a racing host write: where a region of the
active command covers a byte that is not plain memory (R72), or a host write raced with it (R77), completion with OK leaves a
free byte in every byte of DSTR, and the bytes outside as they were. The free bytes at completion are the model's deduction
from R72 (log 10) and its reading of R77 (log 12). -/
def Obligations.NonPlainMemoryScramblesOutput : Prop :=
  ∀ (s : State) (n : Nat), s.dst + s.outmax.toNat ≤ 2 ^ 32 →
    (s.raced = true ∨ ∃ c, (nonPlainRegions s.platform).any (fun r => r.has c) = true ∧
      ((s.src ≤ c ∧ c < s.src + s.len) ∨ (s.dst ≤ c ∧ c < s.dst + s.outmax.toNat))) →
    (∃ ctr, ∀ j, j < s.outmax.toNat → (complete s n).mem.read (s.dst + j) = Config.freeByte (ctr + j)) ∧
      ∀ c, ¬(s.dst ≤ c ∧ c < s.dst + s.outmax.toNat) → (complete s n).mem.read c = s.mem.read c

/-! ### The key -/

/-- LOADKEY loads the key: after its nine writes the key a command would use is the one given, of any valid length, whatever
the registers held (R54, R55, R98). -/
def Obligations.LoadKeySetsTheKey : Prop :=
  ∀ (s : State) (k : List Byte), s.inReset = false → s.phase = .idle →
    (k.length = 16 ∨ k.length = 24 ∨ k.length = 32) →
    ∃ t, Host.Core.run Sys2Proof.core 9 { s with events := opLoadKey k } = .next t ∧ t.key = k ∧ t.keyValid = true ∧
      t = { s with keys := t.keys, keyLen := t.keyLen, resp := .written, events := [] }

/-- No host access reveals a key byte: what a host operation answers, and everything it changes but the key registers, is the
same whatever the key registers hold (R54, R280). -/
def Obligations.HostAccessRevealsNoKey : Prop :=
  ∀ (op : HostOp) (s t : State) (k : KeyRegs), hostStep op s = .next t →
    ∃ k', hostStep op { s with keys := k } = .next { t with keys := k' }

/-- Key bytes past KEY_LEN are ignored: two states that differ only in key bytes at positions KEY_LEN and above take the same
engine step (R55). -/
def Obligations.UnusedKeyBytesAreIgnored : Prop :=
  ∀ (i : Instr) (s t : State) (k : KeyRegs), k.bytes.take s.keyLen.toNat = s.keys.bytes.take s.keyLen.toNat →
    exec i s = .next t →
    ∃ k', exec i { s with keys := k } = .next { t with keys := k' } ∧
      ((t.keys = s.keys ∧ k' = k) ∨ (t.keys = zeroKeys ∧ k' = zeroKeys))

/-! ### Reset -/

/-- R57 at the machine's reset state: every register reads 0, the hidden registers are zero, PHASE is IDLE, the request and irq
are low. -/
def Obligations.ResetStateReadsZero : Prop :=
  (∀ off, off % 4 = 0 → off ≤ 0x3C → ∃ t, hostStep (.regRead .word off) State.reset = .next t ∧ t.resp = .word 0) ∧
    State.reset.keys = zeroKeys ∧ State.reset.phase = .idle ∧ State.reset.HiddenZero ∧ State.reset.rngReq = false ∧
    State.reset.irq = false

/-- Asserting reset, at any time: the block is in its reset state and stays there when reset is released, DONE stays 0, no
error code is written, and memory changes only in DSTR of a command that was active, where every byte of the buffer space is a
free byte (R57, R290, R291). What DSTR is between acceptance and CHECK is the model's choice (log 14).
The mark of a race stays. While reset is asserted every register access is refused, also the reads of a WAITDONE (R290). -/
def Obligations.ResetRestoresTheBlock : Prop :=
  (∀ s : State, s.inReset = true →
    (∀ size off, hostStep (.regRead size off) s = .refused .regAccessInReset) ∧
    (∀ size off w, hostStep (.regWrite size off w) s = .refused .regAccessInReset) ∧
    hostStep .waitDone s = .refused .regAccessInReset) ∧
  ∀ (s : State) (es : List Event), s.events = .resetAssert :: es →
    ∃ t, step s = .next t ∧ t.BlockReset ∧ t.inReset = true ∧ t.events = es ∧ t.platform = s.platform ∧
      t.bufferRace = s.bufferRace ∧
      (resetRelease t).BlockReset ∧
      (s.busy = false → t.mem = s.mem) ∧
      ∀ i, decode s.cmdLast = .cmd i → s.busy = true →
        (∀ c, ¬(s.dst ≤ c ∧ c < s.dst + outmaxOf i s.len) → t.mem.read c = s.mem.read c) ∧
        ∃ ctr, ∀ j, j < outmaxOf i s.len → s.dst + j < 2 ^ 32 → t.mem.read (s.dst + j) = Config.freeByte (ctr + j)
end

