-- ==== Sys2Proof/Laws/Memory.lean ====
section
/-!
SUPPORT. The laws of the buffer memory: a read after a write, reads and writes of ranges, what a write leaves alone, and the
canonical form, which every operation keeps.
-/

namespace Sys2Proof.Machine

/-! ### One byte -/

theorem Memory.read_erase (m : Memory) (a c : Nat) :
    (m.erase a).read c = if c = a then unlistedByte else m.read c := by
  induction m with
  | nil => simp [Memory.erase, Memory.read]
  | cons d m ih =>
    simp only [Memory.erase]
    split
    · rename_i h
      rw [ih]
      split
      · rfl
      · rename_i hc
        simp [Memory.read, h, Ne.symm hc]
    · rename_i h
      simp only [Memory.read, ih]
      split
      · rename_i hd
        have : c ≠ a := by omega
        simp [this]
      · rfl

theorem Memory.read_insert (m : Memory) (a : Nat) (b : Byte) (c : Nat) :
    (m.insert a b).read c = if c = a then b else m.read c := by
  induction m with
  | nil => simp [Memory.insert, Memory.read, eq_comm]
  | cons d m ih =>
    simp only [Memory.insert]
    split
    · simp only [Memory.read]
      by_cases h : c = a
      · simp [h]
      · have : ¬ a = c := fun e => h e.symm
        simp [h, this]
    · split
      · rename_i h
        simp only [Memory.read]
        by_cases hc : c = a
        · simp [hc]
        · have : ¬ a = c := fun e => hc e.symm
          simp [hc, this, h]
      · simp only [Memory.read, ih]
        split
        · rename_i hne hd
          have : c ≠ a := by omega
          simp [this]
        · rfl

/-- A read after a write: the byte written at its address, every other byte as before (R61, R64). -/
theorem Memory.read_write (m : Memory) (a : Nat) (b : Byte) (c : Nat) :
    (m.write a b).read c = if c = a ∧ a < Config.addrSpace then b else m.read c := by
  unfold Memory.write
  split
  · rename_i h
    split
    · rename_i hb
      simp [Memory.read_erase, h, hb]
    · simp [Memory.read_insert, h]
  · rename_i h
    simp [h]

theorem Memory.read_write_same (m : Memory) (a : Nat) (b : Byte) (h : a < Config.addrSpace) :
    (m.write a b).read a = b := by simp [Memory.read_write, h]

theorem Memory.read_write_ne (m : Memory) (a : Nat) (b : Byte) (c : Nat) (h : c ≠ a) :
    (m.write a b).read c = m.read c := by simp [Memory.read_write, h]

/-! ### Ranges -/

@[simp] theorem Memory.length_readRange (m : Memory) (a n : Nat) : (m.readRange a n).length = n := by
  induction n generalizing a with
  | zero => rfl
  | succ n ih => simp [Memory.readRange, ih]

theorem Memory.getElem?_readRange (m : Memory) (a n i : Nat) :
    (m.readRange a n)[i]? = if i < n then some (m.read (a + i)) else none := by
  induction n generalizing a i with
  | zero => simp [Memory.readRange]
  | succ n ih =>
    cases i with
    | zero => simp [Memory.readRange]
    | succ i =>
      simp only [Memory.readRange, List.getElem?_cons_succ, ih]
      have : a + 1 + i = a + (i + 1) := by omega
      simp [this]

theorem Memory.getElem_readRange (m : Memory) (a n i : Nat) (h : i < (m.readRange a n).length) :
    (m.readRange a n)[i] = m.read (a + i) := by
  have h' : i < n := by simpa using h
  have := Memory.getElem?_readRange m a n i
  rw [List.getElem?_eq_getElem h] at this
  simpa [h'] using this

/-- Two memories that agree on a range read the same there. -/
theorem Memory.readRange_congr (m m' : Memory) (a n : Nat) (h : ∀ c, a ≤ c → c < a + n → m.read c = m'.read c) :
    m.readRange a n = m'.readRange a n := by
  induction n generalizing a with
  | zero => rfl
  | succ n ih =>
    simp only [Memory.readRange]
    rw [h a (by omega) (by omega), ih (a + 1) fun c h1 h2 => h c (by omega) (by omega)]

theorem Memory.readRange_append (m : Memory) (a n k : Nat) :
    m.readRange a (n + k) = m.readRange a n ++ m.readRange (a + n) k := by
  induction n generalizing a with
  | zero => simp [Memory.readRange]
  | succ n ih =>
    have h : n + 1 + k = n + k + 1 := by omega
    have h2 : a + 1 + n = a + (n + 1) := by omega
    simp [h, Memory.readRange, ih, h2]

theorem Memory.take_readRange (m : Memory) (a n k : Nat) (h : k ≤ n) :
    (m.readRange a n).take k = m.readRange a k := by
  obtain ⟨j, rfl⟩ := Nat.exists_eq_add_of_le h
  rw [Memory.readRange_append]
  simp

theorem Memory.drop_readRange (m : Memory) (a n k : Nat) :
    (m.readRange a n).drop k = m.readRange (a + k) (n - k) := by
  rcases Nat.le_total k n with h | h
  · obtain ⟨j, rfl⟩ := Nat.exists_eq_add_of_le h
    rw [Memory.readRange_append]
    simp
  · have : n - k = 0 := by omega
    rw [this, List.drop_eq_nil_of_le (by simpa using h)]
    rfl

/-- Reading after writing a range: the byte of the sequence inside it, as before outside (R12, R61). -/
theorem Memory.read_writeRange (m : Memory) (a : Nat) (bs : List Byte) (c : Nat)
    (h : a + bs.length ≤ Config.addrSpace) :
    (m.writeRange a bs).read c = if a ≤ c ∧ c < a + bs.length then bs.getD (c - a) 0 else m.read c := by
  induction bs generalizing m a with
  | nil =>
    have : ¬ (a ≤ c ∧ c < a) := by omega
    simp [Memory.writeRange, this]
  | cons b bs ih =>
    simp only [Memory.writeRange, List.length_cons] at h ⊢
    rw [ih _ _ (by omega), Memory.read_write]
    by_cases h1 : a + 1 ≤ c ∧ c < a + 1 + bs.length
    · have h2 : a ≤ c ∧ c < a + (bs.length + 1) := by omega
      have h3 : c - a = (c - (a + 1)) + 1 := by omega
      simp [h1, h2, h3]
    · by_cases h4 : c = a
      · subst h4
        have : c < Config.addrSpace := by omega
        simp [this]
      · have h2 : ¬ (a ≤ c ∧ c < a + (bs.length + 1)) := by omega
        rw [if_neg h1, if_neg h2, if_neg (by omega)]

/-- Writing a range leaves every byte outside it alone, wherever the range lies. -/
theorem Memory.read_writeRange_outside (m : Memory) (a : Nat) (bs : List Byte) (c : Nat)
    (h : c < a ∨ a + bs.length ≤ c) : (m.writeRange a bs).read c = m.read c := by
  induction bs generalizing m a with
  | nil => rfl
  | cons b bs ih =>
    simp only [Memory.writeRange, List.length_cons] at h ⊢
    rw [ih _ _ (by omega), Memory.read_write_ne _ _ _ _ (by omega)]

/-- What was written is what is read back. -/
theorem Memory.readRange_writeRange (m : Memory) (a : Nat) (bs : List Byte) (h : a + bs.length ≤ Config.addrSpace) :
    (m.writeRange a bs).readRange a bs.length = bs := by
  apply List.ext_getElem (by simp)
  intro i h1 h2
  rw [Memory.getElem_readRange, Memory.read_writeRange _ _ _ _ h]
  have : a ≤ a + i ∧ a + i < a + bs.length := by omega
  simp [this, h2]

/-- Reading a range that a write does not touch. -/
theorem Memory.readRange_writeRange_disjoint (m : Memory) (a : Nat) (bs : List Byte) (c n : Nat)
    (h : c + n ≤ a ∨ a + bs.length ≤ c) : (m.writeRange a bs).readRange c n = m.readRange c n :=
  Memory.readRange_congr _ _ _ _ fun d h1 h2 => Memory.read_writeRange_outside _ _ _ _ (by omega)

theorem Memory.writeRange_append (m : Memory) (a : Nat) (xs ys : List Byte) :
    m.writeRange a (xs ++ ys) = (m.writeRange a xs).writeRange (a + xs.length) ys := by
  induction xs generalizing m a with
  | nil => simp [Memory.writeRange]
  | cons x xs ih =>
    simp only [List.cons_append, Memory.writeRange, ih, List.length_cons]
    congr 1
    omega

/-- Unspecified bytes stay inside their range (R70, R291). -/
theorem Memory.read_scramble_outside (m : Memory) (ctr a n c : Nat) (h : c < a ∨ a + n ≤ c) :
    (m.scramble ctr a n).read c = m.read c := by
  induction n generalizing m ctr a with
  | zero => rfl
  | succ n ih =>
    simp only [Memory.scramble]
    rw [ih _ _ _ (by omega), Memory.read_write_ne _ _ _ _ (by omega)]

/-- Each byte of an unspecified range is a free byte of its own (R70, R291). -/
theorem Memory.read_scramble_inside (m : Memory) (ctr a n i : Nat) (h : a + n ≤ Config.addrSpace) (hi : i < n) :
    (m.scramble ctr a n).read (a + i) = Config.freeByte (ctr + i) := by
  induction n generalizing m ctr a i with
  | zero => omega
  | succ n ih =>
    simp only [Memory.scramble]
    cases i with
    | zero =>
      rw [Memory.read_scramble_outside _ _ _ _ _ (by omega)]
      exact Memory.read_write_same _ _ _ (by omega)
    | succ i =>
      have h1 : a + (i + 1) = a + 1 + i := by omega
      have h2 : ctr + (i + 1) = ctr + 1 + i := by omega
      rw [h1, h2]
      exact ih _ _ _ _ (by omega) (by omega)

/-! ### The canonical form -/

/-- The canonical form, entry by entry. -/
theorem Memory.wf_cons (c : Host.Cell) (m : Memory) :
    Memory.wf (c :: m) = true ↔
      c.1 < Config.addrSpace ∧ c.2 ≠ unlistedByte ∧ (∀ d ∈ m, c.1 < d.1) ∧ Memory.wf m = true := by
  induction m generalizing c with
  | nil => simp [Memory.wf]
  | cons d m ih =>
    simp only [Memory.wf, Bool.and_eq_true, decide_eq_true_eq]
    constructor
    · rintro ⟨⟨⟨h1, h2⟩, h3⟩, h4⟩
      refine ⟨h1, h2, ?_, h4⟩
      intro e he
      rcases List.mem_cons.1 he with rfl | he
      · exact h3
      · exact Nat.lt_trans h3 (((ih d).1 h4).2.2.1 e he)
    · rintro ⟨h1, h2, h3, h4⟩
      exact ⟨⟨⟨h1, h2⟩, h3 d (by simp)⟩, h4⟩

theorem Memory.mem_erase (m : Memory) (a : Nat) (d : Host.Cell) (h : d ∈ m.erase a) : d ∈ m := by
  induction m with
  | nil => simp [Memory.erase] at h
  | cons c m ih =>
    simp only [Memory.erase] at h
    split at h
    · exact List.mem_cons_of_mem _ (ih h)
    · rcases List.mem_cons.1 h with rfl | h
      · simp
      · exact List.mem_cons_of_mem _ (ih h)

theorem Memory.mem_insert (m : Memory) (a : Nat) (b : Byte) (d : Host.Cell) (h : d ∈ m.insert a b) :
    d = (a, b) ∨ d ∈ m := by
  induction m with
  | nil => simpa [Memory.insert] using h
  | cons c m ih =>
    simp only [Memory.insert] at h
    split at h
    · simpa using h
    · split at h
      · rcases List.mem_cons.1 h with rfl | h
        · simp
        · exact .inr (List.mem_cons_of_mem _ h)
      · rcases List.mem_cons.1 h with rfl | h
        · simp
        · rcases ih h with h | h
          · exact .inl h
          · exact .inr (List.mem_cons_of_mem _ h)

theorem Memory.wf_erase (m : Memory) (a : Nat) (h : m.wf = true) : (m.erase a).wf = true := by
  induction m with
  | nil => exact h
  | cons c m ih =>
    obtain ⟨h1, h2, h3, h4⟩ := (Memory.wf_cons c m).1 h
    simp only [Memory.erase]
    split
    · exact ih h4
    · exact (Memory.wf_cons _ _).2 ⟨h1, h2, fun d hd => h3 d (Memory.mem_erase _ _ _ hd), ih h4⟩

theorem Memory.wf_insert (m : Memory) (a : Nat) (b : Byte) (ha : a < Config.addrSpace) (hb : b ≠ unlistedByte)
    (h : m.wf = true) : (m.insert a b).wf = true := by
  induction m with
  | nil => simp [Memory.insert, Memory.wf, ha, hb]
  | cons c m ih =>
    obtain ⟨h1, h2, h3, h4⟩ := (Memory.wf_cons c m).1 h
    simp only [Memory.insert]
    split
    · rename_i hac
      refine (Memory.wf_cons _ _).2 ⟨ha, hb, ?_, h⟩
      intro d hd
      rcases List.mem_cons.1 hd with rfl | hd
      · exact hac
      · exact Nat.lt_trans hac (h3 d hd)
    · split
      · rename_i hca
        exact (Memory.wf_cons _ _).2 ⟨ha, hb, fun d hd => hca ▸ h3 d hd, h4⟩
      · rename_i hac hca
        refine (Memory.wf_cons _ _).2 ⟨h1, h2, ?_, ih h4⟩
        intro d hd
        rcases Memory.mem_insert _ _ _ _ hd with rfl | hd
        · show c.1 < a
          omega
        · exact h3 d hd

/-- A write keeps the canonical form. -/
theorem Memory.wf_write (m : Memory) (a : Nat) (b : Byte) (h : m.wf = true) : (m.write a b).wf = true := by
  unfold Memory.write
  split
  · split
    · exact Memory.wf_erase _ _ h
    · exact Memory.wf_insert _ _ _ (by assumption) (by assumption) h
  · exact h

/-- A write of a range keeps the canonical form. -/
theorem Memory.wf_writeRange (m : Memory) (a : Nat) (bs : List Byte) (h : m.wf = true) :
    (m.writeRange a bs).wf = true := by
  induction bs generalizing m a with
  | nil => exact h
  | cons b bs ih => exact ih _ _ (Memory.wf_write _ _ _ h)

/-- Unspecified bytes keep the canonical form. -/
theorem Memory.wf_scramble (m : Memory) (ctr a n : Nat) (h : m.wf = true) : (m.scramble ctr a n).wf = true := by
  induction n generalizing m ctr a with
  | zero => exact h
  | succ n ih => exact ih _ _ _ (Memory.wf_write _ _ _ h)

end Sys2Proof.Machine
end

