-- ==== Sys2Proof/Laws/Dma.lean ====
section
/-!
SUPPORT. What a DMA access can do, said once: the general laws (every outcome, whatever the bus answers and whatever the memory
is), and the laws of an access that the bus serves on plain memory.
-/

namespace Sys2Proof.Machine

/-! ### Reasoning about accesses -/

/-- What holds of the outcome of an access: `P` of its value and state, `Q` of the state where it failed. -/
def Access.Holds {α : Type} (x : Access α) (P : α → State → Prop) (Q : State → Prop) : Prop :=
  match x with
  | .ok v s => P v s
  | .busError s => Q s
  | .noAnswer s => Q s

theorem Access.Holds.imp {α : Type} {x : Access α} {P P' : α → State → Prop} {Q Q' : State → Prop}
    (h : x.Holds P Q) (hP : ∀ v s, P v s → P' v s) (hQ : ∀ s, Q s → Q' s) : x.Holds P' Q' := by
  cases x with
  | ok v s => exact hP v s h
  | busError s => exact hQ s h
  | noAnswer s => exact hQ s h

theorem Access.holds_bind {α β : Type} {x : Access α} {f : α → State → Access β} {P : β → State → Prop}
    {Q : State → Prop} (h : x.Holds (fun v s => (f v s).Holds P Q) Q) : (x.bind f).Holds P Q := by
  cases x with
  | ok v s => exact h
  | busError s => exact h
  | noAnswer s => exact h

@[simp] theorem Access.bind_ok {α β : Type} (v : α) (s : State) (f : α → State → Access β) :
    (Access.ok v s).bind f = f v s := rfl

@[simp] theorem Access.bind_busError {α β : Type} (s : State) (f : α → State → Access β) :
    (Access.busError s).bind f = .busError s := rfl

@[simp] theorem Access.bind_noAnswer {α β : Type} (s : State) (f : α → State → Access β) :
    (Access.noAnswer s).bind f = .noAnswer s := rfl

/-- What holds of the end of an engine step: of its state, of a BUS completion, of a held engine. -/
theorem settle_of_holds {x : Access Unit} {P Q R : State → Prop} (h : x.Holds (fun _ t => P t) Q)
    (hok : ∀ t, P t → R t) (hbus : ∀ t, Q t → R (raiseBus t)) (hhung : ∀ t, Q t → R { t with busHung := true }) :
    R (settle x) := by
  cases x with
  | ok v s => exact hok _ h
  | busError s => exact hbus _ h
  | noAnswer s => exact hhung _ h

@[simp] theorem settle_ok (v : Unit) (s : State) : settle (.ok v s) = s := rfl

@[simp] theorem settle_busError (s : State) : settle (.busError s) = raiseBus s := rfl

@[simp] theorem settle_noAnswer (s : State) : settle (.noAnswer s) = { s with busHung := true } := rfl

/-! ### Every outcome -/

/-- A state that differs from another at most in the free bytes drawn. -/
def OnlyDrew (s t : State) : Prop := ∃ d, t = { s with draws := d }

/-- A state that differs from another at most in the bytes of a range of memory. -/
def OnlyWrote (a n : Nat) (s t : State) : Prop :=
  ∃ m : Memory, t = { s with mem := m } ∧ (s.mem.wf = true → m.wf = true) ∧
    ∀ c, c < a ∨ a + n ≤ c → m.read c = s.mem.read c

theorem OnlyDrew.refl (s : State) : OnlyDrew s s := ⟨s.draws, rfl⟩

theorem OnlyDrew.trans {s t u : State} (h : OnlyDrew s t) (h' : OnlyDrew t u) : OnlyDrew s u := by
  obtain ⟨d, rfl⟩ := h
  obtain ⟨e, rfl⟩ := h'
  exact ⟨e, rfl⟩

theorem dmaReadByte_holds (s : State) (a : Nat) :
    (dmaReadByte s a).Holds (fun _ t => OnlyDrew s t) (OnlyDrew s) := by
  unfold dmaReadByte
  split
  · show OnlyDrew s _
    split
    · exact ⟨s.draws + 1, rfl⟩
    · exact OnlyDrew.refl s
  · exact OnlyDrew.refl s
  · exact OnlyDrew.refl s

/-- Everything a DMA read can do: it answers as many bytes as were asked for, and changes nothing but the free bytes drawn
(R12, R62). -/
theorem dmaRead_holds (s : State) (a n : Nat) :
    (dmaRead s a n).Holds (fun bs t => bs.length = n ∧ OnlyDrew s t) (OnlyDrew s) := by
  induction n generalizing s a with
  | zero => exact ⟨rfl, OnlyDrew.refl s⟩
  | succ n ih =>
    refine Access.holds_bind ((dmaReadByte_holds s a).imp (fun b t ht => ?_) fun t ht => ht)
    refine Access.holds_bind ((ih t (a + 1)).imp (fun bs u hu => ?_) fun u hu => ht.trans hu)
    exact ⟨by simp [hu.1], ht.trans hu.2⟩

/-- Everything a DMA write can do: it changes nothing but bytes of its range (R12, R62, R68). -/
theorem dmaWrite_holds (s : State) (a : Nat) (bs : List Byte) :
    (dmaWrite s a bs).Holds (fun _ t => OnlyWrote a bs.length s t) (OnlyWrote a bs.length s) := by
  induction bs generalizing s a with
  | nil => exact ⟨s.mem, rfl, id, fun _ _ => rfl⟩
  | cons b bs ih =>
    refine Access.holds_bind ?_
    unfold dmaWriteByte
    split
    · have lift : ∀ u, OnlyWrote (a + 1) bs.length { s with mem := s.mem.write a b } u →
          OnlyWrote a (b :: bs).length s u := by
        rintro u ⟨m, rfl, hwf, hread⟩
        refine ⟨m, rfl, fun h => hwf (Memory.wf_write _ _ _ h), fun c hc => ?_⟩
        simp only [List.length_cons] at hc
        rw [hread c (by omega)]
        exact Memory.read_write_ne _ _ _ _ (by omega)
      exact (ih _ _).imp (fun _ u hu => lift u hu) lift
    · exact ⟨s.mem, rfl, id, fun _ _ => rfl⟩
    · exact ⟨s.mem, rfl, id, fun _ _ => rfl⟩

/-! ### Accesses that the bus serves on plain memory -/

/-- The bus serves every byte of a range (R70). -/
def servedRange (p : Platform) (a n : Nat) : Prop := ∀ c, a ≤ c → c < a + n → busAnswer p c = .ok

/-- Every byte of a range is plain memory (R72). -/
def plainRange (p : Platform) (a n : Nat) : Prop :=
  ∀ c, a ≤ c → c < a + n → inRegions (nonPlainRegions p) c = false

/-- A served read of plain memory, with no race, answers the bytes of memory and changes nothing. -/
theorem dmaRead_served (s : State) (a n : Nat) (hs : servedRange s.platform a n) (hp : plainRange s.platform a n)
    (hr : s.raced = false) :
    dmaRead s a n = .ok (s.mem.readRange a n) s := by
  induction n generalizing a with
  | zero => rfl
  | succ n ih =>
    have h1 : dmaReadByte s a = .ok (s.mem.read a) s := by
      simp [dmaReadByte, dmaValue, readsFree, hr, hs a (by omega) (by omega), hp a (by omega) (by omega)]
    simp [dmaRead, h1, ih (a + 1) (fun c h h' => hs c (by omega) (by omega)) fun c h h' => hp c (by omega) (by omega),
      Memory.readRange]

/-- A served write stores its bytes and changes nothing else. -/
theorem dmaWrite_served (s : State) (a : Nat) (bs : List Byte) (hs : servedRange s.platform a bs.length) :
    dmaWrite s a bs = .ok () { s with mem := s.mem.writeRange a bs } := by
  induction bs generalizing s a with
  | nil => rfl
  | cons b bs ih =>
    simp only [List.length_cons] at hs
    have h1 : dmaWriteByte s a b = .ok () { s with mem := s.mem.write a b } := by
      simp [dmaWriteByte, hs a (by omega) (by omega)]
    simp [dmaWrite, h1, Memory.writeRange, ih { s with mem := s.mem.write a b } (a + 1) fun c h h' => hs c (by omega) (by omega)]

/-- A range that shares no byte with the non-plain regions is plain. -/
theorem plainRange_of_meets (p : Platform) (a n : Nat) (h : meetsRegions (nonPlainRegions p) ⟨a, n⟩ = false) :
    plainRange p a n := by
  intro c h1 h2
  simp only [meetsRegions, inRegions, List.any_eq_false, Region.meets, Region.has, Bool.and_eq_true,
    decide_eq_true_eq, not_and] at h ⊢
  intro r hr hlo hhi
  exact h r hr ⟨⟨by omega, by omega⟩, by omega⟩ (by omega)

/-! ### Accesses by what the bus answers -/

/-- The outcome of an access that the bus does not serve, by its answer (R70). -/
def Access.failed {α : Type} (ans : BusAnswer) (t : State) : Access α :=
  match ans with
  | .ok => .noAnswer t
  | .error => .busError t
  | .never => .noAnswer t

theorem Access.bind_failed {α β : Type} (ans : BusAnswer) (t : State) (f : α → State → Access β) :
    (Access.failed ans t : Access α).bind f = Access.failed ans t := by
  cases ans <;> rfl

theorem dmaReadByte_ok (s : State) (a : Nat) (h : busAnswer s.platform a = .ok) :
    ∃ t, dmaReadByte s a = .ok (dmaValue s a) t ∧ OnlyDrew s t := by
  refine ⟨if readsFree s a then { s with draws := s.draws + 1 } else s, by simp [dmaReadByte, h], ?_⟩
  split
  · exact ⟨s.draws + 1, rfl⟩
  · exact OnlyDrew.refl s

/-- A read whose every byte is served answers. -/
theorem dmaRead_ok (s : State) (a n : Nat) (hs : servedRange s.platform a n) :
    ∃ bs t, dmaRead s a n = .ok bs t ∧ bs.length = n ∧ OnlyDrew s t := by
  induction n generalizing s a with
  | zero => exact ⟨[], s, rfl, rfl, OnlyDrew.refl s⟩
  | succ n ih =>
    obtain ⟨t, h1, h2⟩ := dmaReadByte_ok s a (hs a (by omega) (by omega))
    have hp : t.platform = s.platform := by obtain ⟨d, rfl⟩ := h2; rfl
    obtain ⟨bs, u, h3, h4, h5⟩ := ih t (a + 1) (by rw [hp]; exact fun c h h' => hs c (by omega) (by omega))
    exact ⟨_, u, by rw [dmaRead, h1, Access.bind_ok, h3, Access.bind_ok], by simp [h4], h2.trans h5⟩

/-- A read fails at its first byte that is not served, as the bus answers there. -/
theorem dmaRead_failed (s : State) (a n k : Nat) (hk : k < n) (hs : servedRange s.platform a k)
    (h : busAnswer s.platform (a + k) ≠ .ok) :
    ∃ t, dmaRead s a n = Access.failed (busAnswer s.platform (a + k)) t ∧ OnlyDrew s t := by
  induction n generalizing s a k with
  | zero => omega
  | succ n ih =>
    cases k with
    | zero =>
      refine ⟨s, ?_, OnlyDrew.refl s⟩
      rw [Nat.add_zero] at h ⊢
      unfold dmaRead dmaReadByte
      cases hb : busAnswer s.platform a with
      | ok => exact absurd hb h
      | error => rfl
      | never => rfl
    | succ k =>
      obtain ⟨t, h1, h2⟩ := dmaReadByte_ok s a (hs a (by omega) (by omega))
      have hp : t.platform = s.platform := by obtain ⟨d, rfl⟩ := h2; rfl
      have ha : a + (k + 1) = a + 1 + k := by omega
      obtain ⟨u, h3, h4⟩ := ih t (a + 1) k (by omega) (by rw [hp]; exact fun c h h' => hs c (by omega) (by omega))
        (by rwa [hp, ← ha])
      rw [hp] at h3
      exact ⟨u, by rw [ha, dmaRead, h1, Access.bind_ok, h3, Access.bind_failed], h2.trans h4⟩

/-- A write fails at its first byte that is not served, as the bus answers there, and has changed memory only. -/
theorem dmaWrite_failed (s : State) (a k : Nat) (bs : List Byte) (hk : k < bs.length) (hs : servedRange s.platform a k)
    (h : busAnswer s.platform (a + k) ≠ .ok) :
    ∃ m : Memory, dmaWrite s a bs = Access.failed (busAnswer s.platform (a + k)) { s with mem := m } := by
  induction bs generalizing s a k with
  | nil => simp at hk
  | cons b bs ih =>
    cases k with
    | zero =>
      refine ⟨s.mem, ?_⟩
      rw [Nat.add_zero] at h ⊢
      unfold dmaWrite dmaWriteByte
      cases hb : busAnswer s.platform a with
      | ok => exact absurd hb h
      | error => rfl
      | never => rfl
    | succ k =>
      have h1 : dmaWriteByte s a b = .ok () { s with mem := s.mem.write a b } := by
        simp [dmaWriteByte, hs a (by omega) (by omega)]
      have ha : a + (k + 1) = a + 1 + k := by omega
      obtain ⟨m, h3⟩ := ih { s with mem := s.mem.write a b } (a + 1) k (by simpa using hk)
        (fun c h h' => hs c (by omega) (by omega)) (by rwa [← ha])
      exact ⟨m, by rw [ha, dmaWrite, h1, Access.bind_ok, h3]⟩

end Sys2Proof.Machine
end

