-- ==== Sys2Proof/Laws/State.lean ====
section
/-!
SUPPORT. The fields of the state after each named update: one lemma per field per update, so that no proof unfolds a record
update.
-/

namespace Sys2Proof.Machine

/-! ### Acceptance (R112) -/

@[simp] theorem accept_cmdLast (s : State) (w : Word) : (accept s w).cmdLast = w := rfl

@[simp] theorem accept_done (s : State) (w : Word) : (accept s w).done = false := rfl

@[simp] theorem accept_ovr (s : State) (w : Word) : (accept s w).ovr = s.ovr := rfl

@[simp] theorem accept_errcode (s : State) (w : Word) : (accept s w).errcode = .ok := rfl

@[simp] theorem accept_srcAddr (s : State) (w : Word) : (accept s w).srcAddr = s.srcAddr := rfl

@[simp] theorem accept_dstAddr (s : State) (w : Word) : (accept s w).dstAddr = s.dstAddr := rfl

@[simp] theorem accept_srcLen (s : State) (w : Word) : (accept s w).srcLen = s.srcLen := rfl

@[simp] theorem accept_outLen (s : State) (w : Word) : (accept s w).outLen = 0 := rfl

@[simp] theorem accept_keyLen (s : State) (w : Word) : (accept s w).keyLen = s.keyLen := rfl

@[simp] theorem accept_doneIe (s : State) (w : Word) : (accept s w).doneIe = s.doneIe := rfl

@[simp] theorem accept_keys (s : State) (w : Word) : (accept s w).keys = s.keys := rfl

@[simp] theorem accept_phase (s : State) (w : Word) : (accept s w).phase = .check := rfl

@[simp] theorem accept_pos (s : State) (w : Word) : (accept s w).pos = s.pos := rfl

@[simp] theorem accept_chain (s : State) (w : Word) : (accept s w).chain = s.chain := rfl

@[simp] theorem accept_blk (s : State) (w : Word) : (accept s w).blk = s.blk := rfl

@[simp] theorem accept_padv (s : State) (w : Word) : (accept s w).padv = s.padv := rfl

@[simp] theorem accept_outmax (s : State) (w : Word) : (accept s w).outmax = s.outmax := rfl

@[simp] theorem accept_ivb (s : State) (w : Word) : (accept s w).ivb = s.ivb := rfl

@[simp] theorem accept_ivMoved (s : State) (w : Word) : (accept s w).ivMoved = s.ivMoved := rfl

@[simp] theorem accept_rngReq (s : State) (w : Word) : (accept s w).rngReq = s.rngReq := rfl

@[simp] theorem accept_rngAnswer (s : State) (w : Word) : (accept s w).rngAnswer = s.rngAnswer := rfl

@[simp] theorem accept_inReset (s : State) (w : Word) : (accept s w).inReset = s.inReset := rfl

@[simp] theorem accept_busHung (s : State) (w : Word) : (accept s w).busHung = s.busHung := rfl

@[simp] theorem accept_raced (s : State) (w : Word) : (accept s w).raced = s.raced := rfl

@[simp] theorem accept_mem (s : State) (w : Word) : (accept s w).mem = s.mem := rfl

@[simp] theorem accept_draws (s : State) (w : Word) : (accept s w).draws = s.draws := rfl

@[simp] theorem accept_resp (s : State) (w : Word) : (accept s w).resp = s.resp := rfl

@[simp] theorem accept_badRegAccess (s : State) (w : Word) : (accept s w).badRegAccess = s.badRegAccess := rfl

@[simp] theorem accept_bufferRace (s : State) (w : Word) : (accept s w).bufferRace = s.bufferRace := rfl

@[simp] theorem accept_platform (s : State) (w : Word) : (accept s w).platform = s.platform := rfl

@[simp] theorem accept_events (s : State) (w : Word) : (accept s w).events = s.events := rfl

/-! ### The completion (R136) -/

@[simp] theorem completion_cmdLast (s : State) (code : ResultCode) (n : Nat) :
    (completion s code n).cmdLast = s.cmdLast := rfl

@[simp] theorem completion_done (s : State) (code : ResultCode) (n : Nat) : (completion s code n).done = true := rfl

@[simp] theorem completion_ovr (s : State) (code : ResultCode) (n : Nat) : (completion s code n).ovr = s.ovr := rfl

@[simp] theorem completion_errcode (s : State) (code : ResultCode) (n : Nat) :
    (completion s code n).errcode = code := rfl

@[simp] theorem completion_srcAddr (s : State) (code : ResultCode) (n : Nat) :
    (completion s code n).srcAddr = s.srcAddr := rfl

@[simp] theorem completion_dstAddr (s : State) (code : ResultCode) (n : Nat) :
    (completion s code n).dstAddr = s.dstAddr := rfl

@[simp] theorem completion_srcLen (s : State) (code : ResultCode) (n : Nat) :
    (completion s code n).srcLen = s.srcLen := rfl

@[simp] theorem completion_outLen (s : State) (code : ResultCode) (n : Nat) :
    (completion s code n).outLen = if code = .ok then BitVec.ofNat 32 n else 0 := rfl

@[simp] theorem completion_keyLen (s : State) (code : ResultCode) (n : Nat) : (completion s code n).keyLen = 0 := rfl

@[simp] theorem completion_doneIe (s : State) (code : ResultCode) (n : Nat) :
    (completion s code n).doneIe = s.doneIe := rfl

@[simp] theorem completion_keys (s : State) (code : ResultCode) (n : Nat) : (completion s code n).keys = zeroKeys := rfl

@[simp] theorem completion_phase (s : State) (code : ResultCode) (n : Nat) : (completion s code n).phase = .idle := rfl

@[simp] theorem completion_pos (s : State) (code : ResultCode) (n : Nat) : (completion s code n).pos = 0 := rfl

@[simp] theorem completion_chain (s : State) (code : ResultCode) (n : Nat) :
    (completion s code n).chain = zeroBlock := rfl

@[simp] theorem completion_blk (s : State) (code : ResultCode) (n : Nat) : (completion s code n).blk = zeroBlock := rfl

@[simp] theorem completion_padv (s : State) (code : ResultCode) (n : Nat) : (completion s code n).padv = 0 := rfl

@[simp] theorem completion_outmax (s : State) (code : ResultCode) (n : Nat) : (completion s code n).outmax = 0 := rfl

@[simp] theorem completion_ivb (s : State) (code : ResultCode) (n : Nat) : (completion s code n).ivb = zeroBlock := rfl

@[simp] theorem completion_ivMoved (s : State) (code : ResultCode) (n : Nat) :
    (completion s code n).ivMoved = false := rfl

@[simp] theorem completion_rngReq (s : State) (code : ResultCode) (n : Nat) :
    (completion s code n).rngReq = false := rfl

@[simp] theorem completion_rngAnswer (s : State) (code : ResultCode) (n : Nat) :
    (completion s code n).rngAnswer = none := rfl

@[simp] theorem completion_inReset (s : State) (code : ResultCode) (n : Nat) :
    (completion s code n).inReset = s.inReset := rfl

@[simp] theorem completion_busHung (s : State) (code : ResultCode) (n : Nat) :
    (completion s code n).busHung = s.busHung := rfl

@[simp] theorem completion_raced (s : State) (code : ResultCode) (n : Nat) :
    (completion s code n).raced = false := rfl

@[simp] theorem completion_mem (s : State) (code : ResultCode) (n : Nat) : (completion s code n).mem = s.mem := rfl

@[simp] theorem completion_draws (s : State) (code : ResultCode) (n : Nat) :
    (completion s code n).draws = s.draws := rfl

@[simp] theorem completion_resp (s : State) (code : ResultCode) (n : Nat) : (completion s code n).resp = s.resp := rfl

@[simp] theorem completion_badRegAccess (s : State) (code : ResultCode) (n : Nat) :
    (completion s code n).badRegAccess = s.badRegAccess := rfl

@[simp] theorem completion_bufferRace (s : State) (code : ResultCode) (n : Nat) :
    (completion s code n).bufferRace = s.bufferRace := rfl

@[simp] theorem completion_platform (s : State) (code : ResultCode) (n : Nat) :
    (completion s code n).platform = s.platform := rfl

@[simp] theorem completion_events (s : State) (code : ResultCode) (n : Nat) :
    (completion s code n).events = s.events := rfl

/-! ### Unspecified bytes (R70, R291) -/

@[simp] theorem scrambleRegion_cmdLast (s : State) (a n : Nat) : (scrambleRegion s a n).cmdLast = s.cmdLast := rfl

@[simp] theorem scrambleRegion_done (s : State) (a n : Nat) : (scrambleRegion s a n).done = s.done := rfl

@[simp] theorem scrambleRegion_ovr (s : State) (a n : Nat) : (scrambleRegion s a n).ovr = s.ovr := rfl

@[simp] theorem scrambleRegion_errcode (s : State) (a n : Nat) : (scrambleRegion s a n).errcode = s.errcode := rfl

@[simp] theorem scrambleRegion_srcAddr (s : State) (a n : Nat) : (scrambleRegion s a n).srcAddr = s.srcAddr := rfl

@[simp] theorem scrambleRegion_dstAddr (s : State) (a n : Nat) : (scrambleRegion s a n).dstAddr = s.dstAddr := rfl

@[simp] theorem scrambleRegion_srcLen (s : State) (a n : Nat) : (scrambleRegion s a n).srcLen = s.srcLen := rfl

@[simp] theorem scrambleRegion_outLen (s : State) (a n : Nat) : (scrambleRegion s a n).outLen = s.outLen := rfl

@[simp] theorem scrambleRegion_keyLen (s : State) (a n : Nat) : (scrambleRegion s a n).keyLen = s.keyLen := rfl

@[simp] theorem scrambleRegion_doneIe (s : State) (a n : Nat) : (scrambleRegion s a n).doneIe = s.doneIe := rfl

@[simp] theorem scrambleRegion_keys (s : State) (a n : Nat) : (scrambleRegion s a n).keys = s.keys := rfl

@[simp] theorem scrambleRegion_phase (s : State) (a n : Nat) : (scrambleRegion s a n).phase = s.phase := rfl

@[simp] theorem scrambleRegion_pos (s : State) (a n : Nat) : (scrambleRegion s a n).pos = s.pos := rfl

@[simp] theorem scrambleRegion_chain (s : State) (a n : Nat) : (scrambleRegion s a n).chain = s.chain := rfl

@[simp] theorem scrambleRegion_blk (s : State) (a n : Nat) : (scrambleRegion s a n).blk = s.blk := rfl

@[simp] theorem scrambleRegion_padv (s : State) (a n : Nat) : (scrambleRegion s a n).padv = s.padv := rfl

@[simp] theorem scrambleRegion_outmax (s : State) (a n : Nat) : (scrambleRegion s a n).outmax = s.outmax := rfl

@[simp] theorem scrambleRegion_ivb (s : State) (a n : Nat) : (scrambleRegion s a n).ivb = s.ivb := rfl

@[simp] theorem scrambleRegion_ivMoved (s : State) (a n : Nat) : (scrambleRegion s a n).ivMoved = s.ivMoved := rfl

@[simp] theorem scrambleRegion_rngReq (s : State) (a n : Nat) : (scrambleRegion s a n).rngReq = s.rngReq := rfl

@[simp] theorem scrambleRegion_rngAnswer (s : State) (a n : Nat) : (scrambleRegion s a n).rngAnswer = s.rngAnswer := rfl

@[simp] theorem scrambleRegion_inReset (s : State) (a n : Nat) : (scrambleRegion s a n).inReset = s.inReset := rfl

@[simp] theorem scrambleRegion_busHung (s : State) (a n : Nat) : (scrambleRegion s a n).busHung = s.busHung := rfl

@[simp] theorem scrambleRegion_raced (s : State) (a n : Nat) : (scrambleRegion s a n).raced = s.raced := rfl

@[simp] theorem scrambleRegion_mem (s : State) (a n : Nat) :
    (scrambleRegion s a n).mem = s.mem.scramble s.draws a n := rfl

@[simp] theorem scrambleRegion_draws (s : State) (a n : Nat) : (scrambleRegion s a n).draws = s.draws + n := rfl

@[simp] theorem scrambleRegion_resp (s : State) (a n : Nat) : (scrambleRegion s a n).resp = s.resp := rfl

@[simp] theorem scrambleRegion_badRegAccess (s : State) (a n : Nat) :
    (scrambleRegion s a n).badRegAccess = s.badRegAccess := rfl

@[simp] theorem scrambleRegion_bufferRace (s : State) (a n : Nat) :
    (scrambleRegion s a n).bufferRace = s.bufferRace := rfl

@[simp] theorem scrambleRegion_platform (s : State) (a n : Nat) : (scrambleRegion s a n).platform = s.platform := rfl

@[simp] theorem scrambleRegion_events (s : State) (a n : Nat) : (scrambleRegion s a n).events = s.events := rfl

/-! ### POS moved on (R24) -/

@[simp] theorem advance_cmdLast (s : State) (n : Nat) : (advance s n).cmdLast = s.cmdLast := rfl

@[simp] theorem advance_done (s : State) (n : Nat) : (advance s n).done = s.done := rfl

@[simp] theorem advance_ovr (s : State) (n : Nat) : (advance s n).ovr = s.ovr := rfl

@[simp] theorem advance_errcode (s : State) (n : Nat) : (advance s n).errcode = s.errcode := rfl

@[simp] theorem advance_srcAddr (s : State) (n : Nat) : (advance s n).srcAddr = s.srcAddr := rfl

@[simp] theorem advance_dstAddr (s : State) (n : Nat) : (advance s n).dstAddr = s.dstAddr := rfl

@[simp] theorem advance_srcLen (s : State) (n : Nat) : (advance s n).srcLen = s.srcLen := rfl

@[simp] theorem advance_outLen (s : State) (n : Nat) : (advance s n).outLen = s.outLen := rfl

@[simp] theorem advance_keyLen (s : State) (n : Nat) : (advance s n).keyLen = s.keyLen := rfl

@[simp] theorem advance_doneIe (s : State) (n : Nat) : (advance s n).doneIe = s.doneIe := rfl

@[simp] theorem advance_keys (s : State) (n : Nat) : (advance s n).keys = s.keys := rfl

@[simp] theorem advance_phase (s : State) (n : Nat) : (advance s n).phase = s.phase := rfl

@[simp] theorem advance_pos (s : State) (n : Nat) : (advance s n).pos = s.pos + BitVec.ofNat 33 n := rfl

@[simp] theorem advance_chain (s : State) (n : Nat) : (advance s n).chain = s.chain := rfl

@[simp] theorem advance_blk (s : State) (n : Nat) : (advance s n).blk = s.blk := rfl

@[simp] theorem advance_padv (s : State) (n : Nat) : (advance s n).padv = s.padv := rfl

@[simp] theorem advance_outmax (s : State) (n : Nat) : (advance s n).outmax = s.outmax := rfl

@[simp] theorem advance_ivb (s : State) (n : Nat) : (advance s n).ivb = s.ivb := rfl

@[simp] theorem advance_ivMoved (s : State) (n : Nat) : (advance s n).ivMoved = s.ivMoved := rfl

@[simp] theorem advance_rngReq (s : State) (n : Nat) : (advance s n).rngReq = s.rngReq := rfl

@[simp] theorem advance_rngAnswer (s : State) (n : Nat) : (advance s n).rngAnswer = s.rngAnswer := rfl

@[simp] theorem advance_inReset (s : State) (n : Nat) : (advance s n).inReset = s.inReset := rfl

@[simp] theorem advance_busHung (s : State) (n : Nat) : (advance s n).busHung = s.busHung := rfl

@[simp] theorem advance_raced (s : State) (n : Nat) : (advance s n).raced = s.raced := rfl

@[simp] theorem advance_mem (s : State) (n : Nat) : (advance s n).mem = s.mem := rfl

@[simp] theorem advance_draws (s : State) (n : Nat) : (advance s n).draws = s.draws := rfl

@[simp] theorem advance_resp (s : State) (n : Nat) : (advance s n).resp = s.resp := rfl

@[simp] theorem advance_badRegAccess (s : State) (n : Nat) : (advance s n).badRegAccess = s.badRegAccess := rfl

@[simp] theorem advance_bufferRace (s : State) (n : Nat) : (advance s n).bufferRace = s.bufferRace := rfl

@[simp] theorem advance_platform (s : State) (n : Nat) : (advance s n).platform = s.platform := rfl

@[simp] theorem advance_events (s : State) (n : Nat) : (advance s n).events = s.events := rfl

/-! ### A STATUS write (R115) -/

@[simp] theorem writeStatus_cmdLast (s : State) (w : Word) : (s.writeStatus w).cmdLast = s.cmdLast := rfl

@[simp] theorem writeStatus_done (s : State) (w : Word) : (s.writeStatus w).done = (s.done && !w.getLsbD 1) := rfl

@[simp] theorem writeStatus_ovr (s : State) (w : Word) : (s.writeStatus w).ovr = (s.ovr && !w.getLsbD 2) := rfl

@[simp] theorem writeStatus_errcode (s : State) (w : Word) : (s.writeStatus w).errcode = s.errcode := rfl

@[simp] theorem writeStatus_srcAddr (s : State) (w : Word) : (s.writeStatus w).srcAddr = s.srcAddr := rfl

@[simp] theorem writeStatus_dstAddr (s : State) (w : Word) : (s.writeStatus w).dstAddr = s.dstAddr := rfl

@[simp] theorem writeStatus_srcLen (s : State) (w : Word) : (s.writeStatus w).srcLen = s.srcLen := rfl

@[simp] theorem writeStatus_outLen (s : State) (w : Word) : (s.writeStatus w).outLen = s.outLen := rfl

@[simp] theorem writeStatus_keyLen (s : State) (w : Word) : (s.writeStatus w).keyLen = s.keyLen := rfl

@[simp] theorem writeStatus_doneIe (s : State) (w : Word) : (s.writeStatus w).doneIe = s.doneIe := rfl

@[simp] theorem writeStatus_keys (s : State) (w : Word) : (s.writeStatus w).keys = s.keys := rfl

@[simp] theorem writeStatus_phase (s : State) (w : Word) : (s.writeStatus w).phase = s.phase := rfl

@[simp] theorem writeStatus_pos (s : State) (w : Word) : (s.writeStatus w).pos = s.pos := rfl

@[simp] theorem writeStatus_chain (s : State) (w : Word) : (s.writeStatus w).chain = s.chain := rfl

@[simp] theorem writeStatus_blk (s : State) (w : Word) : (s.writeStatus w).blk = s.blk := rfl

@[simp] theorem writeStatus_padv (s : State) (w : Word) : (s.writeStatus w).padv = s.padv := rfl

@[simp] theorem writeStatus_outmax (s : State) (w : Word) : (s.writeStatus w).outmax = s.outmax := rfl

@[simp] theorem writeStatus_ivb (s : State) (w : Word) : (s.writeStatus w).ivb = s.ivb := rfl

@[simp] theorem writeStatus_ivMoved (s : State) (w : Word) : (s.writeStatus w).ivMoved = s.ivMoved := rfl

@[simp] theorem writeStatus_rngReq (s : State) (w : Word) : (s.writeStatus w).rngReq = s.rngReq := rfl

@[simp] theorem writeStatus_rngAnswer (s : State) (w : Word) : (s.writeStatus w).rngAnswer = s.rngAnswer := rfl

@[simp] theorem writeStatus_inReset (s : State) (w : Word) : (s.writeStatus w).inReset = s.inReset := rfl

@[simp] theorem writeStatus_busHung (s : State) (w : Word) : (s.writeStatus w).busHung = s.busHung := rfl

@[simp] theorem writeStatus_raced (s : State) (w : Word) : (s.writeStatus w).raced = s.raced := rfl

@[simp] theorem writeStatus_mem (s : State) (w : Word) : (s.writeStatus w).mem = s.mem := rfl

@[simp] theorem writeStatus_draws (s : State) (w : Word) : (s.writeStatus w).draws = s.draws := rfl

@[simp] theorem writeStatus_resp (s : State) (w : Word) : (s.writeStatus w).resp = s.resp := rfl

@[simp] theorem writeStatus_badRegAccess (s : State) (w : Word) : (s.writeStatus w).badRegAccess = s.badRegAccess := rfl

@[simp] theorem writeStatus_bufferRace (s : State) (w : Word) : (s.writeStatus w).bufferRace = s.bufferRace := rfl

@[simp] theorem writeStatus_platform (s : State) (w : Word) : (s.writeStatus w).platform = s.platform := rfl

@[simp] theorem writeStatus_events (s : State) (w : Word) : (s.writeStatus w).events = s.events := rfl

/-! ### An IRQ_EN write (R116) -/

@[simp] theorem writeIrqEn_cmdLast (s : State) (w : Word) : (s.writeIrqEn w).cmdLast = s.cmdLast := rfl

@[simp] theorem writeIrqEn_done (s : State) (w : Word) : (s.writeIrqEn w).done = s.done := rfl

@[simp] theorem writeIrqEn_ovr (s : State) (w : Word) : (s.writeIrqEn w).ovr = s.ovr := rfl

@[simp] theorem writeIrqEn_errcode (s : State) (w : Word) : (s.writeIrqEn w).errcode = s.errcode := rfl

@[simp] theorem writeIrqEn_srcAddr (s : State) (w : Word) : (s.writeIrqEn w).srcAddr = s.srcAddr := rfl

@[simp] theorem writeIrqEn_dstAddr (s : State) (w : Word) : (s.writeIrqEn w).dstAddr = s.dstAddr := rfl

@[simp] theorem writeIrqEn_srcLen (s : State) (w : Word) : (s.writeIrqEn w).srcLen = s.srcLen := rfl

@[simp] theorem writeIrqEn_outLen (s : State) (w : Word) : (s.writeIrqEn w).outLen = s.outLen := rfl

@[simp] theorem writeIrqEn_keyLen (s : State) (w : Word) : (s.writeIrqEn w).keyLen = s.keyLen := rfl

@[simp] theorem writeIrqEn_doneIe (s : State) (w : Word) : (s.writeIrqEn w).doneIe = w.getLsbD 0 := rfl

@[simp] theorem writeIrqEn_keys (s : State) (w : Word) : (s.writeIrqEn w).keys = s.keys := rfl

@[simp] theorem writeIrqEn_phase (s : State) (w : Word) : (s.writeIrqEn w).phase = s.phase := rfl

@[simp] theorem writeIrqEn_pos (s : State) (w : Word) : (s.writeIrqEn w).pos = s.pos := rfl

@[simp] theorem writeIrqEn_chain (s : State) (w : Word) : (s.writeIrqEn w).chain = s.chain := rfl

@[simp] theorem writeIrqEn_blk (s : State) (w : Word) : (s.writeIrqEn w).blk = s.blk := rfl

@[simp] theorem writeIrqEn_padv (s : State) (w : Word) : (s.writeIrqEn w).padv = s.padv := rfl

@[simp] theorem writeIrqEn_outmax (s : State) (w : Word) : (s.writeIrqEn w).outmax = s.outmax := rfl

@[simp] theorem writeIrqEn_ivb (s : State) (w : Word) : (s.writeIrqEn w).ivb = s.ivb := rfl

@[simp] theorem writeIrqEn_ivMoved (s : State) (w : Word) : (s.writeIrqEn w).ivMoved = s.ivMoved := rfl

@[simp] theorem writeIrqEn_rngReq (s : State) (w : Word) : (s.writeIrqEn w).rngReq = s.rngReq := rfl

@[simp] theorem writeIrqEn_rngAnswer (s : State) (w : Word) : (s.writeIrqEn w).rngAnswer = s.rngAnswer := rfl

@[simp] theorem writeIrqEn_inReset (s : State) (w : Word) : (s.writeIrqEn w).inReset = s.inReset := rfl

@[simp] theorem writeIrqEn_busHung (s : State) (w : Word) : (s.writeIrqEn w).busHung = s.busHung := rfl

@[simp] theorem writeIrqEn_raced (s : State) (w : Word) : (s.writeIrqEn w).raced = s.raced := rfl

@[simp] theorem writeIrqEn_mem (s : State) (w : Word) : (s.writeIrqEn w).mem = s.mem := rfl

@[simp] theorem writeIrqEn_draws (s : State) (w : Word) : (s.writeIrqEn w).draws = s.draws := rfl

@[simp] theorem writeIrqEn_resp (s : State) (w : Word) : (s.writeIrqEn w).resp = s.resp := rfl

@[simp] theorem writeIrqEn_badRegAccess (s : State) (w : Word) : (s.writeIrqEn w).badRegAccess = s.badRegAccess := rfl

@[simp] theorem writeIrqEn_bufferRace (s : State) (w : Word) : (s.writeIrqEn w).bufferRace = s.bufferRace := rfl

@[simp] theorem writeIrqEn_platform (s : State) (w : Word) : (s.writeIrqEn w).platform = s.platform := rfl

@[simp] theorem writeIrqEn_events (s : State) (w : Word) : (s.writeIrqEn w).events = s.events := rfl

/-! ### A lost write (R113) -/

@[simp] theorem lostWrite_cmdLast (s : State) : (s.lostWrite).cmdLast = s.cmdLast := rfl

@[simp] theorem lostWrite_done (s : State) : (s.lostWrite).done = s.done := rfl

@[simp] theorem lostWrite_ovr (s : State) : (s.lostWrite).ovr = true := rfl

@[simp] theorem lostWrite_errcode (s : State) : (s.lostWrite).errcode = s.errcode := rfl

@[simp] theorem lostWrite_srcAddr (s : State) : (s.lostWrite).srcAddr = s.srcAddr := rfl

@[simp] theorem lostWrite_dstAddr (s : State) : (s.lostWrite).dstAddr = s.dstAddr := rfl

@[simp] theorem lostWrite_srcLen (s : State) : (s.lostWrite).srcLen = s.srcLen := rfl

@[simp] theorem lostWrite_outLen (s : State) : (s.lostWrite).outLen = s.outLen := rfl

@[simp] theorem lostWrite_keyLen (s : State) : (s.lostWrite).keyLen = s.keyLen := rfl

@[simp] theorem lostWrite_doneIe (s : State) : (s.lostWrite).doneIe = s.doneIe := rfl

@[simp] theorem lostWrite_keys (s : State) : (s.lostWrite).keys = s.keys := rfl

@[simp] theorem lostWrite_phase (s : State) : (s.lostWrite).phase = s.phase := rfl

@[simp] theorem lostWrite_pos (s : State) : (s.lostWrite).pos = s.pos := rfl

@[simp] theorem lostWrite_chain (s : State) : (s.lostWrite).chain = s.chain := rfl

@[simp] theorem lostWrite_blk (s : State) : (s.lostWrite).blk = s.blk := rfl

@[simp] theorem lostWrite_padv (s : State) : (s.lostWrite).padv = s.padv := rfl

@[simp] theorem lostWrite_outmax (s : State) : (s.lostWrite).outmax = s.outmax := rfl

@[simp] theorem lostWrite_ivb (s : State) : (s.lostWrite).ivb = s.ivb := rfl

@[simp] theorem lostWrite_ivMoved (s : State) : (s.lostWrite).ivMoved = s.ivMoved := rfl

@[simp] theorem lostWrite_rngReq (s : State) : (s.lostWrite).rngReq = s.rngReq := rfl

@[simp] theorem lostWrite_rngAnswer (s : State) : (s.lostWrite).rngAnswer = s.rngAnswer := rfl

@[simp] theorem lostWrite_inReset (s : State) : (s.lostWrite).inReset = s.inReset := rfl

@[simp] theorem lostWrite_busHung (s : State) : (s.lostWrite).busHung = s.busHung := rfl

@[simp] theorem lostWrite_raced (s : State) : (s.lostWrite).raced = s.raced := rfl

@[simp] theorem lostWrite_mem (s : State) : (s.lostWrite).mem = s.mem := rfl

@[simp] theorem lostWrite_draws (s : State) : (s.lostWrite).draws = s.draws := rfl

@[simp] theorem lostWrite_resp (s : State) : (s.lostWrite).resp = s.resp := rfl

@[simp] theorem lostWrite_badRegAccess (s : State) : (s.lostWrite).badRegAccess = s.badRegAccess := rfl

@[simp] theorem lostWrite_bufferRace (s : State) : (s.lostWrite).bufferRace = s.bufferRace := rfl

@[simp] theorem lostWrite_platform (s : State) : (s.lostWrite).platform = s.platform := rfl

@[simp] theorem lostWrite_events (s : State) : (s.lostWrite).events = s.events := rfl

/-! ### An illegal register access (R110) -/

@[simp] theorem badAccess_cmdLast (s : State) : (badAccess s).cmdLast = s.cmdLast := rfl

@[simp] theorem badAccess_done (s : State) : (badAccess s).done = s.done := rfl

@[simp] theorem badAccess_ovr (s : State) : (badAccess s).ovr = s.ovr := rfl

@[simp] theorem badAccess_errcode (s : State) : (badAccess s).errcode = s.errcode := rfl

@[simp] theorem badAccess_srcAddr (s : State) : (badAccess s).srcAddr = s.srcAddr := rfl

@[simp] theorem badAccess_dstAddr (s : State) : (badAccess s).dstAddr = s.dstAddr := rfl

@[simp] theorem badAccess_srcLen (s : State) : (badAccess s).srcLen = s.srcLen := rfl

@[simp] theorem badAccess_outLen (s : State) : (badAccess s).outLen = s.outLen := rfl

@[simp] theorem badAccess_keyLen (s : State) : (badAccess s).keyLen = s.keyLen := rfl

@[simp] theorem badAccess_doneIe (s : State) : (badAccess s).doneIe = s.doneIe := rfl

@[simp] theorem badAccess_keys (s : State) : (badAccess s).keys = s.keys := rfl

@[simp] theorem badAccess_phase (s : State) : (badAccess s).phase = s.phase := rfl

@[simp] theorem badAccess_pos (s : State) : (badAccess s).pos = s.pos := rfl

@[simp] theorem badAccess_chain (s : State) : (badAccess s).chain = s.chain := rfl

@[simp] theorem badAccess_blk (s : State) : (badAccess s).blk = s.blk := rfl

@[simp] theorem badAccess_padv (s : State) : (badAccess s).padv = s.padv := rfl

@[simp] theorem badAccess_outmax (s : State) : (badAccess s).outmax = s.outmax := rfl

@[simp] theorem badAccess_ivb (s : State) : (badAccess s).ivb = s.ivb := rfl

@[simp] theorem badAccess_ivMoved (s : State) : (badAccess s).ivMoved = s.ivMoved := rfl

@[simp] theorem badAccess_rngReq (s : State) : (badAccess s).rngReq = s.rngReq := rfl

@[simp] theorem badAccess_rngAnswer (s : State) : (badAccess s).rngAnswer = s.rngAnswer := rfl

@[simp] theorem badAccess_inReset (s : State) : (badAccess s).inReset = s.inReset := rfl

@[simp] theorem badAccess_busHung (s : State) : (badAccess s).busHung = s.busHung := rfl

@[simp] theorem badAccess_raced (s : State) : (badAccess s).raced = s.raced := rfl

@[simp] theorem badAccess_mem (s : State) : (badAccess s).mem = s.mem := rfl

@[simp] theorem badAccess_draws (s : State) : (badAccess s).draws = s.draws := rfl

@[simp] theorem badAccess_resp (s : State) : (badAccess s).resp = .busError := rfl

@[simp] theorem badAccess_badRegAccess (s : State) : (badAccess s).badRegAccess = true := rfl

@[simp] theorem badAccess_bufferRace (s : State) : (badAccess s).bufferRace = s.bufferRace := rfl

@[simp] theorem badAccess_platform (s : State) : (badAccess s).platform = s.platform := rfl

@[simp] theorem badAccess_events (s : State) : (badAccess s).events = s.events := rfl

/-! ### Reset released (R290) -/

@[simp] theorem resetRelease_cmdLast (s : State) : (resetRelease s).cmdLast = s.cmdLast := rfl

@[simp] theorem resetRelease_done (s : State) : (resetRelease s).done = s.done := rfl

@[simp] theorem resetRelease_ovr (s : State) : (resetRelease s).ovr = s.ovr := rfl

@[simp] theorem resetRelease_errcode (s : State) : (resetRelease s).errcode = s.errcode := rfl

@[simp] theorem resetRelease_srcAddr (s : State) : (resetRelease s).srcAddr = s.srcAddr := rfl

@[simp] theorem resetRelease_dstAddr (s : State) : (resetRelease s).dstAddr = s.dstAddr := rfl

@[simp] theorem resetRelease_srcLen (s : State) : (resetRelease s).srcLen = s.srcLen := rfl

@[simp] theorem resetRelease_outLen (s : State) : (resetRelease s).outLen = s.outLen := rfl

@[simp] theorem resetRelease_keyLen (s : State) : (resetRelease s).keyLen = s.keyLen := rfl

@[simp] theorem resetRelease_doneIe (s : State) : (resetRelease s).doneIe = s.doneIe := rfl

@[simp] theorem resetRelease_keys (s : State) : (resetRelease s).keys = s.keys := rfl

@[simp] theorem resetRelease_phase (s : State) : (resetRelease s).phase = s.phase := rfl

@[simp] theorem resetRelease_pos (s : State) : (resetRelease s).pos = s.pos := rfl

@[simp] theorem resetRelease_chain (s : State) : (resetRelease s).chain = s.chain := rfl

@[simp] theorem resetRelease_blk (s : State) : (resetRelease s).blk = s.blk := rfl

@[simp] theorem resetRelease_padv (s : State) : (resetRelease s).padv = s.padv := rfl

@[simp] theorem resetRelease_outmax (s : State) : (resetRelease s).outmax = s.outmax := rfl

@[simp] theorem resetRelease_ivb (s : State) : (resetRelease s).ivb = s.ivb := rfl

@[simp] theorem resetRelease_ivMoved (s : State) : (resetRelease s).ivMoved = s.ivMoved := rfl

@[simp] theorem resetRelease_rngReq (s : State) : (resetRelease s).rngReq = s.rngReq := rfl

@[simp] theorem resetRelease_rngAnswer (s : State) : (resetRelease s).rngAnswer = s.rngAnswer := rfl

@[simp] theorem resetRelease_inReset (s : State) : (resetRelease s).inReset = false := rfl

@[simp] theorem resetRelease_busHung (s : State) : (resetRelease s).busHung = s.busHung := rfl

@[simp] theorem resetRelease_raced (s : State) : (resetRelease s).raced = s.raced := rfl

@[simp] theorem resetRelease_mem (s : State) : (resetRelease s).mem = s.mem := rfl

@[simp] theorem resetRelease_draws (s : State) : (resetRelease s).draws = s.draws := rfl

@[simp] theorem resetRelease_resp (s : State) : (resetRelease s).resp = s.resp := rfl

@[simp] theorem resetRelease_badRegAccess (s : State) : (resetRelease s).badRegAccess = s.badRegAccess := rfl

@[simp] theorem resetRelease_bufferRace (s : State) : (resetRelease s).bufferRace = s.bufferRace := rfl

@[simp] theorem resetRelease_platform (s : State) : (resetRelease s).platform = s.platform := rfl

@[simp] theorem resetRelease_events (s : State) : (resetRelease s).events = s.events := rfl

end Sys2Proof.Machine
end

