-- ==== Sys2Proof/Laws/Ops.lean ====
section
/-!
SUPPORT. What the shared operations do, said once: the checks of CHECK, the completion with and without unspecified bytes, the
end of an engine step, the host's accesses, the step of the machine by what the schedule names.
-/

namespace Sys2Proof.Machine

/-! ### CHECK -/

/-- Every check passes exactly when every condition of R130 holds. -/
theorem checkError_eq_none (i : Instr) (s : State) :
    checkError i s = none ↔
      (usesKey i = true → s.keyValid = true) ∧ (i = .decCfb ∨ i = .decCbc → 16 ≤ s.len) ∧
        (i = .decCbc → (s.len - 16) % 16 = 0) ∧ rangeOk i s.src s.dst s.len = true ∧
        overlapOk i s.src s.dst s.len = true := by
  unfold checkError
  by_cases h1 : usesKey i = true ∧ s.keyValid = false
  · simp [h1.1, h1.2]
  · rw [if_neg (by simpa using h1)]
    by_cases h2 : (i = .decCfb ∨ i = .decCbc) ∧ s.len < 16
    · rw [if_pos h2]
      simp only [reduceCtorEq, false_iff]
      rintro ⟨-, h, -⟩
      have := h h2.1
      omega
    · rw [if_neg h2]
      by_cases h3 : i = .decCbc ∧ (s.len - 16) % 16 ≠ 0
      · rw [if_pos h3]
        simp only [reduceCtorEq, false_iff]
        rintro ⟨-, -, h, -⟩
        exact h3.2 (h h3.1)
      · rw [if_neg h3]
        have e1 : usesKey i = true → s.keyValid = true := fun h => by
          by_contra hk
          exact h1 ⟨h, by simpa using hk⟩
        have e2 : i = .decCfb ∨ i = .decCbc → 16 ≤ s.len := fun h => by
          by_contra hk
          exact h2 ⟨h, by omega⟩
        have e3 : i = .decCbc → (s.len - 16) % 16 = 0 := fun h => by
          by_contra hk
          exact h3 ⟨h, hk⟩
        cases h4 : rangeOk i s.src s.dst s.len <;> cases h5 : overlapOk i s.src s.dst s.len <;>
          simp
        exact ⟨e1, e2, e3⟩

/-- A range that passes its check lies in the address space, and its length in OUT_LEN (R66). -/
theorem rangeOk_iff (i : Instr) (S T L : Nat) :
    rangeOk i S T L = true ↔ S + L ≤ 4294967296 ∧ T + outmaxOf i L ≤ 4294967296 ∧ outmaxOf i L ≤ 4294967295 := by
  simp [rangeOk, and_assoc]

/-- The OUTMAX that CHECK stores fits its 33 bits (R31). -/
theorem toNat_outmax (i : Instr) (s : State) (h : checkError i s = none) :
    (BitVec.ofNat 33 (outmaxOf i s.len)).toNat = outmaxOf i s.len := by
  have := ((rangeOk_iff _ _ _ _).1 ((checkError_eq_none i s).1 h).2.2.2.1).2.2
  rw [BitVec.toNat_ofNat]
  omega

theorem check_of_error (i : Instr) (s : State) (c : ResultCode) (h : checkError i s = some c) :
    check i s = raiseError s c := by simp [check, h]

theorem check_of_none (i : Instr) (s : State) (h : checkError i s = none) :
    check i s =
      { s with
        outmax := BitVec.ofNat 33 (outmaxOf i s.len)
        phase := phaseAfterCheck i
        rngReq := phaseAfterCheck i == .rngWait } := by simp [check, h]

/-! ### Lengths and places -/

theorem len_lt (s : State) : s.len < 4294967296 := s.srcLen.isLt

theorem src_lt (s : State) : s.src < 4294967296 := s.srcAddr.isLt

theorem dst_lt (s : State) : s.dst < 4294967296 := s.dstAddr.isLt

/-- POS moves on without wrap-around while it stays in its 33 bits (R24). -/
theorem posn_advance (s : State) (n : Nat) (h : s.posn + n < 8589934592) : (advance s n).posn = s.posn + n := by
  simp only [State.posn, advance_pos] at *
  rw [BitVec.toNat_add, BitVec.toNat_ofNat]
  omega

/-! ### Blocks -/

@[simp] theorem length_block (b : Block) : b.1.length = 16 := b.2

/-- A sequence of 16 bytes is the bytes of its block (R11). -/
theorem blockOfBytes_val (l : List Byte) (h : l.length = 16) : (blockOfBytes l).1 = l := by
  simp [blockOfBytes, h]

@[simp] theorem blockOfBytes_block (b : Block) : blockOfBytes b.1 = b := Subtype.ext (blockOfBytes_val _ b.2)

@[simp] theorem length_xorBytes (a b : List Byte) : (xorBytes a b).length = min a.length b.length := by
  simp [xorBytes]

/-- The exclusive or is its own inverse (R171). -/
theorem xorBytes_xorBytes (a b : List Byte) (h : a.length ≤ b.length) : xorBytes (xorBytes a b) b = a := by
  apply List.ext_getElem
  · simp
    omega
  · intro i h1 h2
    simp [xorBytes]

theorem xorBlock_xorBlock (a b : Block) : xorBlock (xorBlock a b) b = a :=
  Subtype.ext (xorBytes_xorBytes a.1 b.1 (by simp))

/-! ### Completion -/

/-- Where its output is not open, the completion touches no memory (R72, R77). -/
theorem complete_plain (s : State) (n : Nat) (h : outputFree s = false) : complete s n = completion s .ok n := by
  simp [complete, h]

@[simp] theorem complete_phase (s : State) (n : Nat) : (complete s n).phase = .idle := by
  unfold complete
  split <;> rfl

@[simp] theorem complete_done (s : State) (n : Nat) : (complete s n).done = true := by
  unfold complete
  split <;> rfl

@[simp] theorem complete_errcode (s : State) (n : Nat) : (complete s n).errcode = .ok := by
  unfold complete
  split <;> rfl

@[simp] theorem complete_outLen (s : State) (n : Nat) : (complete s n).outLen = BitVec.ofNat 32 n := by
  unfold complete
  split <;> simp

/-! ### The step of the machine -/

/-- With nothing scheduled the engine moves (log 1). -/
theorem step_nil (s : State) (h : s.events = []) : step s = engineStep s := by simp [step, machineStep, h]

/-- Otherwise what the schedule names first moves, and is off the schedule. -/
theorem step_cons (s : State) (e : Event) (es : List Event) (h : s.events = e :: es) :
    step s = eventStep e { s with events := es } := by simp [step, machineStep, h]

/-- An engine that can move runs the command that CMD_LAST decodes to. -/
theorem engineStep_cmd (s : State) (i : Instr) (hr : s.engineReady = true) (hd : decode s.cmdLast = .cmd i) :
    engineStep s = exec i s := by simp [engineStep, hr, hd]

/-- An engine that cannot move holds. -/
theorem engineStep_held (s : State) (h : s.engineReady = false) : engineStep s = .next s := by simp [engineStep, h]

/-- An illegal word is completed with ILLEGAL_CMD in CHECK (R93). -/
theorem engineStep_illegal (s : State) (w : IllegalWord) (hr : s.engineReady = true)
    (hd : decode s.cmdLast = .illegal w) : engineStep s = .next (checkIllegal s) := by simp [engineStep, hr, hd]

/-! ### Host buffer accesses -/

/-- Two regions meet when they share a byte. -/
theorem Region.meets_iff (r q : Region) :
    r.meets q = true ↔ ∃ c, (r.base ≤ c ∧ c < r.base + r.len) ∧ q.base ≤ c ∧ c < q.base + q.len := by
  have e : r.meets q = true ↔ ((0 < r.len ∧ 0 < q.len) ∧ r.base < q.base + q.len) ∧ q.base < r.base + r.len := by
    simp [Region.meets]
  rw [e]
  constructor
  · rintro ⟨⟨⟨h1, h2⟩, h3⟩, h4⟩
    rcases Nat.le_total r.base q.base with h | h
    · exact ⟨q.base, ⟨h, h4⟩, Nat.le_refl _, by omega⟩
    · exact ⟨r.base, ⟨Nat.le_refl _, by omega⟩, h, h3⟩
  · rintro ⟨c, h1, h2⟩
    omega

/-- When a host access is a race (R77). -/
theorem races_iff (s : State) (a n : Nat) :
    races s ⟨a, n⟩ = true ↔ s.busy = true ∧ ∃ c, (a ≤ c ∧ c < a + n) ∧ ∃ i, decode s.cmdLast = .cmd i ∧
      ((s.src ≤ c ∧ c < s.src + s.len) ∨ (s.dst ≤ c ∧ c < s.dst + outmaxOf i s.len)) := by
  unfold races activeCommand decode?
  by_cases hb : s.busy = true
  · cases hd : decode s.cmdLast with
    | illegal w => simp [hb]
    | cmd i =>
      simp only [hb, if_true, Bool.or_eq_true, Region.meets_iff, true_and]
      constructor
      · rintro (⟨c, h1, h2⟩ | ⟨c, h1, h2⟩)
        · exact ⟨c, h1, i, rfl, .inl h2⟩
        · exact ⟨c, h1, i, rfl, .inr h2⟩
      · rintro ⟨c, h1, j, hj, h2⟩
        cases hj
        exact h2.imp (fun h => ⟨c, h1, h⟩) fun h => ⟨c, h1, h⟩
  · simp [hb]

/-- Everything a host buffer access can do. -/
theorem bufferAccess_cases (r : Region) (t : State) :
    bufferAccess r t = .fault .outsideBufferSpace ∨
      (bufferAccess r t = .next t ∧ r.base + r.len ≤ Config.addrSpace) := by
  unfold bufferAccess
  split
  · exact .inl rfl
  · exact .inr ⟨rfl, by omega⟩

@[simp] theorem length_hostBytes (s : State) (ctr a n : Nat) : (hostBytes s ctr a n).length = n := by
  induction n generalizing ctr a with
  | zero => rfl
  | succ n ih => simp [hostBytes, ih]

/-- Byte j of a host read: a free byte of its own where it is open, else the byte of memory. -/
theorem getD_hostBytes (s : State) (ctr a n j : Nat) (h : j < n) :
    (hostBytes s ctr a n).getD j 0 =
      if hostReadsFree s (a + j) then Config.freeByte (ctr + j) else s.mem.read (a + j) := by
  induction n generalizing ctr a j with
  | zero => omega
  | succ n ih =>
    cases j with
    | zero => simp [hostBytes]
    | succ j =>
      have e := ih (ctr + 1) (a + 1) j (by omega)
      rw [show a + 1 + j = a + (j + 1) by omega, show ctr + 1 + j = ctr + (j + 1) by omega] at e
      simpa [hostBytes] using e

/-- A host read changes nothing but its answer, the count of free bytes and the mark of a race. -/
theorem hostRead_frame (s : State) (a n : Nat) :
    hostRead s a n =
      { s with
        resp := (hostRead s a n).resp, draws := (hostRead s a n).draws, bufferRace := s.bufferRace || races s ⟨a, n⟩ } := by
  unfold hostRead
  split
  · rfl
  · rename_i h
    simp only [Bool.or_eq_true, not_or, Bool.not_eq_true] at h
    simp [h.1]

/-- A host read of plain bytes that are not raced for answers the bytes of memory. -/
theorem hostRead_plain (s : State) (a n : Nat) (hr : races s ⟨a, n⟩ = false)
    (hp : meetsRegions (nonPlainRegions s.platform) ⟨a, n⟩ = false) :
    hostRead s a n = { s with resp := .bytes (s.mem.readRange a n) } := by
  simp [hostRead, hr, hp]

end Sys2Proof.Machine
end

