-- ==== Sys2Proof/Laws/Functions.lean ====
section
/-!
SUPPORT. The laws of the functions the commands compute: the two inverse laws of the cipher (R33), lengths and blocks (R11),
and the small facts about cfb, cbc_enc, cbc_dec, pad and the validator that the larger statements rest on.
-/

namespace Sys2Proof.Machine

/-! ### The cipher -/

/-- `D(K, E(K, b)) = b` (R33). -/
@[simp] theorem cipher_D_E (k : List Byte) (b : Block) : Config.D k (Config.E k b) = b := by
  simp [Config.D, Config.E]

/-- `E(K, D(K, b)) = b` (R33). -/
@[simp] theorem cipher_E_D (k : List Byte) (b : Block) : Config.E k (Config.D k b) = b := by
  simp [Config.D, Config.E]

/-! ### Sequences and blocks -/

@[simp] theorem bytesOf_nil : bytesOf [] = [] := rfl

@[simp] theorem bytesOf_cons (b : Block) (bs : List Block) : bytesOf (b :: bs) = b.1 ++ bytesOf bs := rfl

@[simp] theorem length_bytesOf (bs : List Block) : (bytesOf bs).length = 16 * bs.length := by
  induction bs with
  | nil => rfl
  | cons b bs ih =>
    simp [ih]
    omega

@[simp] theorem length_blocksOf (m : Nat) (xs : List Byte) : (blocksOf m xs).length = m := by
  induction m generalizing xs with
  | zero => rfl
  | succ m ih => simp [blocksOf, ih]

/-- Cutting the bytes of blocks gives the blocks back. -/
theorem blocksOf_bytesOf (bs : List Block) : blocksOf bs.length (bytesOf bs) = bs := by
  induction bs with
  | nil => rfl
  | cons b bs ih =>
    have h1 : (b.1 ++ bytesOf bs).take 16 = b.1 := by simp
    have h2 : (b.1 ++ bytesOf bs).drop 16 = bytesOf bs := by simp
    simp only [List.length_cons, blocksOf, bytesOf_cons, h1, h2, ih, blockOfBytes_block]

/-- The blocks of a sequence of whole blocks have its bytes. -/
theorem bytesOf_blocksOf (m : Nat) (xs : List Byte) (h : xs.length = 16 * m) : bytesOf (blocksOf m xs) = xs := by
  induction m generalizing xs with
  | zero => simpa [blocksOf] using (List.length_eq_zero_iff.1 (by omega)).symm
  | succ m ih =>
    simp only [blocksOf, bytesOf_cons]
    rw [ih _ (by simp; omega), blockOfBytes_val _ (by simp; omega), List.take_append_drop]

@[simp] theorem length_cbcEncBlocks (E : Block → Block) (fb : Block) (ps : List Block) :
    (cbcEncBlocks E fb ps).length = ps.length := by
  induction ps generalizing fb with
  | nil => rfl
  | cons p ps ih => simp [cbcEncBlocks, ih]

@[simp] theorem length_cbcDecBlocks (D : Block → Block) (fb : Block) (cs : List Block) :
    (cbcDecBlocks D fb cs).length = cs.length := by
  induction cs generalizing fb with
  | nil => rfl
  | cons c cs ih => simp [cbcDecBlocks, ih]

theorem cbcEncBlocks_append (E : Block → Block) (fb : Block) (ps qs : List Block) :
    cbcEncBlocks E fb (ps ++ qs) =
      cbcEncBlocks E fb ps ++ cbcEncBlocks E ((cbcEncBlocks E fb ps).getLastD fb) qs := by
  induction ps generalizing fb with
  | nil => rfl
  | cons p ps ih =>
    simp only [List.cons_append, cbcEncBlocks, ih, List.getLastD_cons]

theorem cbcDecBlocks_append (D : Block → Block) (fb : Block) (cs ds : List Block) :
    cbcDecBlocks D fb (cs ++ ds) = cbcDecBlocks D fb cs ++ cbcDecBlocks D (cs.getLastD fb) ds := by
  induction cs generalizing fb with
  | nil => rfl
  | cons c cs ih => simp only [List.cons_append, cbcDecBlocks, ih, List.getLastD_cons]

/-! ### CFB -/

@[simp] theorem length_cfbCombine (E : Block → Block) (sr : Block) (x : List Byte) :
    (cfbCombine E sr x).length = min x.length 16 := by
  simp [cfbCombine]

/-- With 16-byte segments SR takes a full segment whole (R172). -/
theorem cfbFeedback_full (sr : Block) (c : List Byte) (h : c.length = 16) : (cfbFeedback 16 sr c).1 = c := by
  have : (sr.1.drop 16 ++ c) = c := by simp
  simp [cfbFeedback, h, this, blockOfBytes_val]

theorem cfbFeedback_partial (seg : Nat) (sr : Block) (c : List Byte) (h : c.length ≠ seg) :
    cfbFeedback seg sr c = sr := by simp [cfbFeedback, h]

@[simp] theorem cfbLoop_nil (E : Block → Block) (seg : Nat) (dir : CfbDir) (fuel : Nat) (sr : Block) :
    cfbLoop E seg dir fuel sr [] = [] := by cases fuel <;> simp [cfbLoop]

/-! ### Padding -/

/-- The padding length is from 1 to the block size (R230, R237 (c)). -/
theorem padLen_bounds (bs n : Nat) (h : 1 ≤ bs) : 1 ≤ padLen bs n ∧ padLen bs n ≤ bs := by
  have := Nat.mod_lt n (show bs > 0 by omega)
  simp only [padLen]
  omega

@[simp] theorem length_padBytes (p : Nat) : (padBytes p).length = p := by simp [padBytes]

@[simp] theorem length_pad (d : List Byte) (bs : Nat) : (pad d bs).length = d.length + padLen bs d.length := by
  simp [pad]

/-- The padded length is a multiple of the block size (R230, R237 (b)). -/
theorem length_pad_mod (d : List Byte) (bs : Nat) (h : 1 ≤ bs) : (pad d bs).length % bs = 0 := by
  have h1 := Nat.mod_lt d.length (show bs > 0 by omega)
  have h2 := Nat.div_add_mod d.length bs
  have h3 : (pad d bs).length = bs * (d.length / bs + 1) := by
    rw [length_pad, padLen, Nat.mul_add]
    omega
  rw [h3, Nat.mul_mod_right]

/-- What a valid padding says of its length (R232). -/
theorem pkcs7Valid_len (d : List Byte) (bs n : Nat) (h : pkcs7Valid d bs n = true) :
    1 ≤ (d.getLastD 0).toNat ∧ (d.getLastD 0).toNat ≤ bs ∧ (d.getLastD 0).toNat ≤ n := by
  simp only [pkcs7Valid] at h
  split at h
  · simp at h
  split at h
  · simp at h
  split at h
  · simp at h
  split at h
  · simp at h
  rename_i h1 h2 h3
  refine ⟨?_, by omega, by omega⟩
  by_contra hc
  refine h1 (BitVec.eq_of_toNat_eq ?_)
  show (d.getLastD 0).toNat = 0
  omega

end Sys2Proof.Machine
end

