-- ==== Sys2Proof/Laws/Invariant.lean ====
section
/-!
SUPPORT. What the shared operations do to the invariant of the machine, the canonical form of memory as data, and the regions
that the reset platform serves.
-/

namespace Sys2Proof.Machine

/-! ### Memory as data -/

/-- Below the first listed address of a canonical memory every byte reads as unlisted. -/
theorem Memory.read_below (m : Memory) (a : Nat) (h : ∀ d ∈ m, a < d.1) : m.read a = unlistedByte := by
  induction m with
  | nil => rfl
  | cons c m ih =>
    have hc := h c (by simp)
    rw [Memory.read, if_neg (by omega), ih fun d hd => h d (by simp [hd])]

/-- Two canonical memories that read alike are the same data. -/
theorem Memory.eq_of_read_eq (m m' : Memory) (hm : m.wf = true) (hm' : m'.wf = true)
    (h : ∀ a, m.read a = m'.read a) : m = m' := by
  induction m generalizing m' with
  | nil =>
    cases m' with
    | nil => rfl
    | cons d m' =>
      have hd := (Memory.wf_cons d m').1 hm'
      have e := h d.1
      rw [Memory.read, Memory.read, if_pos rfl] at e
      exact absurd e.symm hd.2.1
  | cons c m ih =>
    have hc := (Memory.wf_cons c m).1 hm
    cases m' with
    | nil =>
      have e := h c.1
      rw [Memory.read, Memory.read, if_pos rfl] at e
      exact absurd e hc.2.1
    | cons d m' =>
      have hd := (Memory.wf_cons d m').1 hm'
      have ec := h c.1
      have ed := h d.1
      rw [Memory.read, if_pos rfl] at ec
      rw [Memory.read, Memory.read, if_pos rfl] at ed
      have hcd : c.1 = d.1 := by
        rcases Nat.lt_trichotomy c.1 d.1 with hlt | heq | hgt
        · rw [Memory.read_below (d :: m') c.1 (by
            intro e he
            rcases List.mem_cons.1 he with rfl | he
            · exact hlt
            · exact Nat.lt_trans hlt (hd.2.2.1 e he))] at ec
          exact absurd ec hc.2.1
        · exact heq
        · rw [if_neg (by omega), Memory.read_below m d.1 fun e he => Nat.lt_trans hgt (hc.2.2.1 e he)] at ed
          exact absurd ed.symm hd.2.1
      rw [Memory.read, if_pos hcd.symm] at ec
      have e : c = d := Prod.ext hcd ec
      subst e
      congr 1
      refine ih m' hc.2.2.2 hd.2.2.2 fun a => ?_
      have ha := h a
      rw [Memory.read, Memory.read] at ha
      by_cases hca : c.1 = a
      · rw [Memory.read_below m a fun e he => hca ▸ hc.2.2.1 e he, Memory.read_below m' a fun e he => hca ▸ hd.2.2.1 e he]
      · rwa [if_neg hca, if_neg hca] at ha

/-! ### The invariant -/

/-- Every completion leaves the hidden registers at zero (R136). -/
theorem hiddenZero_completion (s : State) (code : ResultCode) (n : Nat) : (completion s code n).HiddenZero :=
  ⟨rfl, rfl, rfl, rfl, rfl, rfl, rfl⟩

/-- Every completion gives a state that meets the invariant. -/
theorem inv_completion (s : State) (code : ResultCode) (n : Nat) (hm : s.mem.wf = true) (hh : s.busHung = false)
    (hr : s.inReset = false) : (completion s code n).Inv where
  memory := hm
  idle_clean _ := hiddenZero_completion s code n
  check_clean h := by simp at h
  request := by simp
  answer := rfl
  busy_cleared h := by simp at h
  error_len h := by simp at h; simp [h]
  rng_wait h := by simp at h
  precheck h := by simp at h
  run h := by simp at h
  hung h := by simp [hh] at h
  raced h := by simp at h
  reset_held h := by simp [hr] at h

/-- So does a completion with OK, also over memory that is not plain. -/
theorem inv_complete (s : State) (n : Nat) (hm : s.mem.wf = true) (hh : s.busHung = false) (hr : s.inReset = false) :
    (complete s n).Inv := by
  unfold complete
  split
  · exact inv_completion _ _ _ (Memory.wf_scramble _ _ _ _ hm) hh hr
  · exact inv_completion _ _ _ hm hh hr

/-- So does a completion with BUS. -/
theorem inv_raiseBus (s : State) (hm : s.mem.wf = true) (hh : s.busHung = false) (hr : s.inReset = false) :
    (raiseBus s).Inv := inv_completion _ _ _ (Memory.wf_scramble _ _ _ _ hm) hh hr

/-- The schedule is no part of the invariant. -/
theorem inv_events (s : State) (es : List Event) (h : s.Inv) : State.Inv { s with events := es } := by
  obtain ⟨h1, h2, h3, h4, h5, h6, h7, h8, h9, h10, h11, hraced, h12⟩ := h
  refine ⟨h1, fun p => ?_, fun p => ?_, h4, h5, h6, h7, h8, h9, fun p => ?_, h11, hraced, fun p => ?_⟩
  · obtain ⟨a, b, c, d, e, f, g⟩ := h2 p
    exact ⟨a, b, c, d, e, f, g⟩
  · obtain ⟨a, b, c, d, e, f, g⟩ := h3 p
    exact ⟨a, b, c, d, e, f, g⟩
  · obtain ⟨i, a, b⟩ := h10 p
    exact ⟨i, a, by cases i <;> exact b⟩
  · obtain ⟨a1, a2, a3, a4, a5, a6, a7, a8, a9, a10, a11, a12, ⟨a, b, c, d, e, f, g⟩, a13, a14, a15, a16⟩ := h12 p
    exact ⟨a1, a2, a3, a4, a5, a6, a7, a8, a9, a10, a11, a12, ⟨a, b, c, d, e, f, g⟩, a13, a14, a15, a16⟩

/-- A busy state past CHECK meets the invariant when the command's checks passed and POS is in its place. -/
theorem inv_pastCheck (s : State) (i : Instr) (hm : s.mem.wf = true) (hi : s.phase ≠ .idle) (hc : s.phase ≠ .check)
    (hpast : PastCheck i s) (hreq : s.rngReq = (s.phase == .rngWait)) (hans : s.rngAnswer = none)
    (hcl : s.done = false ∧ s.errcode = .ok ∧ s.outLen = 0) (hreset : s.inReset = false) (hhung : s.busHung = false)
    (hraced : s.raced = true → s.bufferRace = true)
    (hrng : s.phase = .rngWait → draws? i = true ∧ s.pos = 0 ∧ s.ivMoved = false)
    (hpre : s.phase = .precheck → prechecks i = true ∧ s.pos = 0 ∧ s.ivMoved = false)
    (hrun : s.phase = .run → RunPlace i s) : s.Inv where
  memory := hm
  idle_clean h := absurd h hi
  check_clean h := absurd h hc
  request := by simp [hreq]
  answer := hans
  busy_cleared _ := hcl
  error_len h := absurd hcl.2.1 h
  rng_wait h := ⟨i, hpast, hrng h⟩
  precheck h := ⟨i, hpast, hpre h⟩
  run h := ⟨i, hpast, hrun h⟩
  hung h := by simp [hhung] at h
  raced h := ⟨hi, hraced h⟩
  reset_held h := by simp [hreset] at h

/-- CHECK keeps the invariant, whether a check fails or all pass (R130). -/
theorem inv_check (i : Instr) (s : State) (h : s.Inv) (hp : s.phase = .check) (hh : s.busHung = false)
    (hr : s.inReset = false) (hd : decode s.cmdLast = .cmd i) : (check i s).Inv := by
  unfold check
  split
  · exact inv_completion _ _ _ h.memory hh hr
  · rename_i hc
    have hz := h.check_clean hp
    have hb := h.busy_cleared (by simp [hp])
    refine inv_pastCheck _ i h.memory ?_ ?_ ⟨hd, hc, toNat_outmax i s hc⟩ rfl h.answer hb hr hh
      (fun h' => (h.raced h').2) ?_ ?_ ?_
    · cases i <;> simp [phaseAfterCheck]
    · cases i <;> simp [phaseAfterCheck]
    · exact fun h' => ⟨by cases i <;> simp_all [phaseAfterCheck, draws?], hz.pos, hz.ivMoved⟩
    · exact fun h' => ⟨by cases i <;> simp_all [phaseAfterCheck, prechecks], hz.pos, hz.ivMoved⟩
    · intro h'
      have e1 := hz.pos
      have e2 := hz.ivMoved
      cases i <;> simp_all [phaseAfterCheck, RunPlace]
      simp [State.posn]

/-! ### The reset platform -/

/-- The reset platform serves every region of the buffer space (R64, R70, log 8). -/
theorem servedRegion_reset (r : Region) (h : r.base + r.len ≤ 4294967296) :
    servedRegion State.reset.platform r := by
  intro c hc
  simp only [Region.has, Bool.and_eq_true, decide_eq_true_eq] at hc
  have h1 : c < Config.addrSpace := by unfold Config.addrSpace; omega
  simp [busAnswer, State.reset, inRegions, Region.has, h1]

end Sys2Proof.Machine
end

