-- ==== Sys2Proof/Laws/PerInstr.lean ====
section
/-!
SUPPORT. Statements about every command as syntax, one lemma per constructor.
-/

namespace Sys2Proof.Laws

/-- The fields of a command's word are its own: OP and PBS as the command has them, the reserved fields 0 (R90, R91). -/
def EncodingFields.Statement (i : Instr) : Prop :=
  opField (encode i) = i.op ∧ pbsField (encode i) = i.pbs ∧ rsv0Field (encode i) = 0 ∧ rsv1Field (encode i) = 0

theorem EncodingFields.encCfb : EncodingFields.Statement .encCfb := by
  unfold EncodingFields.Statement
  decide

theorem EncodingFields.decCfb : EncodingFields.Statement .decCfb := by
  unfold EncodingFields.Statement
  decide

theorem EncodingFields.encCbc : EncodingFields.Statement .encCbc := by
  unfold EncodingFields.Statement
  decide

theorem EncodingFields.decCbc : EncodingFields.Statement .decCbc := by
  unfold EncodingFields.Statement
  decide

theorem EncodingFields.pad (bs : BitVec 8) : EncodingFields.Statement (.pad bs) := by
  unfold EncodingFields.Statement
  revert bs
  decide

theorem EncodingFields.unpad (bs : BitVec 8) : EncodingFields.Statement (.unpad bs) := by
  unfold EncodingFields.Statement
  revert bs
  decide

end Sys2Proof.Laws
end

