-- ==== Sys2Proof/Tests/Slice0.lean ====
section
/-!
SUPPORT. Tests of the model against the vectors of 95_test_vectors.md ("V-…"), and, for every statement with hypotheses, a
state and operands that meet them all.
-/

namespace Sys2Proof.Tests

open Sys2Proof.Machine

/-! ### Well-formedness and the command word -/

theorem test_wf_refuses_pad_0 : (Instr.pad 0).wf = false := by decide

theorem test_wf_refuses_unpad_0 : (Instr.unpad 0).wf = false := by decide

theorem test_wf_takes_pad_255 : (Instr.pad 255).wf = true := by decide

/- One word of each command, written out from R90, R91 and R96. -/
theorem test_decode_encCfb : decode 0b0000000000000000_00000000_0000_0001 = .cmd .encCfb := by decide

theorem test_decode_decCfb : decode 0b0000000000000000_00000000_0000_0010 = .cmd .decCfb := by decide

theorem test_decode_encCbc : decode 0b0000000000000000_00000000_0000_0011 = .cmd .encCbc := by decide

theorem test_decode_decCbc : decode 0b0000000000000000_00000000_0000_0100 = .cmd .decCbc := by decide

theorem test_decode_pad_16 : decode 0b0000000000000000_00010000_0000_0101 = .cmd (.pad 16) := by decide

theorem test_decode_unpad_8 : decode 0b0000000000000000_00001000_0000_0110 = .cmd (.unpad 8) := by decide

/- V-ERR-1 and V-ERR-2. -/
theorem test_decode_op_0 : decode 0x00000000 = .illegal .unassignedOp := by decide

theorem test_decode_op_7 : decode 0x00000007 = .illegal .unassignedOp := by decide

theorem test_decode_op_15 : decode 0x0000000F = .illegal .unassignedOp := by decide

theorem test_decode_rsv0 : decode 0x00000010 = .illegal .reservedBits := by decide

theorem test_decode_rsv1 : decode 0x00010001 = .illegal .reservedBits := by decide

theorem test_decode_top_bit : decode 0x80000003 = .illegal .reservedBits := by decide

theorem test_decode_pbs_on_encCbc : decode 0x00001003 = .illegal .blockSizeGiven := by decide

theorem test_decode_pad_0 : decode 0x00000005 = .illegal .blockSizeZero := by decide

theorem test_decode_unpad_0 : decode 0x00000006 = .illegal .blockSizeZero := by decide

theorem test_decode_unpad_255 : decode 0x0000FF06 = .cmd (.unpad 255) := by decide

/- R96: the assembled words. -/
theorem test_encode_pad_16 : encode (.pad 16) = 0x00001005 := by decide

theorem test_encode_unpad_8 : encode (.unpad 8) = 0x00000806 := by decide

theorem test_encode_encCbc : encode .encCbc = 0x00000003 := by decide

theorem test_decodeTableWord : decodeTableWord 32 0x00000105 = some (.pad 1) := by decide

/-! ### States for the tests -/

/-- The state of a next outcome. -/
def next? (o : Host.Outcome State Fault Refusal) : Option State :=
  match o with
  | .next s => some s
  | .fault _ => none
  | .refused _ => none

/-- A state with a command word, in a phase: source 0x1000, destination 0x2000, `L` source bytes, KEY_LEN 32. -/
def at_ (w : Word) (ph : Phase) (L : Nat) : State :=
  { State.reset with
    cmdLast := w, phase := ph, srcAddr := 0x1000, dstAddr := 0x2000, srcLen := BitVec.ofNat 32 L, keyLen := 32,
    rngReq := ph == .rngWait }

/-- The bytes of a number, the first at the top, for vectors written in hex. -/
def hex (n : Nat) : Nat → List Byte
  | 0 => []
  | k + 1 => BitVec.ofNat 8 (n / 256 ^ k) :: hex n k

/-- IV0 of 95_test_vectors.md. -/
def iv0 : Block := blockOfBytes (hex 0x000102030405060708090a0b0c0d0e0f 16)

/-- HW of 95_test_vectors.md. -/
def hw : List Byte := hex 0x68656c6c6f20776f726c64 11

/-- A transform that answers one block with one block, the zero block with any other. -/
def table (x y : Nat) (b : Block) : Block := if b.1 = hex x 16 then blockOfBytes (hex y 16) else zeroBlock

/-- `E(Kz, IV0)`, from section 2 of the vectors. -/
def keystream : Block → Block := table 0x000102030405060708090a0b0c0d0e0f 0xb65d30030c88b44c975a343f93fb3c09

/-! ### One step of each command -/

/- V-CFB-8. -/
theorem test_encCfb_segment :
    (encCfbStep keystream
      { at_ 0x1 .run 11 with mem := Memory.writeRange [] 0x1000 hw, ivMoved := true, chain := iv0 }).mem.readRange 0x2010 11
      = hex 0xde385c6f63a8c323e53650 11 := by decide

/- V-CFB-8: the IV is the first 16 bytes. -/
theorem test_encCfb_iv :
    (encCfbStep keystream { at_ 0x1 .run 11 with ivb := iv0 }).mem.readRange 0x2000 16 = iv0.1 := by decide

/- V-CFB-11: in place, and the source bytes past the output are kept. -/
theorem test_decCfb_in_place :
    (decCfbStep keystream
      { at_ 0x2 .run 27 with
        dstAddr := 0x1000, mem := Memory.writeRange [] 0x1000 (iv0.1 ++ hex 0xde385c6f63a8c323e53650 11),
        ivMoved := true, chain := iv0, pos := 16 }).mem.readRange 0x1000 27
      = hw ++ hex 0x0b0c0d0e0fde385c6f63a8c323e53650 16 := by decide

/- V-CFB-7: too short. -/
theorem test_decCfb_too_short : (decCfbStep keystream (at_ 0x2 .check 15)).statusWord = 0x00000302 := by decide

/- V-CBC-3. -/
theorem test_encCbc_block :
    (encCbcStep (table 0x68646e6f6b2571687a656e0e09080b0a 0xc0e42a2622af9bd988625a64976fa9b0)
      { at_ 0x3 .run 11 with mem := Memory.writeRange [] 0x1000 hw, ivMoved := true, chain := iv0 }).mem.readRange 0x2010 16
      = hex 0xc0e42a2622af9bd988625a64976fa9b0 16 := by decide

/- V-ERR-5: a key length of 0x50 is not aliased to 16. -/
theorem test_encCbc_key_size :
    (encCbcStep keystream { at_ 0x3 .check 11 with keyLen := 0x50 }).statusWord = 0x00000102 := by decide

/- V-CBC-4: five padding bytes. -/
theorem test_decCbc_padding :
    (decCbcStep (table 0xc0e42a2622af9bd988625a64976fa9b0 0x68646e6f6b2571687a656e0e09080b0a)
      { at_ 0x4 .precheck 32 with
        mem := Memory.writeRange [] 0x1000 (iv0.1 ++ hex 0xc0e42a2622af9bd988625a64976fa9b0 16) }).padv = 5 := by decide

/- V-CBC-6, t = 0x06: the strict test refuses 05 05 03. -/
theorem test_decCbc_strict :
    (decCbcStep (table 0xc0e42a2622af9bd988625a64976fa9b0 0x68646e6f6b2571687a656e0e09080b0a)
      { at_ 0x4 .precheck 32 with
        mem := Memory.writeRange [] 0x1000
          (hex 0x000102030405060708090a0b0c0d0e09 16 ++ hex 0xc0e42a2622af9bd988625a64976fa9b0 16) }).statusWord
      = 0x00000502 := by decide

/- V-PAD-5: its last step. -/
theorem test_pad_tail :
    (padStep 8 { at_ 0x805 .run 5 with pos := 5, outmax := 8 }).mem.readRange 0x2005 3 = [3, 3, 3] := by decide

/- V-PAD-1: the length of the output. -/
theorem test_pad_outLen : (padStep 16 { at_ 0x1005 .run 0 with outmax := 16 }).outLen = 0x10 := by decide

/- V-UNPAD-1: the padding length that PRECHECK reads. -/
theorem test_unpad_precheck :
    (unpadStep 8 { at_ 0x806 .precheck 8 with mem := Memory.writeRange [] 0x1000 (hex 0x6162636465030303 8) }).padv = 3 := by
  decide

/- V-UNPAD-8: the strict test. -/
theorem test_unpad_strict :
    (unpadStep 16 { at_ 0x1006 .precheck 4 with mem := Memory.writeRange [] 0x1000 (hex 0x61620703 4) }).statusWord
      = 0x00000502 := by decide

/-! ### CHECK, registers, reset -/

/- V-ERR-3: ILLEGAL_CMD first. -/
theorem test_illegal_first :
    (next? (step { at_ 0x1004 .check 5 with keyLen := 0 })).map State.statusWord = some 0x00000602 := by decide

/- V-ERR-7: the range and overlap cases. -/
theorem test_overlap_encCbc_in_place : overlapOk .encCbc 0x1000 0x1000 11 = false := by decide

theorem test_overlap_encCbc_below : overlapOk .encCbc 0x1010 0x1000 11 = true := by decide

theorem test_range_encCfb_top : rangeOk .encCfb 0x1000 0xFFFFFFF0 0 = true := by decide

theorem test_range_encCfb_wraps : rangeOk .encCfb 0x1000 0xFFFFFFF0 1 = false := by decide

theorem test_range_encCfb_outmax : rangeOk .encCfb 0 0 0xFFFFFFF0 = false := by decide

theorem test_range_decCfb_wraps : rangeOk .decCfb 0xFFFFFFF0 0x1000 0x11 = false := by decide

theorem test_overlap_decCbc_16 : overlapOk .decCbc 0x2000 0x2010 32 = true := by decide

theorem test_overlap_decCbc_17 : overlapOk .decCbc 0x2000 0x2011 32 = false := by decide

theorem test_overlap_unpad_1 : overlapOk (.unpad 16) 0x1000 0x1001 8 = false := by decide

/- V-REG-6: ERRCODE is kept, DONE and OVR clear. -/
theorem test_status_write :
    (State.writeStatus { State.reset with done := true, ovr := true, errcode := .padding } 0xFFFFFFFF).statusWord
      = 0x00000500 := by decide

/- V-REG-3. -/
theorem test_irqEn_write : (State.reset.writeIrqEn 0xFFFFFFFF).irqEnWord = 0x00000001 := by decide

/- V-REG-8: STATUS in RNG_WAIT. -/
theorem test_status_rngWait : (at_ 0x3 .rngWait 11).statusWord = 0x00000009 := by decide

/- V-REG-9: a word access at offset 2 changes no register. -/
theorem test_bad_access :
    (next? (hostStep (.regWrite .word 2 1) (at_ 0x3 .rngWait 11))).map State.ovr = some false := by decide

/- P5, line 15: a CMD write while BUSY is lost. -/
theorem test_lost_write :
    (next? (hostStep (.regWrite .word 0 1) (at_ 0x3 .rngWait 11))).map State.statusWord = some 0x0000000D := by decide

/- R98: WAITDONE reads STATUS again while BUSY reads 1, an engine step between two reads, and stops when it reads 0. -/
theorem test_waitDone_busy :
    (next? (step { at_ 0x1005 .check 0 with events := [opWaitDone, opR .outLen] })).map State.events
      = some [.engine, opWaitDone, opR .outLen] := by decide

theorem test_waitDone_done :
    (next? (step { State.reset with done := true, events := [opWaitDone, opR .outLen] })).map (fun s => (s.events, s.resp))
      = some ([opR .outLen], .word 0x00000002) := by decide

/- R117: the engine's own window in the buffer space may be read and written by the host while idle (log 11). -/
theorem test_host_non_plain :
    (next? (hostStep (.memWrite 0x1000 [1])
      { State.reset with platform := { State.reset.platform with base := 0x1000, windowInBuffer := true } })).map State.resp
      = some .written := by decide

/- LOADKEY K1 of section 2: KEY0 = 0x16157E2B. -/
theorem test_keyWord : keyWord (hex 0x2b7e151628aed2a6abf7158809cf4f3c 16) 0 = 0x16157E2B := by decide

/- R54: byte 4 of the key is the low byte of KEY1. -/
theorem test_key_bytes : ({ zeroKeys with key1 := 0xA6D2AE28 } : KeyRegs).bytes.getD 4 0 = 0x28 := by decide

/- The command that withFetchWord places is the one the next step runs (log 18). -/
theorem test_withFetchWord :
    (next? (step (State.reset.withFetchWord 32 0x00000105))).map State.phase = some .run := by decide

/-! ### States that meet the hypotheses of the statements -/

/-- A state at its place in RUN of ENC_CFB on 11 bytes, the IV drawn. -/
def runState : State := { at_ 0x1 .run 11 with outmax := 27, ivb := iv0 }

/-- A state in RUN of PAD 16 on no bytes, on a bus that serves nothing. -/
def busState : State :=
  { at_ 0x1005 .run 0 with outmax := 16, platform := { State.reset.platform with dmaAdmit := [] } }

/-- A state in PRECHECK of UNPAD 16 on 11 bytes. -/
def preState : State := { at_ 0x1006 .precheck 11 with outmax := 11 }

/-- A state in RNG_WAIT of ENC_CBC on 11 bytes. -/
def rngState : State := { at_ 0x3 .rngWait 11 with outmax := 32 }

/-- Key bytes of `at_`: 32 zero bytes. -/
def kz : List Byte := List.replicate 32 0

/-- A ciphertext of DEC_CBC at 0x1000: a zero IV, then the block whose inverse transform is `b`. -/
def cbcMemory (b : Block) : Memory :=
  Memory.writeRange (Memory.writeRange [] 0x1000 (List.replicate 16 0)) 0x1010 (Config.E kz b).1

/-- Sixteen bytes of value `v`. -/
def sixteen (v : Byte) : Block := ⟨List.replicate 16 v, by simp⟩

theorem test_inv_at_check : (at_ 0x1005 .check 11).Inv where
  memory := by decide
  idle_clean h := by simp [at_] at h
  check_clean _ := ⟨rfl, rfl, rfl, rfl, rfl, rfl, rfl⟩
  request := by decide
  answer := rfl
  busy_cleared _ := ⟨rfl, rfl, rfl⟩
  error_len h := absurd rfl h
  rng_wait h := by simp [at_] at h
  precheck h := by simp [at_] at h
  run h := by simp [at_] at h
  hung h := by simp [at_, State.reset] at h
  raced h := by simp [at_, State.reset] at h
  reset_held h := by simp [at_, State.reset] at h

theorem test_inv_runState : runState.Inv :=
  inv_pastCheck _ .encCfb (by decide) (by decide) (by decide) ⟨by decide, by decide, by decide⟩ (by decide) (by decide)
    ⟨rfl, rfl, rfl⟩ rfl rfl (fun h => nomatch h) (fun h => absurd h (by decide)) (fun h => absurd h (by decide))
    (fun _ => ⟨by decide, fun _ => rfl⟩)

theorem test_inv_busState : busState.Inv :=
  inv_pastCheck _ (.pad 16) (by decide) (by decide) (by decide) ⟨by decide, by decide, by decide⟩ (by decide) (by decide)
    ⟨rfl, rfl, rfl⟩ rfl rfl (fun h => nomatch h) (fun h => absurd h (by decide)) (fun h => absurd h (by decide))
    (fun _ => ⟨by decide, rfl⟩)

theorem test_inv_preState : preState.Inv :=
  inv_pastCheck _ (.unpad 16) (by decide) (by decide) (by decide) ⟨by decide, by decide, by decide⟩ (by decide) (by decide)
    ⟨rfl, rfl, rfl⟩ rfl rfl (fun h => nomatch h) (fun h => absurd h (by decide)) (fun _ => ⟨rfl, rfl, rfl⟩)
    (fun h => absurd h (by decide))

theorem test_inv_rngState : rngState.Inv :=
  inv_pastCheck _ .encCbc (by decide) (by decide) (by decide) ⟨by decide, by decide, by decide⟩ (by decide) (by decide)
    ⟨rfl, rfl, rfl⟩ rfl rfl (fun h => nomatch h) (fun _ => ⟨rfl, rfl, rfl⟩) (fun h => absurd h (by decide))
    (fun h => absurd h (by decide))

/-- The regions of a command on at most 11 source bytes at the test addresses are served and plain. -/
theorem test_good_buffers (w : Word) (ph : Phase) (L : Nat) (i : Instr) (hL : (at_ w ph L).len ≤ 4096)
    (ho : outmaxOf i (at_ w ph L).len ≤ 8192) : (at_ w ph L).GoodBuffers i where
  src_served := servedRegion_reset _ (show 0x1000 + (at_ w ph L).len ≤ _ by omega)
  dst_served := servedRegion_reset _ (show 0x2000 + outmaxOf i (at_ w ph L).len ≤ _ by omega)
  src_plain := rfl
  dst_plain := rfl
  unraced := rfl

/- IllegalWordCompletesIllegalCmd. -/
theorem test_witness_illegal_word :
    State.reset.phase = .idle ∧ (at_ 0 .check 0).Free ∧ (at_ 0 .check 0).phase = .check ∧
      ∀ i, decode (at_ 0 .check 0).cmdLast ≠ .cmd i :=
  ⟨rfl, ⟨rfl, rfl, rfl⟩, rfl, fun i e =>
    Decoded.noConfusion ((show decode (at_ 0 .check 0).cmdLast = .illegal .unassignedOp by decide).symm.trans e)⟩

/- StepRunsDecodedCommand, both clauses. -/
theorem test_witness_step_runs :
    (at_ 1 .check 11).phase ≠ .idle ∧ (at_ 1 .check 11).inReset = false ∧ (at_ 1 .check 11).busHung = false ∧
      decode (at_ 1 .check 11).cmdLast = .cmd .encCfb ∧ (at_ 1 .check 11).events = [] ∧
      ({ at_ 1 .check 11 with events := [.engine] } : State).events = .engine :: [] := by decide

/- EveryStepKeepsInvariant, OnlyLegalPhaseMoves. -/
theorem test_witness_inv_step : ∃ t, runState.Inv ∧ step runState = .next t := ⟨_, test_inv_runState, rfl⟩

/- OperandsFrozenWhileBusy. -/
theorem test_witness_operands_frozen :
    ∃ t, runState.phase ≠ .idle ∧ (∀ es, runState.events ≠ .resetAssert :: es) ∧ step runState = .next t :=
  ⟨_, by decide, fun es => by simp [runState, at_, State.reset], rfl⟩

/- CheckRunsInOrder. -/
theorem test_witness_check : (at_ 0x1005 .check 11).phase = .check := rfl

/- EveryEndOfCommandZeroesKey; its last clause at code BUS. -/
theorem test_witness_end_of_command :
    ∃ t, busState.Inv ∧ step busState = .next t ∧ busState.busy = true ∧ t.busy = false ∧ t.inReset = false ∧
      t.errcode ≠ .ok := ⟨_, test_inv_busState, rfl, rfl, rfl, rfl, by decide⟩

/- RegisterReadsReturn: a plain register, STATUS, and the first and last key register. -/
theorem test_witness_register_reads :
    runState.inReset = false ∧ ((0x08 = 0x08) ∧ (0x1000 : Word) = runState.srcAddr) ∧
      ((0x04 = 0x04) ∧ (0x00000001 : Word).toNat = runState.errcode.bits.toNat * 256
        + (if runState.phase = .rngWait then 8 else 0) + (if runState.ovr then 4 else 0) + (if runState.done then 2 else 0)
        + (if runState.phase = .idle then 0 else 1)) ∧
      (0x20 ≤ 0x20 ∧ 0x20 ≤ 0x3C ∧ 0x20 % 4 = 0 ∧ (0 : Word) = 0) ∧
      (0x20 ≤ 0x3C ∧ 0x3C ≤ 0x3C ∧ 0x3C % 4 = 0 ∧ (0 : Word) = 0) ∧ runState.busy = true := by decide

/- CmdWriteIsAccepted, OperandWriteWhileIdle, StatusWriteClears, IrqEnAndOutLenWrites; key registers 0 and 7. -/
theorem test_witness_idle_writes :
    State.reset.inReset = false ∧ State.reset.phase = .idle ∧ State.reset.ovr = false ∧ 0 < 8 ∧ 7 < 8 ∧ 31 < 32 := by decide

/- LockedWriteWhileBusySetsOvr: CMD, and the first and last key register. -/
theorem test_witness_locked_write :
    runState.inReset = false ∧ runState.busy = true ∧ 0x00 = 0x00 ∧ (0x20 ≤ 0x20 ∧ 0x20 ≤ 0x3C ∧ 0x20 % 4 = 0) ∧
      (0x20 ≤ 0x3C ∧ 0x3C ≤ 0x3C ∧ 0x3C % 4 = 0) := by decide

/- IllegalAccessChangesNothing: a byte access, a misaligned one, the first offset past the window. -/
theorem test_witness_illegal_access :
    State.reset.inReset = false ∧ AccessSize.byte ≠ .word ∧ 0x02 % 4 ≠ 0 ∧ 0x3C < 0x40 := by decide

/- OvrIsSticky: OVR set by a write at offset 0x3C, cleared by a STATUS write, cleared by reset. -/
theorem test_witness_ovr :
    ∃ t u v, runState.inReset = false ∧ runState.busy = true ∧ (0x20 ≤ 0x3C ∧ 0x3C ≤ 0x3C ∧ 0x3C % 4 = 0) ∧
      step { runState with events := [.host (.regWrite .word 0x3C 0x40)] } = .next t ∧ runState.ovr = false ∧ t.ovr = true ∧
      step { runState with ovr := true, events := [.host (.regWrite .word 0x04 0x6)] } = .next u ∧
      (0x6 : Word).toNat / 4 % 2 = 1 ∧ u.ovr = false ∧
      step { runState with ovr := true, events := [.resetAssert] } = .next v ∧ v.ovr = false :=
  ⟨_, _, _, rfl, rfl, by decide, rfl, rfl, rfl, rfl, by decide, rfl, rfl, rfl⟩

/- IrqFollowsDoneAndEnable. -/
theorem test_witness_irq :
    (2 : Word).toNat / 2 % 2 = 1 ∧ (0 : Word).toNat % 2 = 0 ∧ (1 : Word).toNat % 2 = 1 ∧
      ({ State.reset with done := true } : State).done = true := by decide

/- BufferRaceFaults: an access to the last source byte, one to the byte after it, one at the top of the buffer space, one
while idle after reset, where CMD_LAST is illegal, and one while an illegal word waits for CHECK. -/
theorem test_witness_buffer_race :
    1 = [(0xAA : Byte)].length ∧ 0x100A + 1 ≤ 2 ^ 32 ∧ 0x100B + 1 ≤ 2 ^ 32 ∧ 0xFFFFFFFF + 1 ≤ 2 ^ 32 ∧
      plainRegion runState.platform ⟨0x100A, 1⟩ ∧ plainRegion runState.platform ⟨0x100B, 1⟩ ∧
      (runState.busy = true ∧ ∃ c, 0x100A ≤ c ∧ c < 0x100A + 1 ∧ ∃ i, decode runState.cmdLast = .cmd i ∧
        ((runState.src ≤ c ∧ c < runState.src + runState.len) ∨
          (runState.dst ≤ c ∧ c < runState.dst + outmaxOf i runState.len))) ∧
      (∀ c, 0x100B ≤ c → c < 0x100B + 1 → ¬∃ i, decode runState.cmdLast = .cmd i ∧
        ((runState.src ≤ c ∧ c < runState.src + runState.len) ∨
          (runState.dst ≤ c ∧ c < runState.dst + outmaxOf i runState.len))) ∧
      State.reset.busy = false ∧ (at_ 0 .check 11).busy = true ∧ ∀ i, decode (at_ 0 .check 11).cmdLast ≠ .cmd i := by
  have e1 : runState.src = 0x1000 := rfl
  have e2 : runState.len = 11 := rfl
  have e3 : runState.dst = 0x2000 := rfl
  have e4 : decode runState.cmdLast = .cmd .encCfb := by decide
  refine ⟨rfl, by decide, by decide, by decide, rfl, rfl, ⟨rfl, 0x100A, by decide, by decide, .encCfb, e4, ?_⟩, fun c h1 h2 => ?_,
    rfl, rfl, fun i e =>
      Decoded.noConfusion ((show decode (at_ 0 .check 11).cmdLast = .illegal .unassignedOp by decide).symm.trans e)⟩
  · rw [e1, e2]; omega
  · rintro ⟨i, hi, h⟩
    rw [e4] at hi
    cases hi
    rw [e1, e2, e3] at h
    simp only [outmaxOf] at h
    omega

/- BufferRaceFaults, the mark: set by a racing write, kept by reset. -/
theorem test_witness_race_mark :
    ∃ t u, step { runState with events := [.host (.memWrite 0x100A [0xAA])] } = .next t ∧ runState.bufferRace = false ∧
      t.bufferRace = true ∧ step { runState with bufferRace := true, events := [.resetAssert] } = .next u ∧
      u.bufferRace = true := ⟨_, _, rfl, rfl, by decide, rfl, rfl⟩

/- RandomSourceAnswersOrHolds, with each schedule. -/
theorem test_witness_random_source :
    rngState.Inv ∧ rngState.phase = .rngWait ∧ decode rngState.cmdLast = .cmd .encCbc ∧ rngState.events = [] ∧
      State.Inv { rngState with events := [.engine] } ∧ State.Inv { rngState with events := [.rng (.ok iv0)] } ∧
      State.Inv { rngState with events := [.rng .fail] } :=
  ⟨test_inv_rngState, rfl, by decide, rfl, inv_events _ _ test_inv_rngState, inv_events _ _ test_inv_rngState,
    inv_events _ _ test_inv_rngState⟩

/- UnrequestedAnswerIsDiscarded. -/
theorem test_witness_unrequested_answer :
    ({ runState with events := [.rng .fail] } : State).phase ≠ .rngWait ∧
      ({ runState with events := [.rng .fail] } : State).events = .rng .fail :: [] := by decide

/- EncryptionWritesIvFirst. -/
theorem test_witness_iv_write :
    runState.phase = .run ∧ runState.ivMoved = false ∧ servedRegion runState.platform ⟨runState.dst, 16⟩ :=
  ⟨rfl, rfl, servedRegion_reset _ (by decide)⟩

/- DecryptionReadsIvFirst. -/
theorem test_witness_iv_read :
    (at_ 0x2 .run 27).phase = .run ∧ (at_ 0x2 .run 27).ivMoved = false ∧
      servedRegion (at_ 0x2 .run 27).platform ⟨(at_ 0x2 .run 27).src, 16⟩ ∧
      plainRegion (at_ 0x2 .run 27).platform ⟨(at_ 0x2 .run 27).src, 16⟩ ∧ (at_ 0x2 .run 27).raced = false :=
  ⟨rfl, rfl, servedRegion_reset _ (by decide), rfl, rfl⟩

/- EncCfbSegmentStep, a partial segment; EncCbcBlockStep, the last block. -/
theorem test_witness_enc_step :
    ∃ s : State, s.raced = false ∧ s.phase = .run ∧ s.ivMoved = true ∧ s.posn < s.len ∧ s.posn % 16 = 0 ∧ s.posn < 16 * (s.len / 16 + 1) ∧
      servedRegion s.platform ⟨s.src + s.posn, min 16 (s.len - s.posn)⟩ ∧
      plainRegion s.platform ⟨s.src + s.posn, min 16 (s.len - s.posn)⟩ ∧
      servedRegion s.platform ⟨s.dst + 16 + s.posn, min 16 (s.len - s.posn)⟩ ∧
      servedRegion s.platform ⟨s.dst + 16 + s.posn, 16⟩ :=
  ⟨{ runState with ivMoved := true }, rfl, rfl, rfl, by decide, by decide, by decide, servedRegion_reset _ (by decide), rfl,
    servedRegion_reset _ (by decide), servedRegion_reset _ (by decide)⟩

/- DecCfbSegmentStep; DecCbcBlockStep, with five padding bytes. -/
theorem test_witness_dec_step :
    ∃ s : State, s.raced = false ∧ s.phase = .run ∧ s.ivMoved = true ∧ 16 ≤ s.posn ∧ s.posn < s.len ∧
      servedRegion s.platform ⟨s.src + s.posn, min 16 (s.len - s.posn)⟩ ∧
      plainRegion s.platform ⟨s.src + s.posn, min 16 (s.len - s.posn)⟩ ∧
      servedRegion s.platform ⟨s.dst + (s.posn - 16), min 16 (s.len - s.posn)⟩ ∧
      servedRegion s.platform ⟨s.src + s.posn, 16⟩ ∧ plainRegion s.platform ⟨s.src + s.posn, 16⟩ ∧
      servedRegion s.platform
        ⟨s.dst + (s.posn - 16), min 16 (16 * ((s.len - 16) / 16) - s.padv.toNat - (s.posn - 16))⟩ :=
  ⟨{ at_ 0x4 .run 32 with ivMoved := true, pos := 16, padv := 5 }, rfl, rfl, rfl, by decide, by decide,
    servedRegion_reset _ (by decide), rfl, servedRegion_reset _ (by decide), servedRegion_reset _ (by decide), rfl,
    servedRegion_reset _ (by decide)⟩

/- PaddingCommandsCopyOneByte, for both commands, at the last byte. -/
theorem test_witness_copy :
    ∃ s : State, s.raced = false ∧ s.phase = .run ∧ s.posn < s.len ∧ s.posn < s.len - s.padv.toNat ∧
      servedRegion s.platform ⟨s.src + s.posn, 1⟩ ∧ plainRegion s.platform ⟨s.src + s.posn, 1⟩ ∧
      servedRegion s.platform ⟨s.dst + s.posn, 1⟩ :=
  ⟨{ at_ 0x1006 .run 11 with pos := 9, padv := 1 }, rfl, rfl, by decide, by decide, servedRegion_reset _ (by decide), rfl,
    servedRegion_reset _ (by decide)⟩

/- PadAppendsAndCompletes, with a whole block of padding. -/
theorem test_witness_pad_end :
    ∃ s : State, s.phase = .run ∧ s.posn = s.len ∧ (16 : BitVec 8) ≠ 0 ∧ outputFree s = false ∧
      servedRegion s.platform ⟨s.dst + s.len, (16 : BitVec 8).toNat - s.len % (16 : BitVec 8).toNat⟩ :=
  ⟨at_ 0x1005 .run 0, rfl, rfl, by decide, rfl, servedRegion_reset _ (by decide)⟩

/- RunCompletesWhenNothingIsLeft, each clause. -/
theorem test_witness_run_end :
    (∃ s : State, s.phase = .run ∧ outputFree s = false ∧ s.ivMoved = true ∧ s.len ≤ s.posn ∧
        16 * (s.len / 16 + 1) ≤ s.posn) ∧
      ∃ s : State, s.phase = .run ∧ outputFree s = false ∧ s.len - s.padv.toNat ≤ s.posn :=
  ⟨⟨{ at_ 0x4 .run 32 with pos := 48, ivMoved := true }, rfl, rfl, rfl, by decide, by decide⟩,
    ⟨{ at_ 0x1006 .run 11 with pos := 10, padv := 1 }, rfl, rfl, by decide⟩⟩

/- DecCbcPrecheckDecidesPadding with no payload block. -/
theorem test_witness_cbc_precheck_empty :
    (at_ 0x4 .precheck 16).phase = .precheck ∧ ((at_ 0x4 .precheck 16).len - 16) / 16 = 0 := by decide

/- UnpadPrecheckDecidesPadding, both clauses: V-UNPAD-3 and V-UNPAD-5. -/
theorem test_witness_unpad_precheck :
    ∃ s u : State, s.raced = false ∧ u.raced = false ∧ (s.phase = .precheck ∧ servedRegion s.platform s.srcr ∧ plainRegion s.platform s.srcr ∧
        pkcs7Valid (s.mem.readRange s.src s.len) (4 : BitVec 8).toNat s.len = true) ∧
      u.phase = .precheck ∧ servedRegion u.platform u.srcr ∧ plainRegion u.platform u.srcr ∧
        pkcs7Valid (u.mem.readRange u.src u.len) (16 : BitVec 8).toNat u.len = false :=
  ⟨{ at_ 0x406 .precheck 4 with mem := Memory.writeRange [] 0x1000 [4, 4, 4, 4] },
    { at_ 0x1006 .precheck 3 with mem := Memory.writeRange [] 0x1000 [0x61, 0x62, 0] },
    rfl, rfl, ⟨rfl, servedRegion_reset _ (by decide), rfl, by decide⟩, rfl, servedRegion_reset _ (by decide), rfl, by decide⟩

/-- The state of a DEC_CBC on `cbcMemory b`, in a phase. -/
def cbcState (ph : Phase) (b : Block) : State := { at_ 0x4 ph 32 with mem := cbcMemory b }

/-- What the ciphertext of `cbcMemory` reads as. -/
theorem test_cbcMemory_block (b : Block) : (cbcMemory b).readRange 0x1010 16 = (Config.E kz b).1 := by
  have h := Memory.readRange_writeRange (Memory.writeRange [] 0x1000 (List.replicate 16 0)) 0x1010 (Config.E kz b).1
    (by rw [length_block]; decide)
  rwa [length_block] at h

theorem test_cbcMemory_iv (b : Block) : (cbcMemory b).readRange 0x1000 16 = zeroBlock.1 := by
  unfold cbcMemory
  rw [Memory.readRange_writeRange_disjoint _ _ _ _ _ (by rw [length_block]; omega)]
  decide

/-- The final block of `cbcMemory b` decrypts to `b`. -/
theorem test_cbc_final_block (b : Block) :
    xorBlock (Config.D kz (blockOfBytes ((cbcMemory b).readRange 0x1010 16)))
      (blockOfBytes ((cbcMemory b).readRange 0x1000 16)) = xorBlock b zeroBlock := by
  rw [test_cbcMemory_block, test_cbcMemory_iv, blockOfBytes_block, blockOfBytes_block, cipher_D_E]

/- DecCbcPrecheckDecidesPadding: a valid padding of 16 bytes, and a padding byte of 0. -/
theorem test_witness_cbc_precheck_valid :
    (cbcState .precheck (sixteen 16)).raced = false ∧ (cbcState .precheck (sixteen 16)).phase = .precheck ∧ ((cbcState .precheck (sixteen 16)).len - 16) / 16 = 1 ∧
      servedRegion (cbcState .precheck (sixteen 16)).platform ⟨(cbcState .precheck (sixteen 16)).src + 16 * (1 - 1), 32⟩ ∧
      plainRegion (cbcState .precheck (sixteen 16)).platform ⟨(cbcState .precheck (sixteen 16)).src + 16 * (1 - 1), 32⟩ ∧
      pkcs7Valid (xorBlock (Config.D (cbcState .precheck (sixteen 16)).key
        (blockOfBytes ((cbcState .precheck (sixteen 16)).mem.readRange 0x1010 16)))
        (blockOfBytes ((cbcState .precheck (sixteen 16)).mem.readRange 0x1000 16))).1 16 (16 * 1) = true :=
  ⟨rfl, rfl, by decide, servedRegion_reset _ (by decide), rfl,
    (congrArg (fun b : Block => pkcs7Valid b.1 16 16) (test_cbc_final_block (sixteen 16))).trans (by decide)⟩

theorem test_witness_cbc_precheck_invalid :
    pkcs7Valid (xorBlock (Config.D (cbcState .precheck (sixteen 0)).key
      (blockOfBytes ((cbcState .precheck (sixteen 0)).mem.readRange 0x1010 16)))
      (blockOfBytes ((cbcState .precheck (sixteen 0)).mem.readRange 0x1000 16))).1 16 (16 * 1) = false :=
  (congrArg (fun b : Block => pkcs7Valid b.1 16 16) (test_cbc_final_block (sixteen 0))).trans (by decide)

/- EncCfbWritesIvAndCiphertext. -/
theorem test_witness_enc_cfb :
    runState.Running .encCfb ∧ runState.GoodBuffers .encCfb ∧ runState.pos = 0 ∧ runState.ivMoved = false :=
  ⟨⟨⟨rfl, rfl, rfl⟩, rfl, by decide, by decide, by decide⟩,
    ⟨servedRegion_reset _ (by decide), servedRegion_reset _ (by decide), rfl, rfl, rfl⟩, rfl, rfl⟩

/- EncCbcWritesIvAndCiphertext. -/
theorem test_witness_enc_cbc :
    ∃ s : State, s.Running .encCbc ∧ s.GoodBuffers .encCbc ∧ s.pos = 0 ∧ s.ivMoved = false :=
  ⟨{ at_ 0x3 .run 11 with outmax := 32, ivb := iv0 }, ⟨⟨rfl, rfl, rfl⟩, rfl, by decide, by decide, by decide⟩,
    ⟨servedRegion_reset _ (by decide), servedRegion_reset _ (by decide), rfl, rfl, rfl⟩, rfl, rfl⟩

/-- The hypotheses of a whole command from CHECK. -/
def FromCheck (i : Instr) (s : State) : Prop :=
  s.Free ∧ s.phase = .check ∧ s.HiddenZero ∧ decode s.cmdLast = .cmd i ∧ checkError i s = none ∧ s.GoodBuffers i

/- DecCfbWritesPlaintext. -/
theorem test_witness_dec_cfb : FromCheck .decCfb (at_ 0x2 .check 27) :=
  ⟨⟨rfl, rfl, rfl⟩, rfl, ⟨rfl, rfl, rfl, rfl, rfl, rfl, rfl⟩, by decide, by decide,
    test_good_buffers _ _ _ _ (by decide) (by decide)⟩

/- DecCbcWritesPlaintextOrFailsPadding, with the ciphertexts of the two PRECHECK witnesses. -/
theorem test_witness_dec_cbc :
    FromCheck .decCbc (cbcState .check (sixteen 16)) ∧ FromCheck .decCbc (cbcState .check (sixteen 0)) :=
  ⟨⟨⟨rfl, rfl, rfl⟩, rfl, ⟨rfl, rfl, rfl, rfl, rfl, rfl, rfl⟩, by decide, by decide,
      ⟨servedRegion_reset _ (by decide), servedRegion_reset _ (by decide), rfl, rfl, rfl⟩⟩,
    ⟨rfl, rfl, rfl⟩, rfl, ⟨rfl, rfl, rfl, rfl, rfl, rfl, rfl⟩, by decide, by decide,
    ⟨servedRegion_reset _ (by decide), servedRegion_reset _ (by decide), rfl, rfl, rfl⟩⟩

/- PadWritesPaddedData. -/
theorem test_witness_pad : FromCheck (.pad 16) (at_ 0x1005 .check 11) :=
  ⟨⟨rfl, rfl, rfl⟩, rfl, ⟨rfl, rfl, rfl, rfl, rfl, rfl, rfl⟩, by decide, by decide,
    test_good_buffers _ _ _ _ (by decide) (by decide)⟩

/- UnpadWritesDataOrFailsPadding. -/
theorem test_witness_unpad : FromCheck (.unpad 16) (at_ 0x1006 .check 11) :=
  ⟨⟨rfl, rfl, rfl⟩, rfl, ⟨rfl, rfl, rfl, rfl, rfl, rfl, rfl⟩, by decide, by decide,
    test_good_buffers _ _ _ _ (by decide) (by decide)⟩

/- EngineFinishesWithinBound. -/
theorem test_witness_finishes :
    runState.Inv ∧ runState.Free ∧ runState.phase ≠ .idle ∧ decode runState.cmdLast = .cmd .encCfb ∧
      answeredRegion runState.platform runState.srcr ∧ answeredRegion runState.platform (runState.dstr .encCfb) :=
  ⟨test_inv_runState, ⟨rfl, rfl, rfl⟩, by decide, by decide,
    fun c h e => BusAnswer.noConfusion ((servedRegion_reset runState.srcr (by decide) c h).symm.trans e),
    fun c h e => BusAnswer.noConfusion ((servedRegion_reset (runState.dstr .encCfb) (by decide) c h).symm.trans e)⟩

/- CfbErrorSpread, CbcTamperLocality (both clauses), UnpadInvertsPad and ValidatorIsStrict at the ends of their ranges,
FinalBlockDecidesPadding at m = 0 and m = 1. -/
theorem test_witness_functions :
    (15 < 16 ∧ 16 * 1 + 16 ≤ (List.replicate 32 (0 : Byte)).length) ∧ (List.replicate 32 (0 : Byte)).length % 16 = 0 ∧
      16 ≤ (List.replicate 32 (0 : Byte)).length ∧ 16 * 0 + 32 ≤ (List.replicate 32 (0 : Byte)).length ∧
      (1 ≤ 1 ∧ 1 ≤ 255) ∧ (1 ≤ 255 ∧ 255 ≤ 255) ∧ (List.replicate 16 (0 : Byte)).length = 16 * (0 + 1) ∧
      (List.replicate 32 (0 : Byte)).length = 16 * (1 + 1) := by decide

/- FailedCommandLeavesMemory: a PADDING completion in PRECHECK; EngineWritesOnlyDestination, the same step. -/
theorem test_witness_failed_command :
    ∃ t, preState.Inv ∧ preState.events = [] ∧ step preState = .next t ∧ preState.busy = true ∧ t.busy = false ∧
      t.errcode ≠ .ok ∧ t.errcode ≠ .bus ∧ preState.phase ≠ .run ∧ decode preState.cmdLast = .cmd (.unpad 16) :=
  ⟨_, test_inv_preState, rfl, rfl, rfl, rfl, by decide, by decide, by decide, by decide⟩

/- BusErrorScramblesDestination. -/
theorem test_witness_bus_error :
    ∃ t, busState.Inv ∧ busState.events = [] ∧ step busState = .next t ∧ busState.busy = true ∧
      decode busState.cmdLast = .cmd (.pad 16) ∧ t.busy = false ∧ t.errcode = .bus :=
  ⟨_, test_inv_busState, rfl, rfl, rfl, by decide, rfl, rfl⟩

/-- A state with a bus that answers no access to an address of a region. -/
def hanging (s : State) (r : Region) : State :=
  { s with platform := { State.reset.platform with dmaAdmit := [⟨0, r.base⟩], dmaHang := [r] } }

/-- A state with a bus that serves nothing from an address up. -/
def servedBelow (s : State) (a : Nat) : State := { s with platform := { State.reset.platform with dmaAdmit := [⟨0, a⟩] } }

/-- The hypotheses of UnservedByteRaisesBus (`error`) and HungBusHoldsEngine (`never`) at the byte of index `k`. -/
def FailsAt (i : Instr) (s : State) (k : Nat) (ans : BusAnswer) : Prop :=
  k < (stepAddresses i s).length ∧ (∀ j < k, busAnswer s.platform ((stepAddresses i s).getD j 0) = .ok) ∧
    busAnswer s.platform ((stepAddresses i s).getD k 0) = ans

/- UnservedByteRaisesBus: the first and the last byte of the IV write, a payload write, a copied byte, a padding byte. -/
theorem test_witness_unserved_run :
    FailsAt .encCfb (servedBelow runState 0) 0 .error ∧ FailsAt .encCfb (servedBelow runState 0x200F) 15 .error ∧
      FailsAt .encCfb (servedBelow { runState with ivMoved := true } 0x2010) 11 .error ∧
      FailsAt (.pad 16) (servedBelow (at_ 0x1005 .run 11) 0x1000) 0 .error ∧
      FailsAt (.pad 16) (servedBelow { at_ 0x1005 .run 11 with pos := 11 } 0x200F) 4 .error := by
  unfold FailsAt
  decide

/- UnservedByteRaisesBus in PRECHECK (V-ERR-11), and a step whose every access is served. -/
theorem test_witness_unserved_precheck :
    FailsAt .decCbc (servedBelow (at_ 0x4 .precheck 32) 0x1010) 16 .error ∧
      FailsAt (.unpad 16) (servedBelow (at_ 0x1006 .precheck 11) 0) 0 .error ∧ runState.errcode ≠ .bus ∧
      ∀ c ∈ stepAddresses .encCfb runState, busAnswer runState.platform c = .ok := by
  unfold FailsAt
  decide

/- HungBusHoldsEngine: the IV write, a read of each PRECHECK; and a held engine. -/
theorem test_witness_hung :
    FailsAt .encCfb (hanging runState ⟨0x2008, 1⟩) 8 .never ∧
      FailsAt .decCbc (hanging (at_ 0x4 .precheck 32) ⟨0x1010, 16⟩) 16 .never ∧
      FailsAt (.unpad 16) (hanging (at_ 0x1006 .precheck 11) ⟨0, 0x2000⟩) 0 .never ∧
      ({ runState with busHung := true } : State).busHung = true ∧ runState.events = [] := by
  unfold FailsAt
  decide

/- NonPlainMemoryScramblesOutput: a race, and the register window over the last source byte. -/
theorem test_witness_non_plain :
    (runState.dst + runState.outmax.toNat ≤ 2 ^ 32 ∧ ({ runState with raced := true } : State).raced = true) ∧
      ∃ s : State, s.dst + s.outmax.toNat ≤ 2 ^ 32 ∧ ∃ c, (nonPlainRegions s.platform).any (fun r => r.has c) = true ∧
        ((s.src ≤ c ∧ c < s.src + s.len) ∨ (s.dst ≤ c ∧ c < s.dst + s.outmax.toNat)) :=
  ⟨⟨by decide, rfl⟩, { runState with platform := { State.reset.platform with base := 0x100A, windowInBuffer := true } }, by decide, 0x100A,
    by decide, .inl (by decide)⟩

/- LoadKeySetsTheKey, each length. -/
theorem test_witness_load_key :
    State.reset.inReset = false ∧ State.reset.phase = .idle ∧ (List.replicate 16 (1 : Byte)).length = 16 ∧
      (List.replicate 24 (1 : Byte)).length = 24 ∧ (List.replicate 32 (1 : Byte)).length = 32 := by decide

/- HostAccessRevealsNoKey: a read of a key register. -/
theorem test_witness_host_access : ∃ t, hostStep (.regRead .word 0x20) runState = .next t := ⟨_, rfl⟩

/- UnusedKeyBytesAreIgnored: KEY4 written under a key of 16 bytes. -/
theorem test_witness_unused_key :
    ∃ s t : State, ({ s.keys with key4 := 1 } : KeyRegs).bytes.take s.keyLen.toNat = s.keys.bytes.take s.keyLen.toNat ∧
      exec .encCfb s = .next t :=
  ⟨{ runState with keyLen := 16 }, _, by decide, rfl⟩

/- ResetStateReadsZero at its last offset; ResetRestoresTheBlock, in reset, busy and idle. -/
theorem test_witness_reset :
    (resetAssert runState).inReset = true ∧
    (0x3C % 4 = 0 ∧ 0x3C ≤ 0x3C) ∧ ({ runState with events := [.resetAssert] } : State).events = .resetAssert :: [] ∧
      State.reset.busy = false ∧ decode runState.cmdLast = .cmd .encCfb ∧ runState.busy = true := by decide

end Sys2Proof.Tests
end

section
/-!
SUPPORT. What an engine step leaves unchanged, said once for every command and every phase: the registers that only the host
and the reset input write, the marks, the platform and the schedule.
-/

namespace Sys2Proof.Machine

/-! ### The part of the state that no engine step writes -/

/-- What no engine step writes, every other field at its reset value. States that agree on this part agree on each of these
fields, and an update of another field does not show in it. -/
def State.hostSide (s : State) : State :=
  { State.reset with
    cmdLast := s.cmdLast
    ovr := s.ovr
    srcAddr := s.srcAddr
    dstAddr := s.dstAddr
    srcLen := s.srcLen
    doneIe := s.doneIe
    inReset := s.inReset
    resp := s.resp
    badRegAccess := s.badRegAccess
    bufferRace := s.bufferRace
    platform := s.platform
    events := s.events }

theorem ovr_eq_of_hostSide {s t : State} (h : t.hostSide = s.hostSide) : t.ovr = s.ovr :=
  show t.hostSide.ovr = s.hostSide.ovr from congrArg State.ovr h

@[simp] theorem completion_hostSide (s : State) (code : ResultCode) (n : Nat) :
    (completion s code n).hostSide = s.hostSide := rfl

@[simp] theorem raiseError_hostSide (s : State) (code : ResultCode) : (raiseError s code).hostSide = s.hostSide := rfl

@[simp] theorem raiseBus_hostSide (s : State) : (raiseBus s).hostSide = s.hostSide := rfl

@[simp] theorem complete_hostSide (s : State) (n : Nat) : (complete s n).hostSide = s.hostSide := by
  unfold complete
  split <;> rfl

@[simp] theorem check_hostSide (i : Instr) (s : State) : (check i s).hostSide = s.hostSide := by
  unfold check
  split <;> rfl

@[simp] theorem checkIllegal_hostSide (s : State) : (checkIllegal s).hostSide = s.hostSide := by
  unfold checkIllegal
  split <;> rfl

@[simp] theorem awaitRandom_hostSide (s : State) : (awaitRandom s).hostSide = s.hostSide := by
  unfold awaitRandom
  split <;> rfl

/-! ### Accesses that keep it -/

/-- Every state that an access can end in, served or not, has the host's side of `s`. -/
def Access.KeepsHostSide {α : Type} (s : State) (x : Access α) : Prop :=
  x.Holds (fun _ t => t.hostSide = s.hostSide) fun t => t.hostSide = s.hostSide

theorem keepsHostSide_bind {α β : Type} {s : State} {x : Access α} {f : α → State → Access β}
    (hx : x.KeepsHostSide s) (hf : ∀ v t, t.hostSide = s.hostSide → (f v t).KeepsHostSide s) :
    (x.bind f).KeepsHostSide s :=
  Access.holds_bind (hx.imp hf fun _ h => h)

theorem dmaRead_keepsHostSide {s t : State} (h : t.hostSide = s.hostSide) (a n : Nat) :
    (dmaRead t a n).KeepsHostSide s :=
  have key : ∀ u, OnlyDrew t u → u.hostSide = s.hostSide := by
    rintro u ⟨d, rfl⟩
    exact h
  (dmaRead_holds t a n).imp (fun _ u hu => key u hu.2) key

theorem dmaWrite_keepsHostSide {s t : State} (h : t.hostSide = s.hostSide) (a : Nat) (bs : List Byte) :
    (dmaWrite t a bs).KeepsHostSide s :=
  have key : ∀ u, OnlyWrote a bs.length t u → u.hostSide = s.hostSide := by
    rintro u ⟨m, rfl, -, -⟩
    exact h
  (dmaWrite_holds t a bs).imp (fun _ u hu => key u hu) key

theorem settle_hostSide {s : State} {x : Access Unit} (h : x.KeepsHostSide s) : (settle x).hostSide = s.hostSide :=
  settle_of_holds (R := fun t => t.hostSide = s.hostSide) h (fun _ ht => ht) (fun t ht => (raiseBus_hostSide t).trans ht)
    fun _ ht => ht

/-! ### The units of RUN and PRECHECK -/

/-- The shape of RUN of the four cipher commands: the IV access, then units of data, then the completion. -/
theorem ivThenUnits_keepsHostSide {s : State} {c d : Prop} [Decidable c] [Decidable d] {iv unit : Access Unit}
    (hiv : iv.KeepsHostSide s) (hunit : unit.KeepsHostSide s) (n : Nat) :
    (if c then iv else if d then unit else .ok () (complete s n)).KeepsHostSide s := by
  split
  · exact hiv
  split
  · exact hunit
  · exact complete_hostSide s n

theorem prependIv_keepsHostSide (s : State) : (prependIv s).KeepsHostSide s :=
  keepsHostSide_bind (dmaWrite_keepsHostSide rfl _ _) fun _ _ ht => ht

theorem splitIv_keepsHostSide (s : State) : (splitIv s).KeepsHostSide s :=
  keepsHostSide_bind (dmaRead_keepsHostSide rfl _ _) fun _ _ ht => ht

theorem copyByte_keepsHostSide (s : State) : (copyByte s).KeepsHostSide s :=
  keepsHostSide_bind (dmaRead_keepsHostSide rfl _ _) fun _ _ ht =>
    keepsHostSide_bind (dmaWrite_keepsHostSide ht _ _) fun _ _ hu => hu

theorem encCfbSegment_keepsHostSide (E : Block → Block) (s : State) : (encCfbSegment E s).KeepsHostSide s :=
  keepsHostSide_bind (dmaRead_keepsHostSide rfl _ _) fun _ _ ht =>
    keepsHostSide_bind (dmaWrite_keepsHostSide (by exact ht) _ _) fun _ _ hu => hu

theorem decCfbSegment_keepsHostSide (E : Block → Block) (s : State) : (decCfbSegment E s).KeepsHostSide s :=
  keepsHostSide_bind (dmaRead_keepsHostSide rfl _ _) fun _ _ ht =>
    keepsHostSide_bind (dmaWrite_keepsHostSide (by exact ht) _ _) fun _ _ hu => hu

theorem encCbcBlock_keepsHostSide (E : Block → Block) (s : State) : (encCbcBlock E s).KeepsHostSide s :=
  keepsHostSide_bind (dmaRead_keepsHostSide rfl _ _) fun _ _ ht =>
    keepsHostSide_bind (dmaWrite_keepsHostSide (by exact ht) _ _) fun _ _ hu => hu

theorem decCbcBlock_keepsHostSide (D : Block → Block) (s : State) : (decCbcBlock D s).KeepsHostSide s :=
  keepsHostSide_bind (dmaRead_keepsHostSide rfl _ _) fun _ _ ht =>
    keepsHostSide_bind (dmaWrite_keepsHostSide (by exact ht) _ _) fun _ _ hu => hu

theorem encCfbRun_keepsHostSide (E : Block → Block) (s : State) : (encCfbRun E s).KeepsHostSide s :=
  ivThenUnits_keepsHostSide (prependIv_keepsHostSide s) (encCfbSegment_keepsHostSide E s) _

theorem decCfbRun_keepsHostSide (E : Block → Block) (s : State) : (decCfbRun E s).KeepsHostSide s :=
  ivThenUnits_keepsHostSide (splitIv_keepsHostSide s) (decCfbSegment_keepsHostSide E s) _

theorem encCbcRun_keepsHostSide (E : Block → Block) (s : State) : (encCbcRun E s).KeepsHostSide s :=
  ivThenUnits_keepsHostSide (prependIv_keepsHostSide s) (encCbcBlock_keepsHostSide E s) _

theorem decCbcRun_keepsHostSide (D : Block → Block) (s : State) : (decCbcRun D s).KeepsHostSide s :=
  ivThenUnits_keepsHostSide (splitIv_keepsHostSide s) (decCbcBlock_keepsHostSide D s) _

theorem decCbcPrecheck_keepsHostSide (D : Block → Block) (s : State) : (decCbcPrecheck D s).KeepsHostSide s := by
  unfold decCbcPrecheck
  dsimp only
  split
  · rfl
  · refine keepsHostSide_bind (dmaRead_keepsHostSide rfl _ _) fun prev t ht => ?_
    refine keepsHostSide_bind (dmaRead_keepsHostSide ht _ _) fun last u hu => ?_
    split
    · exact hu
    · exact hu

theorem padRun_keepsHostSide (bs : Nat) (s : State) : (padRun bs s).KeepsHostSide s := by
  unfold padRun
  split
  · exact copyByte_keepsHostSide s
  · exact keepsHostSide_bind (dmaWrite_keepsHostSide rfl _ _) fun _ t ht => (complete_hostSide t _).trans ht

theorem unpadPrecheck_keepsHostSide (bs : Nat) (s : State) : (unpadPrecheck bs s).KeepsHostSide s := by
  unfold unpadPrecheck
  split
  · rfl
  · refine keepsHostSide_bind (dmaRead_keepsHostSide rfl _ _) fun last t ht => ?_
    dsimp only
    split
    · exact ht
    · refine keepsHostSide_bind (dmaRead_keepsHostSide (by exact ht) _ _) fun tail u hu => ?_
      split
      · exact hu
      · exact hu

theorem unpadRun_keepsHostSide (s : State) : (unpadRun s).KeepsHostSide s := by
  unfold unpadRun
  split
  · exact copyByte_keepsHostSide s
  · exact complete_hostSide s _

/-! ### The commands and the engine step -/

theorem encCfbStep_hostSide (E : Block → Block) (s : State) : (encCfbStep E s).hostSide = s.hostSide := by
  unfold encCfbStep
  cases s.phase with
  | check => exact check_hostSide _ s
  | rngWait => exact awaitRandom_hostSide s
  | run => exact settle_hostSide (encCfbRun_keepsHostSide E s)
  | _ => rfl

theorem decCfbStep_hostSide (E : Block → Block) (s : State) : (decCfbStep E s).hostSide = s.hostSide := by
  unfold decCfbStep
  cases s.phase with
  | check => exact check_hostSide _ s
  | run => exact settle_hostSide (decCfbRun_keepsHostSide E s)
  | _ => rfl

theorem encCbcStep_hostSide (E : Block → Block) (s : State) : (encCbcStep E s).hostSide = s.hostSide := by
  unfold encCbcStep
  cases s.phase with
  | check => exact check_hostSide _ s
  | rngWait => exact awaitRandom_hostSide s
  | run => exact settle_hostSide (encCbcRun_keepsHostSide E s)
  | _ => rfl

theorem decCbcStep_hostSide (D : Block → Block) (s : State) : (decCbcStep D s).hostSide = s.hostSide := by
  unfold decCbcStep
  cases s.phase with
  | check => exact check_hostSide _ s
  | precheck => exact settle_hostSide (decCbcPrecheck_keepsHostSide D s)
  | run => exact settle_hostSide (decCbcRun_keepsHostSide D s)
  | _ => rfl

theorem padStep_hostSide (bs : BitVec 8) (s : State) : (padStep bs s).hostSide = s.hostSide := by
  unfold padStep
  cases s.phase with
  | check => exact check_hostSide _ s
  | run => exact settle_hostSide (padRun_keepsHostSide _ s)
  | _ => rfl

theorem unpadStep_hostSide (bs : BitVec 8) (s : State) : (unpadStep bs s).hostSide = s.hostSide := by
  unfold unpadStep
  cases s.phase with
  | check => exact check_hostSide _ s
  | precheck => exact settle_hostSide (unpadPrecheck_keepsHostSide _ s)
  | run => exact settle_hostSide (unpadRun_keepsHostSide s)
  | _ => rfl

/-- One engine step on a command, in any phase and on any bus, answers a state with the same host's side. -/
theorem exec_hostSide (i : Instr) (s : State) : ∃ t, exec i s = .next t ∧ t.hostSide = s.hostSide := by
  cases i with
  | encCfb => exact ⟨_, rfl, encCfbStep_hostSide _ s⟩
  | decCfb => exact ⟨_, rfl, decCfbStep_hostSide _ s⟩
  | encCbc => exact ⟨_, rfl, encCbcStep_hostSide _ s⟩
  | decCbc => exact ⟨_, rfl, decCbcStep_hostSide _ s⟩
  | pad bs => exact ⟨_, rfl, padStep_hostSide bs s⟩
  | unpad bs => exact ⟨_, rfl, unpadStep_hostSide bs s⟩

/-- An engine step never stops the machine and keeps the host's side. -/
theorem engineStep_hostSide (s : State) : ∃ t, engineStep s = .next t ∧ t.hostSide = s.hostSide := by
  by_cases hr : s.engineReady = true
  · cases hd : decode s.cmdLast with
    | cmd i =>
      rw [engineStep_cmd s i hr hd]
      exact exec_hostSide i s
    | illegal w => exact ⟨_, engineStep_illegal s w hr hd, checkIllegal_hostSide s⟩
  · exact ⟨s, engineStep_held s (by simpa using hr), rfl⟩

/-- An answer of the random source, taken or discarded, keeps the host's side. -/
theorem rngStep_hostSide (a : RngAnswer) (s : State) : ∃ t, rngStep a s = .next t ∧ t.hostSide = s.hostSide := by
  unfold rngStep
  split
  · exact engineStep_hostSide { s with rngAnswer := some a }
  · exact ⟨s, rfl, rfl⟩

end Sys2Proof.Machine
end

section
/-!
SUPPORT. The register map and the write-1-to-clear bits in the numbers that statements use, and what a host operation and a
step of the machine do to OVR.
-/

namespace Sys2Proof.Machine

/-! ### The register map -/

/-- A bit of a register word, by arithmetic on its number (R10). -/
theorem getLsbD_eq_decide (w : Word) (i : Nat) : w.getLsbD i = decide (w.toNat / 2 ^ i % 2 = 1) :=
  Nat.testBit_eq_decide_div_mod_eq

theorem regAt_regOffset (r : Reg) : regAt (regOffset r) = some r := by
  cases r with
  | key w => revert w; decide
  | _ => rfl

/-- The window's map has one offset per register (R40). -/
theorem regAt_eq_some_iff (off : Nat) (r : Reg) : regAt off = some r ↔ off = regOffset r := by
  constructor
  · intro h
    unfold regAt at h
    split at h <;> cases h <;> rfl
  · rintro rfl
    exact regAt_regOffset r

/-- The offsets of the registers that are locked while BUSY (R40, R113). -/
def LockedOffset (off : Nat) : Prop :=
  off = 0x00 ∨ off = 0x08 ∨ off = 0x0C ∨ off = 0x10 ∨ off = 0x18 ∨ (0x20 ≤ off ∧ off ≤ 0x3C ∧ off % 4 = 0)

theorem lockedOffset_regOffset (r : Reg) : LockedOffset (regOffset r) ↔ locked r = true := by
  unfold LockedOffset
  cases r with
  | key w =>
    have := w.isLt
    simp only [regOffset, locked, iff_true]
    omega
  | _ => decide

theorem lockedOffset_iff (off : Nat) : LockedOffset off ↔ ∃ r, regAt off = some r ∧ locked r = true := by
  constructor
  · intro h
    have hkey : 0x20 ≤ off ∧ off ≤ 0x3C ∧ off % 4 = 0 → ∃ r, off = regOffset r := fun hk =>
      ⟨.key ⟨(off - 0x20) / 4, by omega⟩, by simp only [regOffset]; omega⟩
    obtain ⟨r, rfl⟩ : ∃ r, off = regOffset r := by
      rcases h with rfl | rfl | rfl | rfl | rfl | hk
      exacts [⟨.cmd, rfl⟩, ⟨.srcAddr, rfl⟩, ⟨.dstAddr, rfl⟩, ⟨.srcLen, rfl⟩, ⟨.keyLen, rfl⟩, hkey hk]
    exact ⟨r, regAt_regOffset r, (lockedOffset_regOffset r).1 h⟩
  · rintro ⟨r, hr, hl⟩
    rw [(regAt_eq_some_iff off r).1 hr]
    exact (lockedOffset_regOffset r).2 hl

/-! ### OVR under register writes -/

/-- A write to a locked register while BUSY is lost (R113). -/
theorem regWrite_lost (s : State) (r : Reg) (w : Word) (hl : locked r = true) (hb : s.busy = true) :
    regWrite s r w = s.lostWrite := by simp [regWrite, hl, hb]

theorem regWrite_taken (s : State) (r : Reg) (w : Word) (h : ¬(locked r = true ∧ s.busy = true)) :
    regWrite s r w = writeReg s r w := by rw [regWrite, if_neg (by simpa using h)]

/-- A write that is not lost leaves OVR, except at STATUS (R45, R115). -/
theorem writeReg_ovr (s : State) (r : Reg) (w : Word) (h : r ≠ .status) : (writeReg s r w).ovr = s.ovr := by
  cases r with
  | status => exact absurd rfl h
  | _ => rfl

/-- A 32-bit write at the offset of a register (R110). -/
theorem hostStep_regWrite (s : State) (off : Nat) (r : Reg) (w : Word) (hi : s.inReset = false)
    (hr : regAt off = some r) :
    hostStep (.regWrite .word off w) s = .next { regWrite s r w with resp := .written } := by
  simp [hostStep, hi, legalReg, hr]

theorem hostRead_ovr (s : State) (a n : Nat) : (hostRead s a n).ovr = s.ovr := by rw [hostRead_frame]

/-- What a host operation does to OVR (R45): a lost write sets it, a STATUS write may clear it, nothing else touches it. -/
theorem hostStep_ovr_cases {op : HostOp} {s t : State} (h : hostStep op s = .next t) :
    (∃ off w, op = .regWrite .word off w ∧ LockedOffset off ∧ s.busy = true ∧ t.ovr = true) ∨
      (∃ w, op = .regWrite .word 0x04 w ∧ t.ovr = (s.ovr && !w.getLsbD 2)) ∨ t.ovr = s.ovr := by
  cases op with
  | regRead size off =>
    simp only [hostStep] at h
    split at h
    · cases h
    · split at h <;> cases h <;> exact .inr (.inr rfl)
  | regWrite size off w =>
    simp only [hostStep] at h
    split at h
    · cases h
    split at h
    · rename_i r hr
      obtain rfl : size = .word := by
        cases size with
        | word => rfl
        | half => cases hr
        | byte => cases hr
      cases h
      by_cases hlost : locked r = true ∧ s.busy = true
      · refine .inl ⟨off, w, rfl, (lockedOffset_iff off).2 ⟨r, hr, hlost.1⟩, hlost.2, ?_⟩
        simp [regWrite_lost s r w hlost.1 hlost.2]
      · simp only [regWrite_taken s r w hlost]
        by_cases hst : r = .status
        · obtain rfl : off = 0x04 := by rw [(regAt_eq_some_iff off r).1 hr, hst]; rfl
          exact .inr (.inl ⟨w, rfl, by rw [hst]; rfl⟩)
        · exact .inr (.inr (writeReg_ovr s r w hst))
    · cases h
      exact .inr (.inr rfl)
  | memRead a n =>
    rcases bufferAccess_cases ⟨a, n⟩ (hostRead s a n) with e | ⟨e, -⟩
    · cases e.symm.trans h
    · cases e.symm.trans h
      exact .inr (.inr (hostRead_ovr s a n))
  | memWrite a bs =>
    rcases bufferAccess_cases ⟨a, bs.length⟩ (hostWrite s a bs) with e | ⟨e, -⟩
    · cases e.symm.trans h
    · cases e.symm.trans h
      exact .inr (.inr rfl)
  | waitDone =>
    simp only [hostStep] at h
    split at h <;> cases h
    exact .inr (.inr rfl)

theorem engineStep_ovr {s t : State} (h : engineStep s = .next t) : t.ovr = s.ovr := by
  obtain ⟨u, hu, hs⟩ := engineStep_hostSide s
  cases hu.symm.trans h
  exact ovr_eq_of_hostSide hs

theorem rngStep_ovr {a : RngAnswer} {s t : State} (h : rngStep a s = .next t) : t.ovr = s.ovr := by
  obtain ⟨u, hu, hs⟩ := rngStep_hostSide a s
  cases hu.symm.trans h
  exact ovr_eq_of_hostSide hs

/-- What a step of the machine does to OVR (R45, R57): the two cases of a host operation, reset, and nothing else. -/
theorem step_ovr_cases {s t : State} (h : step s = .next t) :
    (∃ es off w, s.events = .host (.regWrite .word off w) :: es ∧ LockedOffset off ∧ s.busy = true ∧ t.ovr = true) ∨
      (∃ es w, s.events = .host (.regWrite .word 0x04 w) :: es ∧ t.ovr = (s.ovr && !w.getLsbD 2)) ∨
      (∃ es, s.events = .resetAssert :: es ∧ t.ovr = false) ∨ t.ovr = s.ovr := by
  cases he : s.events with
  | nil =>
    rw [step_nil s he] at h
    exact .inr (.inr (.inr (engineStep_ovr h)))
  | cons e es =>
    rw [step_cons s e es he] at h
    cases e with
    | engine => exact .inr (.inr (.inr (engineStep_ovr (s := { s with events := es }) h)))
    | host op =>
      rcases hostStep_ovr_cases h with ⟨off, w, rfl, hl, hb, ht⟩ | ⟨w, rfl, ht⟩ | ht
      · exact .inl ⟨es, off, w, rfl, hl, hb, ht⟩
      · exact .inr (.inl ⟨es, w, rfl, ht⟩)
      · exact .inr (.inr (.inr ht))
    | rng a => exact .inr (.inr (.inr (rngStep_ovr (s := { s with events := es }) h)))
    | resetAssert =>
      cases h
      exact .inr (.inr (.inl ⟨es, rfl, rfl⟩))
    | resetRelease =>
      cases h
      exact .inr (.inr (.inr rfl))

/-- A step that the schedule gives to a 32-bit register write of the host (R110). -/
theorem step_regWrite {s : State} {es : List Event} {off : Nat} {r : Reg} {w : Word}
    (he : s.events = .host (.regWrite .word off w) :: es) (hi : s.inReset = false) (hr : regAt off = some r) :
    step s = .next { regWrite { s with events := es } r w with resp := .written } :=
  (step_cons s _ es he).trans (hostStep_regWrite { s with events := es } off r w hi hr)

/-- The host's write to a locked register while BUSY is lost, with OVR set (R45, R113). -/
theorem step_lockedWrite (s : State) (es : List Event) (off : Nat) (w : Word) (hi : s.inReset = false)
    (hb : s.busy = true) (he : s.events = .host (.regWrite .word off w) :: es) (hoff : LockedOffset off) :
    step s = .next { s with ovr := true, resp := .written, events := es } := by
  obtain ⟨r, hr, hl⟩ := (lockedOffset_iff off).1 hoff
  rw [step_regWrite he hi hr, regWrite_lost { s with events := es } r w hl hb]
  rfl

/-- A STATUS write that the machine takes keeps OVR when its bit 2 is 0 and clears it when bit 2 is 1 (R115). -/
theorem step_statusWrite_ovr {s t : State} {es : List Event} {w : Word}
    (he : s.events = .host (.regWrite .word 0x04 w) :: es) (h : step s = .next t) :
    t.ovr = (s.ovr && !w.getLsbD 2) := by
  cases hi : s.inReset with
  | true => simp [step_cons s _ es he, eventStep, hostStep, hi] at h
  | false =>
    rw [step_regWrite he hi (r := .status) rfl] at h
    cases h
    rfl

/-- Settles O20, from the one lemma that says what a step does to OVR. -/
theorem ovrIsSticky : Obligations.OvrIsSticky := by
  intro s lockedWrite clears
  refine ⟨?_, fun t h => ⟨fun h0 h1 => ?_, fun h1 h0 => ?_, ?_⟩⟩
  · rintro es hi hb ⟨off, w, he, hoff⟩
    exact step_lockedWrite s es off w hi hb he hoff
  · rcases step_ovr_cases h with ⟨es, off, w, he, hoff, hb, -⟩ | ⟨es, w, -, ht⟩ | ⟨es, -, ht⟩ | ht
    · exact ⟨hb, es, off, w, he, hoff⟩
    all_goals simp [h0, h1] at ht
  · rcases step_ovr_cases h with ⟨-, -, -, -, -, -, ht⟩ | ⟨es, w, he, ht⟩ | ⟨es, he, -⟩ | ht
    · simp [h0] at ht
    · have hbit : w.getLsbD 2 = true := by simpa [h0, h1] using ht
      rw [getLsbD_eq_decide] at hbit
      exact ⟨es, .inl ⟨w, he, of_decide_eq_true hbit⟩⟩
    · exact ⟨es, .inr he⟩
    · simp [h0, h1] at ht
  · rintro es (⟨w, he, hw⟩ | he)
    · rw [step_statusWrite_ovr he h, getLsbD_eq_decide]
      simp [hw]
    · rw [step_cons s _ es he] at h
      cases h
      rfl

end Sys2Proof.Machine
end

section
/-!
SUPPORT. The interrupt output after each operation that can move it (R36).
-/

namespace Sys2Proof.Machine

theorem irq_eq_true_iff (s : State) : s.irq = true ↔ s.done = true ∧ s.doneIe = true := by simp [State.irq]

@[simp] theorem writeStatus_irq (s : State) (w : Word) :
    (s.writeStatus w).irq = ((s.done && !w.getLsbD 1) && s.doneIe) := rfl

@[simp] theorem writeIrqEn_irq (s : State) (w : Word) : (s.writeIrqEn w).irq = (s.done && w.getLsbD 0) := rfl

@[simp] theorem accept_irq (s : State) (w : Word) : (accept s w).irq = false := rfl

@[simp] theorem resetAssert_irq (s : State) : (resetAssert s).irq = false := rfl

/-- Settles O21, from the value of irq after each of the operations. -/
theorem irqFollowsDoneAndEnable : Obligations.IrqFollowsDoneAndEnable := by
  intro s
  refine ⟨irq_eq_true_iff s, fun w hw => ?_, fun w hw => ?_, fun w hw hd => ?_, accept_irq s, resetAssert_irq s⟩
  · rw [writeStatus_irq, getLsbD_eq_decide]
    simp [hw]
  · rw [writeIrqEn_irq, getLsbD_eq_decide]
    simp [hw]
  · rw [writeIrqEn_irq, getLsbD_eq_decide]
    simp [hw, hd]

end Sys2Proof.Machine
end

section
/-!
SUPPORT. The decoder by the fields of the word, said once for every command (R90, R93, R96), and the legal words as numbers
(R94).
-/

namespace Sys2Proof

/-! ### The fields as digits of the word's number (R90) -/

theorem opField_toNat (w : Word) : (opField w).toNat = w.toNat % 16 := by simp [opField]

theorem rsv0Field_toNat (w : Word) : (rsv0Field w).toNat = w.toNat / 16 % 16 := by
  simp [rsv0Field, Nat.shiftRight_eq_div_pow]

theorem pbsField_toNat (w : Word) : (pbsField w).toNat = w.toNat / 256 % 256 := by
  simp [pbsField, Nat.shiftRight_eq_div_pow]

theorem rsv1Field_toNat (w : Word) : (rsv1Field w).toNat = w.toNat / 65536 := by
  simp only [rsv1Field, BitVec.extractLsb'_toNat, Nat.shiftRight_eq_div_pow]
  omega

/-! ### The decoder -/

theorem withoutSize_eq_cmd_iff (pbs : BitVec 8) (i j : Instr) :
    withoutSize pbs i = .cmd j ↔ pbs = 0 ∧ i = j := by
  unfold withoutSize
  split <;> simp_all

theorem withSize_eq_cmd_iff (pbs : BitVec 8) (i j : Instr) : withSize pbs i = .cmd j ↔ pbs ≠ 0 ∧ i = j := by
  unfold withSize
  split <;> simp_all

/-- A word decodes to a command exactly when its reserved fields are 0, OP and PBS are the command's, and the command can be
encoded (R90, R93). -/
theorem decode_eq_cmd_iff (w : Word) (i : Instr) :
    decode w = .cmd i ↔
      (rsv0Field w = 0 ∧ rsv1Field w = 0) ∧ opField w = i.op ∧ pbsField w = i.pbs ∧ i.wf = true := by
  constructor
  · intro h
    unfold decode at h
    split_ifs at h with hr h1 h2 h3 h4 h5 h6
    case pos | pos | pos | pos =>
      obtain ⟨hp, rfl⟩ := (withoutSize_eq_cmd_iff _ _ _).1 h
      exact ⟨by simpa using hr, ‹_›, hp, rfl⟩
    case pos | pos =>
      obtain ⟨hp, rfl⟩ := (withSize_eq_cmd_iff _ _ _).1 h
      exact ⟨by simpa using hr, ‹_›, rfl, bne_iff_ne.2 hp⟩
  · rintro ⟨⟨h0, h1⟩, hop, hp, hwf⟩
    cases i <;> simp_all [decode, withoutSize, withSize, Instr.op, Instr.pbs, Instr.wf]

/-- The same on the digits of the word's number. -/
theorem decode_eq_cmd_iff_fields_toNat (w : Word) (i : Instr) :
    decode w = .cmd i ↔
      (w.toNat / 16 % 16 = 0 ∧ w.toNat / 65536 = 0) ∧ w.toNat % 16 = i.op.toNat ∧
        w.toNat / 256 % 256 = i.pbs.toNat ∧ i.wf = true := by
  rw [decode_eq_cmd_iff]
  simp only [BitVec.toNat_eq, opField_toNat, pbsField_toNat, rsv0Field_toNat, rsv1Field_toNat, BitVec.ofNat_eq_ofNat,
    BitVec.toNat_ofNat, Nat.zero_mod]

/-- The number of a command's word is `OP | (bs << 8)` (R96). -/
theorem decode_eq_cmd_iff_toNat (w : Word) (i : Instr) :
    decode w = .cmd i ↔ i.wf = true ∧ w.toNat = 256 * i.pbs.toNat + i.op.toNat := by
  rw [decode_eq_cmd_iff_fields_toNat]
  have hop := i.op.isLt
  have hpbs := i.pbs.isLt
  constructor
  · rintro ⟨⟨h0, h1⟩, ho, hp, hwf⟩
    exact ⟨hwf, by omega⟩
  · rintro ⟨hwf, hw⟩
    exact ⟨by omega, by omega, by omega, hwf⟩

/-- R93: a word is legal exactly when its fields are. -/
theorem exists_decode_iff_fields (w : Word) :
    (∃ i, decode w = .cmd i) ↔
      (1 ≤ (opField w).toNat ∧ (opField w).toNat ≤ 6) ∧ rsv0Field w = 0 ∧ rsv1Field w = 0 ∧
        (opField w = 1 ∨ opField w = 2 ∨ opField w = 3 ∨ opField w = 4 → pbsField w = 0) ∧
        (opField w = 5 ∨ opField w = 6 → pbsField w ≠ 0) := by
  simp only [decode_eq_cmd_iff]
  constructor
  · rintro ⟨i, ⟨h0, h1⟩, hop, hp, hwf⟩
    cases i <;> simp_all [Instr.op, Instr.pbs, Instr.wf]
  · rintro ⟨⟨hlo, hhi⟩, h0, h1, hnone, hsome⟩
    have hcases : opField w = 1 ∨ opField w = 2 ∨ opField w = 3 ∨ opField w = 4 ∨ opField w = 5 ∨ opField w = 6 := by
      bv_omega
    rcases hcases with h | h | h | h | h | h
    · exact ⟨.encCfb, ⟨h0, h1⟩, h, hnone (by simp [h]), rfl⟩
    · exact ⟨.decCfb, ⟨h0, h1⟩, h, hnone (by simp [h]), rfl⟩
    · exact ⟨.encCbc, ⟨h0, h1⟩, h, hnone (by simp [h]), rfl⟩
    · exact ⟨.decCbc, ⟨h0, h1⟩, h, hnone (by simp [h]), rfl⟩
    · exact ⟨.pad (pbsField w), ⟨h0, h1⟩, h, rfl, bne_iff_ne.2 (hsome (by simp [h]))⟩
    · exact ⟨.unpad (pbsField w), ⟨h0, h1⟩, h, rfl, bne_iff_ne.2 (hsome (by simp [h]))⟩

/-- A word that is no command has a reason (R93, R94). -/
theorem exists_illegal_of_ne_cmd {w : Word} (h : ∀ i, decode w ≠ .cmd i) : ∃ why, decode w = .illegal why := by
  cases hd : decode w with
  | cmd i => exact absurd hd (h i)
  | illegal why => exact ⟨why, rfl⟩

/-! ### The legal words (R94) -/

/-- R94's pseudo-code, row by row. -/
theorem decode_eq_cmd_iff_rows (w : Word) (i : Instr) :
    decode w = .cmd i ↔
      w.toNat / 16 % 16 = 0 ∧ w.toNat / 65536 = 0 ∧
        ((w.toNat % 16 = 1 ∧ w.toNat / 256 % 256 = 0 ∧ i = .encCfb) ∨
          (w.toNat % 16 = 2 ∧ w.toNat / 256 % 256 = 0 ∧ i = .decCfb) ∨
          (w.toNat % 16 = 3 ∧ w.toNat / 256 % 256 = 0 ∧ i = .encCbc) ∨
          (w.toNat % 16 = 4 ∧ w.toNat / 256 % 256 = 0 ∧ i = .decCbc) ∨
          (w.toNat % 16 = 5 ∧ w.toNat / 256 % 256 ≠ 0 ∧ i = .pad (BitVec.ofNat 8 (w.toNat / 256 % 256))) ∨
          (w.toNat % 16 = 6 ∧ w.toNat / 256 % 256 ≠ 0 ∧ i = .unpad (BitVec.ofNat 8 (w.toNat / 256 % 256)))) := by
  rw [decode_eq_cmd_iff_fields_toNat]
  cases i with
  | encCfb | decCfb | encCbc | decCbc => simp [Instr.op, Instr.pbs, Instr.wf, and_assoc]
  | pad bs | unpad bs =>
    simp [Instr.op, Instr.pbs, Instr.wf, and_assoc, BitVec.toNat_eq]
    omega

/-- The words of the commands with OP `op` and a block size (R94: 0x0000nn05 and 0x0000nn06 for nn = 0x01 to 0xFF). -/
def sizedWords (op : Nat) : List Word := (List.range' 1 255).map fun nn => BitVec.ofNat 32 (256 * nn + op)

theorem mem_sizedWords (op : Nat) (w : Word) :
    w ∈ sizedWords op ↔ ∃ nn, 1 ≤ nn ∧ nn ≤ 255 ∧ w = BitVec.ofNat 32 (256 * nn + op) := by
  simp only [sizedWords, List.mem_map, List.mem_range'_1]
  constructor
  · rintro ⟨nn, ⟨hlo, hhi⟩, rfl⟩
    exact ⟨nn, hlo, by omega, rfl⟩
  · rintro ⟨nn, hlo, hhi, rfl⟩
    exact ⟨nn, ⟨hlo, by omega⟩, rfl⟩

theorem length_sizedWords (op : Nat) : (sizedWords op).length = 255 := by simp [sizedWords]

/-- As the words of a block size that can be encoded (R92). -/
theorem mem_sizedWords_iff_toNat {op : Nat} (hop : op < 16) (w : Word) :
    w ∈ sizedWords op ↔ ∃ bs : BitVec 8, bs ≠ 0 ∧ w.toNat = 256 * bs.toNat + op := by
  rw [mem_sizedWords]
  constructor
  · rintro ⟨nn, hlo, hhi, rfl⟩
    have hbs : (BitVec.ofNat 8 nn).toNat = nn := by
      rw [BitVec.toNat_ofNat]
      omega
    refine ⟨BitVec.ofNat 8 nn, fun h => ?_, ?_⟩
    · simp [h] at hbs
      omega
    · rw [hbs, BitVec.toNat_ofNat]
      omega
  · rintro ⟨bs, hbs, hw⟩
    have hpos : bs.toNat ≠ 0 := fun h => hbs (BitVec.eq_of_toNat_eq h)
    exact ⟨bs.toNat, by omega, by omega, by rw [← hw, BitVec.ofNat_toNat, BitVec.setWidth_eq]⟩

/-- A word of `sizedWords op` has OP in its low digit, and a digit above it. -/
theorem toNat_of_mem_sizedWords {op : Nat} (hop : op < 16) {w : Word} (h : w ∈ sizedWords op) :
    w.toNat % 16 = op ∧ 256 ≤ w.toNat := by
  obtain ⟨nn, hlo, hhi, rfl⟩ := (mem_sizedWords op w).1 h
  rw [BitVec.toNat_ofNat]
  omega

theorem nodup_sizedWords (op : Nat) : (sizedWords op).Nodup := by
  refine List.Nodup.map_on (fun a ha b hb hab => ?_) List.nodup_range'
  have ha := (List.mem_range'_1.1 ha).2
  have hb := (List.mem_range'_1.1 hb).2
  have hab := congrArg BitVec.toNat hab
  simp only [BitVec.toNat_ofNat] at hab
  omega

/-- The legal words of R94: one for each command without a block size, and 255 for each of PAD and UNPAD. -/
def legalWords : List Word := [1, 2, 3, 4] ++ sizedWords 5 ++ sizedWords 6

theorem length_legalWords : legalWords.length = 4 + 255 + 255 := by
  rw [legalWords, List.length_append, List.length_append, length_sizedWords, length_sizedWords]
  rfl

theorem nodup_legalWords : legalWords.Nodup := by
  have hsmall : ∀ w ∈ ([1, 2, 3, 4] : List Word), w.toNat < 256 := by simp
  have h5 := fun w => toNat_of_mem_sizedWords (op := 5) (by omega) (w := w)
  have h6 := fun w => toNat_of_mem_sizedWords (op := 6) (by omega) (w := w)
  refine (List.Nodup.append (by decide) (nodup_sizedWords 5) ?_).append (nodup_sizedWords 6) ?_
  · intro w hw hw5
    have := hsmall w hw
    have := (h5 w hw5).2
    omega
  · intro w hw hw6
    rcases List.mem_append.1 hw with hw | hw5
    · have := hsmall w hw
      have := (h6 w hw6).2
      omega
    · have := (h5 w hw5).1
      have := (h6 w hw6).1
      omega

theorem mem_legalWords (w : Word) :
    w ∈ legalWords ↔ w = 0x00000001 ∨ w = 0x00000002 ∨ w = 0x00000003 ∨ w = 0x00000004 ∨
      ∃ nn : Nat, 1 ≤ nn ∧ nn ≤ 255 ∧ (w = BitVec.ofNat 32 (256 * nn + 5) ∨ w = BitVec.ofNat 32 (256 * nn + 6)) := by
  simp only [legalWords, List.mem_append, List.mem_cons, List.not_mem_nil, mem_sizedWords, or_false, or_assoc,
    and_or_left, exists_or]

/-- The legal words are exactly those listed (R94). -/
theorem exists_decode_iff_mem_legalWords (w : Word) : (∃ i, decode w = .cmd i) ↔ w ∈ legalWords := by
  simp only [decode_eq_cmd_iff_toNat, legalWords, List.mem_append, List.mem_cons, List.not_mem_nil, or_false,
    mem_sizedWords_iff_toNat (show 5 < 16 by omega), mem_sizedWords_iff_toNat (show 6 < 16 by omega)]
  constructor
  · rintro ⟨i, hwf, hw⟩
    cases i with
    | encCfb => exact .inl (.inl (.inl (BitVec.eq_of_toNat_eq hw)))
    | decCfb => exact .inl (.inl (.inr (.inl (BitVec.eq_of_toNat_eq hw))))
    | encCbc => exact .inl (.inl (.inr (.inr (.inl (BitVec.eq_of_toNat_eq hw)))))
    | decCbc => exact .inl (.inl (.inr (.inr (.inr (BitVec.eq_of_toNat_eq hw)))))
    | pad bs => exact .inl (.inr ⟨bs, bne_iff_ne.1 hwf, hw⟩)
    | unpad bs => exact .inr ⟨bs, bne_iff_ne.1 hwf, hw⟩
  · rintro (((rfl | rfl | rfl | rfl) | ⟨bs, hbs, hw⟩) | ⟨bs, hbs, hw⟩)
    · exact ⟨.encCfb, rfl, rfl⟩
    · exact ⟨.decCfb, rfl, rfl⟩
    · exact ⟨.encCbc, rfl, rfl⟩
    · exact ⟨.decCbc, rfl, rfl⟩
    · exact ⟨.pad bs, bne_iff_ne.2 hbs, hw⟩
    · exact ⟨.unpad bs, bne_iff_ne.2 hbs, hw⟩

/-- Settles O2, from the decoder on the digits of the word's number and the list of the legal words. -/
theorem legalWordsAreThe514 : Obligations.LegalWordsAreThe514 :=
  ⟨decode_eq_cmd_iff_rows, fun w => (exists_decode_iff_mem_legalWords w).trans (mem_legalWords w),
    legalWords, nodup_legalWords, length_legalWords, exists_decode_iff_mem_legalWords⟩

end Sys2Proof
end

section
/-!
SUPPORT. The acceptance of a command word, the STATUS word as a number, and the step of an engine whose CMD_LAST holds an
illegal word (R42, R93, R112).
-/

namespace Sys2Proof.Machine

@[simp] theorem accept_busy (s : State) (w : Word) : (accept s w).busy = true := rfl

theorem busy_eq_true_iff (s : State) : s.busy = true ↔ s.phase ≠ .idle := bne_iff_ne

/-- A concatenation of bits is read as digits. -/
theorem toNat_append_eq {m n : Nat} (x : BitVec m) (y : BitVec n) : (x ++ y).toNat = x.toNat * 2 ^ n + y.toNat := by
  rw [BitVec.toNat_append, ← Nat.shiftLeft_add_eq_or_of_lt y.isLt, Nat.shiftLeft_eq]

/-- The STATUS word, field by field (R42). -/
theorem statusWord_toNat (s : State) :
    s.statusWord.toNat =
      256 * s.errcode.bits.toNat + 8 * s.rngWaiting.toNat + 4 * s.ovr.toNat + 2 * s.done.toNat + s.busy.toNat := by
  simp only [State.statusWord, toNat_append_eq, BitVec.toNat_ofBool, BitVec.toNat_ofNat]
  omega

/-- The fields above bit 7 of STATUS are ERRCODE alone (R42). -/
theorem statusWord_div_256 (s : State) : s.statusWord.toNat / 256 = s.errcode.bits.toNat := by
  have hr := s.rngWaiting.toNat_le
  have ho := s.ovr.toNat_le
  have hd := s.done.toNat_le
  have hb := s.busy.toNat_le
  rw [statusWord_toNat]
  omega

/-- Outside IDLE a free engine can move. -/
theorem State.Free.engineReady {s : State} (h : s.Free) (hp : s.phase ≠ .idle) : s.engineReady = true := by
  simp [State.engineReady, (busy_eq_true_iff s).2 hp, h.inReset, h.busHung]

theorem checkIllegal_check (s : State) (hp : s.phase = .check) : checkIllegal s = completion s .illegalCmd 0 := by
  rw [checkIllegal, hp]
  rfl

/-- CHECK ends an illegal word with ILLEGAL_CMD, before anything else (R93, R130). -/
theorem step_illegal_check {s : State} (hf : s.Free) (hp : s.phase = .check) (h : ∀ i, decode s.cmdLast ≠ .cmd i) :
    step s = .next (completion s .illegalCmd 0) := by
  obtain ⟨why, hd⟩ := exists_illegal_of_ne_cmd h
  rw [step_nil s hf.events, engineStep_illegal s why (hf.engineReady (by simp [hp])) hd, checkIllegal_check s hp]

/-- The word 0 has no OP, so no command is read from it (R93). -/
theorem decode_zero_ne_cmd (i : Instr) : decode 0x00000000 ≠ .cmd i := by
  intro h
  obtain ⟨⟨hlo, -⟩, -⟩ := (exists_decode_iff_fields 0).1 ⟨i, h⟩
  exact absurd hlo (by decide)

/-- Settles O4, from the legality of a word by its fields and the step of CHECK on an illegal word. -/
theorem illegalWordCompletesIllegalCmd : Obligations.IllegalWordCompletesIllegalCmd := by
  refine ⟨exists_decode_iff_fields, fun s w _ => ⟨accept_busy s w, accept_cmdLast s w⟩, fun s hf hp hill => ?_,
    decode_zero_ne_cmd⟩
  refine ⟨_, step_illegal_check hf hp hill, rfl, completion_mem s .illegalCmd 0, ?_⟩
  rw [statusWord_div_256, completion_errcode]
  rfl

end Sys2Proof.Machine
end

section
/-!
SUPPORT. A register read and a register write of the host, said once for every register of the map: the value or the state
that `hostStep` gives at the register's offset, lost or taken, and the words with bit fields (STATUS, IRQ_EN) as numbers
(R111 to R116).
-/

namespace Sys2Proof.Machine

/-! ### Reads (R111) -/

/-- A 32-bit read at the offset of a register records the value, and does nothing else. -/
theorem hostStep_regRead (s : State) (off : Nat) (r : Reg) (hi : s.inReset = false) (hr : regAt off = some r) :
    hostStep (.regRead .word off) s = .next { s with resp := .word (readReg s r) } := by
  simp [hostStep, hi, legalReg, hr]

/-- The aligned offsets from 0x20 to 0x3C are the key registers (R40). -/
theorem exists_regAt_eq_key {off : Nat} (h : 0x20 ≤ off ∧ off ≤ 0x3C ∧ off % 4 = 0) :
    ∃ i, regAt off = some (.key i) := by
  refine ⟨⟨(off - 0x20) / 4, by omega⟩, (regAt_eq_some_iff _ _).2 ?_⟩
  simp only [regOffset]
  omega

/-- The STATUS word by PHASE and the bits that the host can clear (R42, R43, R46). -/
theorem statusWord_toNat_eq_ite (s : State) :
    s.statusWord.toNat = s.errcode.bits.toNat * 256 + (if s.phase = .rngWait then 8 else 0) + (if s.ovr then 4 else 0)
      + (if s.done then 2 else 0) + (if s.phase = .idle then 0 else 1) := by
  have hr : 8 * s.rngWaiting.toNat = if s.phase = .rngWait then 8 else 0 := by
    cases h : s.phase <;> simp [State.rngWaiting, h]
  have hb : s.busy.toNat = if s.phase = .idle then 0 else 1 := by
    cases h : s.phase <;> simp [State.busy, h]
  have ho : 4 * s.ovr.toNat = if s.ovr then 4 else 0 := by cases s.ovr <;> rfl
  have hd : 2 * s.done.toNat = if s.done then 2 else 0 := by cases s.done <;> rfl
  rw [statusWord_toNat, hr, ho, hd, hb, Nat.mul_comm]

theorem irqEnWord_toNat (s : State) : s.irqEnWord.toNat = if s.doneIe then 1 else 0 := by
  rw [State.irqEnWord, toNat_append_eq]
  cases s.doneIe <;> rfl

/-- Settles O13, from the register at each offset of the table and its value. -/
theorem registerReadsReturn : Obligations.RegisterReadsReturn := by
  refine ⟨fun s off v hi htable => ?_, fun s hinv hb => ?_⟩
  · obtain ⟨r, hr, rfl⟩ : ∃ r, regAt off = some r ∧ readReg s r = v := by
      rcases htable with ⟨rfl, rfl⟩ | ⟨rfl, hv⟩ | ⟨rfl, rfl⟩ | ⟨rfl, rfl⟩ | ⟨rfl, rfl⟩ | ⟨rfl, rfl⟩ | ⟨rfl, rfl⟩ |
        ⟨rfl, hv⟩ | ⟨hlo, hhi, halign, rfl⟩
      · exact ⟨.cmd, rfl, rfl⟩
      · exact ⟨.status, rfl, BitVec.eq_of_toNat_eq ((statusWord_toNat_eq_ite s).trans hv.symm)⟩
      · exact ⟨.srcAddr, rfl, rfl⟩
      · exact ⟨.dstAddr, rfl, rfl⟩
      · exact ⟨.srcLen, rfl, rfl⟩
      · exact ⟨.outLen, rfl, rfl⟩
      · exact ⟨.keyLen, rfl, rfl⟩
      · exact ⟨.irqEn, rfl, BitVec.eq_of_toNat_eq ((irqEnWord_toNat s).trans hv.symm)⟩
      · obtain ⟨i, hi⟩ := exists_regAt_eq_key ⟨hlo, hhi, halign⟩
        exact ⟨.key i, hi, rfl⟩
    exact hostStep_regRead s off r hi hr
  · obtain ⟨-, herr, hlen⟩ := hinv.busy_cleared ((busy_eq_true_iff s).1 hb)
    exact ⟨hlen, by rw [herr]; rfl⟩

/-! ### Writes (R112 to R116) -/

/-- A write that is not lost is taken as `writeReg` says: to any register while idle, and to an unlocked one at any time. -/
theorem hostStep_regWrite_taken (s : State) (r : Reg) (w : Word) (hi : s.inReset = false)
    (h : s.phase = .idle ∨ locked r = false) :
    hostStep (.regWrite .word (regOffset r) w) s = .next { writeReg s r w with resp := .written } := by
  have hnot : ¬(locked r = true ∧ s.busy = true) := by
    rintro ⟨hl, hb⟩
    rcases h with hp | hu
    · exact (busy_eq_true_iff s).1 hb hp
    · simp [hu] at hl
  rw [hostStep_regWrite s _ r w hi (regAt_regOffset r), regWrite_taken s r w hnot]

/-- Settles O14, from the acceptance of the word and the STATUS word of the accepting state. -/
theorem cmdWriteIsAccepted : Obligations.CmdWriteIsAccepted := by
  intro s w hi hp
  refine ⟨_, hostStep_regWrite_taken s .cmd w hi (.inl hp), rfl, accept_irq s w, accept_busy s w, fun hovr => ?_⟩
  apply BitVec.eq_of_toNat_eq
  simp [statusWord_toNat_eq_ite, writeReg, hovr, ResultCode.bits]

/-- Settles O15: the write is lost at the offset of every locked register. -/
theorem lockedWriteWhileBusySetsOvr : Obligations.LockedWriteWhileBusySetsOvr := by
  intro s off w hi hb hoff
  obtain ⟨r, hr, hl⟩ := (lockedOffset_iff off).1 hoff
  rw [hostStep_regWrite s off r w hi hr, regWrite_lost s r w hl hb]
  rfl

/-- A bit under write-1-to-clear, by arithmetic on the word's number (R115). -/
theorem and_not_getLsbD_eq_ite (b : Bool) (w : Word) (i : Nat) :
    (b && !w.getLsbD i) = if w.toNat / 2 ^ i % 2 = 1 then false else b := by
  rw [getLsbD_eq_decide]
  split <;> simp [*]

theorem writeStatus_eq_ite (s : State) (w : Word) :
    s.writeStatus w =
      { s with
        done := if w.toNat / 2 % 2 = 1 then false else s.done
        ovr := if w.toNat / 4 % 2 = 1 then false else s.ovr } := by
  rw [State.writeStatus, and_not_getLsbD_eq_ite, and_not_getLsbD_eq_ite]
  rfl

/-- Settles O17: STATUS is never locked, so the write clears what its bits name. -/
theorem statusWriteClears : Obligations.StatusWriteClears := by
  intro s w hi
  exact (hostStep_regWrite_taken s .status w hi (.inr rfl)).trans (by rw [writeReg, writeStatus_eq_ite])

theorem writeIrqEn_eq_decide (s : State) (w : Word) :
    s.writeIrqEn w = { s with doneIe := decide (w.toNat % 2 = 1) } := by
  rw [State.writeIrqEn, getLsbD_eq_decide, Nat.pow_zero, Nat.div_one]

/-- Settles O18: neither register is ever locked. -/
theorem irqEnAndOutLenWrites : Obligations.IrqEnAndOutLenWrites := by
  intro s w hi
  exact ⟨(hostStep_regWrite_taken s .irqEn w hi (.inr rfl)).trans (by rw [writeReg, writeIrqEn_eq_decide]),
    hostStep_regWrite_taken s .outLen w hi (.inr rfl)⟩

end Sys2Proof.Machine
end

section
/-!
SUPPORT. The key registers as a list of words: a write sets one of them, and byte j of the key is byte j mod 4 of word j div 4
(R54).
-/

namespace Sys2Proof.Machine

/-- KEY0 to KEY7 in order. -/
def KeyRegs.words (k : KeyRegs) : List Word := [k.key0, k.key1, k.key2, k.key3, k.key4, k.key5, k.key6, k.key7]

theorem KeyRegs.length_words (k : KeyRegs) : k.words.length = 8 := rfl

theorem KeyRegs.words_write (k : KeyRegs) (i : Fin 8) (w : Word) : (k.write i w).words = k.words.set i w := by
  fin_cases i <;> rfl

theorem KeyRegs.bytes_eq_flatMap (k : KeyRegs) : k.bytes = k.words.flatMap wordBytes := by
  simp [KeyRegs.bytes, KeyRegs.words]

theorem length_wordBytes (w : Word) : (wordBytes w).length = 4 := rfl

theorem getD_wordBytes (w : Word) (j : Nat) (h : j < 4) : (wordBytes w).getD j 0 = w.extractLsb' (8 * j) 8 := by
  interval_cases j <;> rfl

/-- Byte j of a sequence of words; past its end both sides are 0. -/
theorem getD_flatMap_wordBytes (ws : List Word) (j : Nat) :
    (ws.flatMap wordBytes).getD j 0 = (ws.getD (j / 4) 0).extractLsb' (8 * (j % 4)) 8 := by
  induction ws generalizing j with
  | nil => simp
  | cons w ws ih =>
    rw [List.flatMap_cons]
    by_cases h : j < 4
    · rw [List.getD_append _ _ _ _ (by rwa [length_wordBytes]), getD_wordBytes w j h, Nat.div_eq_of_lt h,
        Nat.mod_eq_of_lt h, List.getD_cons_zero]
    · rw [List.getD_append_right _ _ _ _ (by rw [length_wordBytes]; omega), length_wordBytes, ih,
        show j / 4 = (j - 4) / 4 + 1 by omega, List.getD_cons_succ, show (j - 4) % 4 = j % 4 by omega]

/-- Byte j of the key is byte j mod 4 of KEY[j div 4] (R54). -/
theorem KeyRegs.getD_bytes (k : KeyRegs) (j : Nat) :
    k.bytes.getD j 0 = (k.words.getD (j / 4) 0).extractLsb' (8 * (j % 4)) 8 := by
  rw [KeyRegs.bytes_eq_flatMap, getD_flatMap_wordBytes]

/-- A write of KEYi replaces the four key bytes of that register and no other (R54, R114). -/
theorem KeyRegs.getD_bytes_write (k : KeyRegs) (i : Fin 8) (w : Word) (j : Nat) :
    (k.write i w).bytes.getD j 0 = if j / 4 = i then w.extractLsb' (8 * (j % 4)) 8 else k.bytes.getD j 0 := by
  rw [KeyRegs.getD_bytes, KeyRegs.getD_bytes, KeyRegs.words_write]
  split
  · next h => rw [h, List.getD_eq_getElem _ _ (by simp [KeyRegs.length_words]), List.getElem_set_self]
  · next h => rw [List.getD_eq_getElem?_getD, List.getElem?_set_ne (Ne.symm h), ← List.getD_eq_getElem?_getD]

/-- Settles O16: while idle no register is locked, and a key register's write is a write of its four key bytes. -/
theorem operandWriteWhileIdle : Obligations.OperandWriteWhileIdle := by
  intro s w hi hp
  have taken := fun r => hostStep_regWrite_taken s r w hi (.inl hp)
  refine ⟨taken .srcAddr, taken .dstAddr, taken .srcLen, taken .keyLen, fun i hi8 => ?_⟩
  exact ⟨_, taken (.key ⟨i, hi8⟩), fun j _ => s.keys.getD_bytes_write ⟨i, hi8⟩ w j⟩

end Sys2Proof.Machine
end

section
/-!
SUPPORT. An encrypt command in RNG_WAIT: the engine can move, its one step there is `awaitRandom`, and that step is a wait
or the taking of an answer (R131).
-/

namespace Sys2Proof.Machine

/-! ### The step of RNG_WAIT -/

theorem awaitRandom_none (s : State) (h : s.rngAnswer = none) : awaitRandom s = s := by simp [awaitRandom, h]

/-- The draw goes to IVB and RUN begins; the request is withdrawn and the answer consumed. -/
theorem awaitRandom_ok (s : State) (iv : Block) (h : s.rngAnswer = some (.ok iv)) :
    awaitRandom s = { s with ivb := iv, rngReq := false, rngAnswer := none, phase := .run } := by
  simp [awaitRandom, h]

theorem awaitRandom_fail (s : State) (h : s.rngAnswer = some .fail) :
    awaitRandom s = completion s .randomSource 0 := by simp [awaitRandom, raiseError, h]

/-- The two commands that draw an IV are the ones with a step in RNG_WAIT. -/
theorem exec_rngWait {i : Instr} {s : State} (hd : draws? i = true) (hp : s.phase = .rngWait) :
    exec i s = .next (awaitRandom s) := by
  cases i with
  | encCfb => simp [exec, execEncCfb, encCfbStep, hp]
  | encCbc => simp [exec, execEncCbc, encCbcStep, hp]
  | decCfb | decCbc | pad bs | unpad bs => simp [draws?] at hd

/-! ### What the invariant says of RNG_WAIT -/

theorem State.Inv.draws_of_rngWait {s : State} {i : Instr} (h : s.Inv) (hp : s.phase = .rngWait)
    (hd : decode s.cmdLast = .cmd i) : draws? i = true := by
  obtain ⟨j, ⟨hj, -, -⟩, hdraws, -, -⟩ := h.rng_wait hp
  cases hd.symm.trans hj
  exact hdraws

/-- Neither reset nor a hung access can hold the engine in RNG_WAIT. -/
theorem State.Inv.engineReady_of_rngWait {s : State} (h : s.Inv) (hp : s.phase = .rngWait) : s.engineReady = true := by
  have hbusy : s.busy = true := (busy_eq_true_iff s).2 (by simp [hp])
  have hreset : s.inReset = false := by
    by_contra hr
    simpa [hp] using (h.reset_held (by simpa using hr)).phase
  have hhung : s.busHung = false := by
    by_contra hb
    simpa [hp] using h.hung (by simpa using hb)
  simp [State.engineReady, hbusy, hreset, hhung]

/-- STATUS in RNG_WAIT: BUSY and RNG_WAIT, and OVR as it is (R42). -/
theorem State.Inv.statusWord_of_rngWait {s : State} (h : s.Inv) (hp : s.phase = .rngWait) :
    s.statusWord.toNat = 9 + (if s.ovr then 4 else 0) := by
  obtain ⟨hdone, herr, -⟩ := h.busy_cleared (by simp [hp])
  simp only [statusWord_toNat_eq_ite, hp, hdone, herr, ResultCode.bits]
  cases s.ovr <;> rfl

/-! ### The machine in RNG_WAIT -/

/-- Without an answer the command's step leaves the state as it is. -/
theorem exec_rngWait_held {s : State} {i : Instr} (h : s.Inv) (hp : s.phase = .rngWait)
    (hd : decode s.cmdLast = .cmd i) : exec i s = .next s := by
  rw [exec_rngWait (h.draws_of_rngWait hp hd) hp, awaitRandom_none s h.answer]

theorem engineStep_rngWait_held {s : State} {i : Instr} (h : s.Inv) (hp : s.phase = .rngWait)
    (hd : decode s.cmdLast = .cmd i) : engineStep s = .next s :=
  (engineStep_cmd s i (h.engineReady_of_rngWait hp) hd).trans (exec_rngWait_held h hp hd)

/-- An answer enables the one step of RNG_WAIT. -/
theorem step_rngWait_answer {s : State} {i : Instr} {a : RngAnswer} {es : List Event} (h : s.Inv)
    (hp : s.phase = .rngWait) (hd : decode s.cmdLast = .cmd i) (he : s.events = .rng a :: es) :
    step s = .next (awaitRandom { s with events := es, rngAnswer := some a }) := by
  have hcond : s.phase = .rngWait ∧ s.rngReq = true := ⟨hp, h.request.2 hp⟩
  have hready : State.engineReady { s with events := es, rngAnswer := some a } = true := h.engineReady_of_rngWait hp
  rw [step_cons s _ es he, eventStep, rngStep, if_pos hcond, engineStep_cmd _ i hready hd]
  exact exec_rngWait (h.draws_of_rngWait hp hd) hp

/-- A machine whose step leaves the state as it is stays there, however many steps it takes. -/
theorem core_run_of_step_self (M : Host.Core) {s : M.State} (h : M.step s = .next s) (k : Nat) :
    M.run k s = .next s := by
  induction k with
  | zero => rfl
  | succ k ih => simpa only [Host.Core.run, h] using ih

/-- Settles O23: the invariant makes RNG_WAIT a state in which the engine can move, and each answer is one case of its
step there. -/
theorem randomSourceAnswersOrHolds : Obligations.RandomSourceAnswersOrHolds := by
  intro s i h hp hd
  refine ⟨h.request.2 hp, h.statusWord_of_rngWait hp, fun k he => ?hold, fun es he => ?engine, fun iv es he => ?ok,
    fun es he => ?fail, exec_rngWait_held h hp hd⟩
  case hold =>
    exact core_run_of_step_self Sys2Proof.core ((step_nil s he).trans (engineStep_rngWait_held h hp hd)) k
  case engine =>
    exact (step_cons s _ es he).trans (engineStep_rngWait_held (inv_events s es h) hp hd)
  case ok =>
    rw [step_rngWait_answer h hp hd he, awaitRandom_ok _ iv rfl, ← h.answer]
  case fail =>
    rw [step_rngWait_answer h hp hd he, awaitRandom_fail _ rfl]
    rfl

end Sys2Proof.Machine
end

section
/-!
SUPPORT. CHECK as one chain of conditions: the step of every command in CHECK is `check`, and each of its conditions in
the terms of the tables of R52, R66 and R67 (R130).
-/

namespace Sys2Proof.Machine

/-- In CHECK every command does the same: `check`. -/
theorem exec_check (i : Instr) {s : State} (hp : s.phase = .check) : exec i s = .next (check i s) := by
  cases i with
  | encCfb => simp [exec, execEncCfb, encCfbStep, hp]
  | decCfb => simp [exec, execDecCfb, decCfbStep, hp]
  | encCbc => simp [exec, execEncCbc, encCbcStep, hp]
  | decCbc => simp [exec, execDecCbc, decCbcStep, hp]
  | pad bs => simp [exec, execPad, padStep, hp]
  | unpad bs => simp [exec, execUnpad, unpadStep, hp]

/-- The checks in their order, each with its completion, and the state when all pass (R130). -/
theorem check_eq_ite (i : Instr) (s : State) :
    check i s =
      if (usesKey i && !s.keyValid) = true then completion s .invalidKey 0
      else if (i = .decCfb ∨ i = .decCbc) ∧ s.len < 16 then completion s .ctTooShort 0
      else if i = .decCbc ∧ (s.len - 16) % 16 ≠ 0 then completion s .misaligned 0
      else if (!rangeOk i s.src s.dst s.len || !overlapOk i s.src s.dst s.len) = true then completion s .range 0
      else
        { s with
          outmax := BitVec.ofNat 33 (outmaxOf i s.len)
          phase := phaseAfterCheck i
          rngReq := phaseAfterCheck i == .rngWait } := by
  unfold check checkError
  split_ifs <;> rfl

theorem usesKey_iff (i : Instr) : usesKey i = true ↔ i = .encCfb ∨ i = .decCfb ∨ i = .encCbc ∨ i = .decCbc := by
  cases i <;> simp [usesKey]

theorem keyValid_iff (s : State) :
    s.keyValid = true ↔ s.keyLen.toNat = 16 ∨ s.keyLen.toNat = 24 ∨ s.keyLen.toNat = 32 := by
  simp [State.keyValid, Config.keyLens]

/-- A command that uses a key has none of a valid length (R52, R95). -/
theorem keyError_iff (i : Instr) (s : State) :
    (usesKey i && !s.keyValid) = true ↔
      (i = .encCfb ∨ i = .decCfb ∨ i = .encCbc ∨ i = .decCbc) ∧
        ¬(s.keyLen.toNat = 16 ∨ s.keyLen.toNat = 24 ∨ s.keyLen.toNat = 32) := by
  rw [Bool.and_eq_true, Bool.not_eq_true', ← Bool.not_eq_true, usesKey_iff, keyValid_iff]

/-- The table of overlaps: what each pair of commands allows (R67). -/
theorem overlapOk_iff (i : Instr) (S T L : Nat) :
    overlapOk i S T L = true ↔
      ((i = .encCfb ∨ i = .encCbc) → L = 0 ∨ T + 16 ≤ S ∨ T ≥ S + L) ∧
        ((i = .decCfb ∨ i = .decCbc) → T ≤ S + 16 ∨ T ≥ S + L) ∧
          (¬(i = .encCfb ∨ i = .encCbc ∨ i = .decCfb ∨ i = .decCbc) → T ≤ S ∨ T ≥ S + L) := by
  cases i <;> simp [overlapOk, or_assoc]

/-- The range or the overlap of the two regions is not allowed (R66, R67). -/
theorem rangeError_iff (i : Instr) (S T L : Nat) :
    (!rangeOk i S T L || !overlapOk i S T L) = true ↔
      S + L > 2 ^ 32 ∨ T + outmaxOf i L > 2 ^ 32 ∨ outmaxOf i L > 2 ^ 32 - 1 ∨
        ((i = .encCfb ∨ i = .encCbc) ∧ ¬(L = 0 ∨ T + 16 ≤ S ∨ T ≥ S + L)) ∨
        ((i = .decCfb ∨ i = .decCbc) ∧ ¬(T ≤ S + 16 ∨ T ≥ S + L)) ∨
        (¬(i = .encCfb ∨ i = .encCbc ∨ i = .decCfb ∨ i = .decCbc) ∧ ¬(T ≤ S ∨ T ≥ S + L)) := by
  rw [Bool.or_eq_true, Bool.not_eq_true', Bool.not_eq_true', ← Bool.not_eq_true, ← Bool.not_eq_true, rangeOk_iff,
    overlapOk_iff]
  simp only [not_and_or, Classical.not_imp, or_assoc, Nat.not_le, Nat.reducePow, Nat.reduceSub, gt_iff_lt]

/-- Settles O10: CHECK is one chain of conditions, and each of them is the statement's condition at the same place. -/
theorem checkRunsInOrder : Obligations.CheckRunsInOrder := by
  refine ⟨fun s hf hp hill => step_illegal_check hf hp hill, fun i s hp => ?_⟩
  intro S T L outmax
  have houtmax : outmax = outmaxOf i s.len := by cases i <;> rfl
  clear_value outmax
  subst houtmax
  rw [exec_check i hp, check_eq_ite]
  refine congrArg _ (if_congr (keyError_iff i s) rfl <| if_congr Iff.rfl rfl <| if_congr Iff.rfl rfl <|
    if_congr (rangeError_iff i S T L) rfl ?_)
  cases i <;> rfl

end Sys2Proof.Machine
end

section
/-!
SUPPORT. The number of an encoded word (R90, R96), which the decoder reads back.
-/

namespace Sys2Proof

/-- The fields of an assembled word are its digits: `OP | (PBS << 8)` (R96). -/
theorem encode_toNat (i : Instr) : (encode i).toNat = 256 * i.pbs.toNat + i.op.toNat := by
  simp only [encode, Machine.toNat_append_eq, BitVec.toNat_ofNat]
  omega

/-- Settles O1: a word decodes to the command whose number it is, and the encoding has that number. -/
theorem decodeAndEncodeAgree : Obligations.DecodeAndEncodeAgree := by
  intro w i
  rw [decode_eq_cmd_iff_toNat, ← encode_toNat, ← BitVec.toNat_inj, eq_comm (a := w.toNat)]

/-- Settles O3: each word is the encoding of its command. -/
theorem decodeReadsWrittenWords : Obligations.DecodeReadsWrittenWords := by
  refine ⟨?_, ?_, ?_, ?_, ?_, ?_⟩
  all_goals exact (decodeAndEncodeAgree _ _).2 ⟨rfl, rfl⟩

end Sys2Proof
end

section
/-!
SUPPORT. The padding functions: the strict validator holds of exactly the sequences that end in a full run of padding bytes,
and depends only on a tail that holds the whole run (R230 to R232, R237).
-/

namespace Sys2Proof.Machine

/-! ### The strict validator -/

/-- The conditions of the strict validator, with p the last byte (R232). -/
theorem pkcs7Valid_iff (d : List Byte) (bs n : Nat) :
    pkcs7Valid d bs n = true ↔
      1 ≤ (d.getLastD 0).toNat ∧ (d.getLastD 0).toNat ≤ bs ∧ (d.getLastD 0).toNat ≤ n ∧
        ∀ x ∈ d.drop (d.length - (d.getLastD 0).toNat), x = d.getLastD 0 := by
  constructor
  · intro h
    obtain ⟨hlo, hbs, hn⟩ := pkcs7Valid_len d bs n h
    refine ⟨hlo, hbs, hn, ?_⟩
    unfold pkcs7Valid at h
    dsimp only at h
    split_ifs at h
    simpa only [List.all_eq_true, beq_iff_eq] using h
  · rintro ⟨hlo, hbs, hn, hall⟩
    have hne : d.getLastD 0 ≠ 0 := fun h0 => by
      rw [h0] at hlo
      simp at hlo
    unfold pkcs7Valid
    dsimp only
    rw [if_neg (by omega), if_neg hne, if_neg (by omega), if_neg (by omega)]
    simpa only [List.all_eq_true, beq_iff_eq] using hall

/-- Nothing but the last `bs` bytes is looked at (R206, R232). -/
theorem pkcs7Valid_append (a b : List Byte) (bs n : Nat) (hb : b ≠ []) (hbs : bs ≤ b.length) :
    pkcs7Valid (a ++ b) bs n = pkcs7Valid b bs n := by
  have hlast : (a ++ b).getLastD 0 = b.getLastD 0 := by
    rw [List.getLastD_eq_getLast?, List.getLastD_eq_getLast?, List.getLast?_append_of_ne_nil _ hb]
  rw [Bool.eq_iff_iff, pkcs7Valid_iff, pkcs7Valid_iff, hlast]
  refine and_congr_right fun _ => and_congr_right fun hle => ?_
  rw [List.length_append, Nat.add_sub_assoc (by omega), List.drop_append, List.drop_eq_nil_of_le (by omega),
    List.nil_append, Nat.add_sub_cancel_left]

/-- Byte `p` as a byte of the run. -/
theorem toNat_ofNat_byte {p bs : Nat} (hp : p ≤ bs) (hbs : bs ≤ 255) : (BitVec.ofNat 8 p).toNat = p := by
  rw [BitVec.toNat_ofNat]
  omega

theorem getLastD_append_replicate (e : List Byte) (p : Nat) (b : Byte) (hp : 1 ≤ p) :
    (e ++ List.replicate p b).getLastD 0 = b := by
  obtain ⟨k, rfl⟩ := Nat.exists_eq_add_of_le' hp
  rw [List.replicate_succ', ← List.append_assoc]
  simp

/-- A full run of padding bytes passes (R231). -/
theorem pkcs7Valid_append_padBytes (e : List Byte) {p bs : Nat} (n : Nat) (hp : 1 ≤ p) (hle : p ≤ bs) (hbs : bs ≤ 255)
    (hn : p ≤ n) : pkcs7Valid (e ++ padBytes p) bs n = true := by
  rw [pkcs7Valid_iff, padBytes, getLastD_append_replicate e p _ hp, toNat_ofNat_byte hle hbs]
  exact ⟨hp, hle, hn, by simp⟩

/-- A sequence that passes ends in a full run of padding bytes (R232). -/
theorem eq_append_padBytes_of_pkcs7Valid {d : List Byte} {bs : Nat} (h : pkcs7Valid d bs d.length = true) :
    d = d.take (d.length - (d.getLastD 0).toNat) ++ padBytes (d.getLastD 0).toNat := by
  obtain ⟨-, -, hn, hall⟩ := (pkcs7Valid_iff d bs d.length).1 h
  have hrun : d.drop (d.length - (d.getLastD 0).toNat) = padBytes (d.getLastD 0).toNat := by
    rw [padBytes, BitVec.ofNat_toNat, BitVec.setWidth_eq, List.eq_replicate_iff]
    exact ⟨by rw [List.length_drop]; omega, hall⟩
  rw [← hrun, List.take_append_drop]

/-- Unpadding takes exactly a full run of padding bytes off (R231). -/
theorem unpad_append_padBytes (e : List Byte) {p bs : Nat} (hp : 1 ≤ p) (hle : p ≤ bs) (hbs : bs ≤ 255) :
    unpad (e ++ padBytes p) bs = some e := by
  have hlen : (e ++ padBytes p).length - ((e ++ padBytes p).getLastD 0).toNat = e.length := by
    rw [padBytes, getLastD_append_replicate e p _ hp, toNat_ofNat_byte hle hbs]
    simp
  rw [unpad, if_pos (pkcs7Valid_append_padBytes e _ hp hle hbs (by simp)), hlen, List.take_left']
  rfl

theorem unpad_eq_some_iff (d e : List Byte) {bs : Nat} (hbs : bs ≤ 255) :
    unpad d bs = some e ↔ ∃ p : Nat, 1 ≤ p ∧ p ≤ bs ∧ d = e ++ padBytes p := by
  constructor
  · intro h
    unfold unpad at h
    split at h <;> cases h
    next hv =>
      obtain ⟨hlo, hle, -⟩ := pkcs7Valid_len d bs _ hv
      exact ⟨_, hlo, hle, eq_append_padBytes_of_pkcs7Valid hv⟩
  · rintro ⟨p, hlo, hle, rfl⟩
    exact unpad_append_padBytes e hlo hle hbs

/-- Settles O48: a sequence that passes ends in the run that its last byte names, and such a run passes. -/
theorem validatorIsStrict : Obligations.ValidatorIsStrict := by
  intro d bs hbs
  refine ⟨⟨fun h => ?_, ?_⟩, fun e => unpad_eq_some_iff d e hbs⟩
  · obtain ⟨hlo, hle, -⟩ := pkcs7Valid_len d bs _ h
    exact ⟨_, _, hlo, hle, eq_append_padBytes_of_pkcs7Valid h⟩
  · rintro ⟨p, e, hlo, hle, rfl⟩
    exact pkcs7Valid_append_padBytes e _ hlo hle hbs (by simp)

/-! ### Padding and unpadding -/

theorem unpad_pad (d : List Byte) {bs : Nat} (h1 : 1 ≤ bs) (h255 : bs ≤ 255) : unpad (pad d bs) bs = some d :=
  have hb := padLen_bounds bs d.length h1
  unpad_append_padBytes d hb.1 hb.2 h255

/-- Settles O47: `pad` adds a full run of padding bytes, which `unpad` takes off again. -/
theorem unpadInvertsPad : Obligations.UnpadInvertsPad := by
  intro d bs h1 h255
  obtain ⟨hlo, hhi⟩ := padLen_bounds bs d.length h1
  refine ⟨unpad_pad d h1 h255, length_pad_mod d bs h1, ?_, ?_, fun d' h => ?_, ?_⟩
  · rw [length_pad]
    omega
  · rw [length_pad]
    omega
  · have hd' := unpad_pad d' h1 h255
    rw [h, unpad_pad d h1 h255] at hd'
    exact (Option.some.inj hd').symm
  · exact pkcs7Valid_append_padBytes d _ hlo hhi h255 (by rw [length_pad]; omega)

end Sys2Proof.Machine
end

section
/-!
SUPPORT. A byte sequence taken 16 bytes at a time: the induction that CFB and CBC share, block `q` of a sequence, and the block
that is fed back into it.
-/

namespace Sys2Proof.Machine

/-- Induction by segments: full ones of 16 bytes, and a last one that may be partial (R172). -/
theorem segment_induction {P : List Byte → Prop} (nil : P [])
    (segment : ∀ x rest, x ≠ [] → x.length ≤ 16 → (x.length < 16 → rest = []) → P rest → P (x ++ rest))
    (xs : List Byte) : P xs := by
  induction hn : xs.length using Nat.strong_induction_on generalizing xs with
  | _ n ih =>
    by_cases hx : xs = []
    · exact hx ▸ nil
    · have hpos := List.length_pos_iff.2 hx
      rw [← List.take_append_drop 16 xs]
      refine segment _ _ ?_ ?_ ?_ (ih _ ?_ (xs.drop 16) rfl)
      · simpa using hx
      · simp
      · intro h
        rw [List.length_take] at h
        exact List.drop_eq_nil_of_le (by omega)
      · rw [List.length_drop]
        omega

theorem blockOfBytes_take (l : List Byte) (h : 16 ≤ l.length) : blockOfBytes (l.take 16) = blockOfBytes l := by
  refine Subtype.ext ?_
  rw [blockOfBytes_val _ (by simpa using h)]
  simp only [blockOfBytes]
  rw [List.take_append_of_le_length h]

/-- Block `q` of a sequence. -/
def blockAt (c : List Byte) (q : Nat) : Block := blockOfBytes ((c.drop (16 * q)).take 16)

/-- What is fed back into block `q`: the block before it, or the IV (R172, R201). -/
def chainAt (iv : Block) (c : List Byte) (q : Nat) : Block := if q = 0 then iv else blockAt c (q - 1)

theorem blockAt_append_zero (x rest : List Byte) (hx : x.length = 16) : blockAt (x ++ rest) 0 = blockOfBytes x := by
  simp [blockAt, ← hx]

theorem blockAt_append_succ (x rest : List Byte) (hx : x.length = 16) (q : Nat) :
    blockAt (x ++ rest) (q + 1) = blockAt rest q := by
  rw [blockAt, blockAt, show 16 * (q + 1) = x.length + 16 * q by omega, List.drop_length_add_append]

/-- Past the first block the sequence is chained as its rest is from that block on. -/
theorem chainAt_append_succ (iv : Block) (x rest : List Byte) (hx : x.length = 16) (q : Nat) :
    chainAt iv (x ++ rest) (q + 1) = chainAt (blockOfBytes x) rest q := by
  rw [chainAt, if_neg (by omega), Nat.add_sub_cancel]
  cases q with
  | zero => exact blockAt_append_zero x rest hx
  | succ q => rw [blockAt_append_succ x rest hx, chainAt, if_neg (by omega), Nat.add_sub_cancel]

/-- A byte of block `q`. -/
theorem getD_blockAt (c : List Byte) (q j : Nat) (hj : j < 16) (hq : 16 * q + 16 ≤ c.length) :
    (blockAt c q).1.getD j 0 = c.getD (16 * q + j) 0 := by
  rw [blockAt, blockOfBytes_val _ (by simp; omega)]
  simp [List.getD_eq_getElem?_getD, hj]

/-- Changing a byte leaves every other block alone. -/
theorem blockAt_set_ne (c : List Byte) (i j q : Nat) (b : Byte) (hj : j < 16) (hq : q ≠ i) :
    blockAt (c.set (16 * i + j) b) q = blockAt c q := by
  unfold blockAt
  congr 1
  refine List.ext_getElem? fun n => ?_
  simp only [List.getElem?_take, List.getElem?_drop]
  split
  · rw [List.getElem?_set_ne (by omega)]
  · rfl

/-- So it changes what is fed back only into the block after its own. -/
theorem chainAt_set_ne (iv : Block) (c : List Byte) (i j q : Nat) (b : Byte) (hj : j < 16) (hq : q ≠ i + 1) :
    chainAt iv (c.set (16 * i + j) b) q = chainAt iv c q := by
  unfold chainAt
  split
  · rfl
  · exact blockAt_set_ne c i j (q - 1) b hj (by omega)

theorem getD_set_self (c : List Byte) (n : Nat) (b : Byte) (h : n < c.length) : (c.set n b).getD n 0 = b := by
  simp [h]

theorem getD_set_ne (c : List Byte) (n k : Nat) (b : Byte) (h : k ≠ n) : (c.set n b).getD k 0 = c.getD k 0 := by
  simp [List.getD_eq_getElem?_getD, List.getElem?_set_ne h.symm]

theorem getD_xorBytes (a b : List Byte) (n : Nat) (ha : n < a.length) (hb : n < b.length) :
    (xorBytes a b).getD n 0 = a.getD n 0 ^^^ b.getD n 0 := by
  rw [List.getD_eq_getElem _ _ (by rw [length_xorBytes]; omega), List.getD_eq_getElem _ _ ha, List.getD_eq_getElem _ _ hb]
  simp [xorBytes]

theorem getD_xorBlock (a b : Block) (n : Nat) (h : n < 16) :
    (xorBlock a b).1.getD n 0 = a.1.getD n 0 ^^^ b.1.getD n 0 :=
  getD_xorBytes a.1 b.1 n (by simpa using h) (by simpa using h)

end Sys2Proof.Machine
end

section
/-!
SUPPORT. The function cfb segment by segment and byte by byte, with the two laws of R178 that rest on it.
-/

namespace Sys2Proof.Machine

/-! ### Segment by segment -/

/-- Fuel of one segment a byte is enough: more changes nothing. -/
theorem cfbLoop_eq_cfb (E : Block → Block) (dir : CfbDir) (fuel : Nat) (sr : Block) (xs : List Byte)
    (h : xs.length ≤ fuel) : cfbLoop E 16 dir fuel sr xs = cfb E dir sr xs := by
  have key : ∀ (n fuel : Nat) (sr : Block) (xs : List Byte), xs.length ≤ fuel → xs.length ≤ n →
      cfbLoop E 16 dir fuel sr xs = cfbLoop E 16 dir n sr xs := by
    intro n
    induction n with
    | zero =>
      intro fuel sr xs _ hn
      rw [List.length_eq_zero_iff.1 (Nat.le_zero.1 hn), cfbLoop_nil, cfbLoop_nil]
    | succ n ih =>
      intro fuel sr xs hf hn
      by_cases hx : xs = []
      · rw [hx, cfbLoop_nil, cfbLoop_nil]
      · have hpos := List.length_pos_iff.2 hx
        obtain ⟨f, rfl⟩ := Nat.exists_eq_add_of_le' (Nat.le_trans hpos hf)
        have hdrop : (xs.drop 16).length = xs.length - 16 := List.length_drop
        simp only [cfbLoop, if_neg hx]
        rw [ih f _ (xs.drop 16) (by omega) (by omega)]
  exact key _ _ _ _ h (Nat.le_refl _)

theorem cfb_nil (E : Block → Block) (dir : CfbDir) (sr : Block) : cfb E dir sr [] = [] := rfl

/-- The loop of R172, one turn: a segment that is full or the last. -/
theorem cfb_segment (E : Block → Block) (dir : CfbDir) (sr : Block) (x rest : List Byte) (hx : x ≠ [])
    (hle : x.length ≤ 16) (hlast : x.length < 16 → rest = []) :
    cfb E dir sr (x ++ rest) =
      cfbCombine E sr x ++ cfb E dir (cfbFeedback 16 sr (if dir = .enc then cfbCombine E sr x else x)) rest := by
  have htake : (x ++ rest).take 16 = x ∧ (x ++ rest).drop 16 = rest := by
    rcases Nat.lt_or_ge x.length 16 with h | h
    · simp [hlast h, List.take_of_length_le hle, hle]
    · have h16 : x.length = 16 := by omega
      exact ⟨List.take_left' h16, List.drop_left' h16⟩
  have hpos := List.length_pos_iff.2 hx
  obtain ⟨n, hn⟩ := Nat.exists_eq_add_of_le' hpos
  have hlen : (x ++ rest).length = n + rest.length + 1 := by rw [List.length_append]; omega
  rw [cfb, hlen, Config.cfbSeg, cfbLoop, if_neg (by simp [hx]), htake.1, htake.2]
  dsimp only
  rw [cfbLoop_eq_cfb E dir _ _ rest (by omega)]

theorem length_cfb (E : Block → Block) (dir : CfbDir) (sr : Block) (xs : List Byte) :
    (cfb E dir sr xs).length = xs.length := by
  induction xs using segment_induction generalizing sr with
  | nil => rfl
  | segment x rest hx hle hlast ih =>
    rw [cfb_segment E dir sr x rest hx hle hlast, List.length_append, ih, length_cfbCombine, List.length_append]
    omega

/-- The keystream combination is its own inverse (R171). -/
theorem cfbCombine_cfbCombine (E : Block → Block) (sr : Block) (x : List Byte) (h : x.length ≤ 16) :
    cfbCombine E sr (cfbCombine E sr x) = x := by
  have hlen : (cfbCombine E sr x).length = x.length := by rw [length_cfbCombine]; omega
  rw [cfbCombine, hlen, cfbCombine]
  exact xorBytes_xorBytes _ _ (by simp; omega)

/-- Decryption inverts encryption: both sides take the same ciphertext into SR (R171, R178 (a)). -/
theorem cfb_dec_enc (E : Block → Block) (sr : Block) (p : List Byte) : cfb E .dec sr (cfb E .enc sr p) = p := by
  induction p using segment_induction generalizing sr with
  | nil => rfl
  | segment x rest hx hle hlast ih =>
    have hlen : (cfbCombine E sr x).length = x.length := by rw [length_cfbCombine]; omega
    have hne : cfbCombine E sr x ≠ [] := by
      rw [← List.length_pos_iff, hlen]
      exact List.length_pos_iff.2 hx
    rw [cfb_segment E .enc sr x rest hx hle hlast,
      cfb_segment E .dec sr _ _ hne (hlen ▸ hle) fun h => by rw [hlast (hlen ▸ h), cfb_nil], cfbCombine_cfbCombine E sr x hle]
    simp only [if_true, reduceCtorEq, if_false, ih]

/-- Settles O43: the round trip and the lengths hold for every transform. -/
theorem cfbRoundTrip : Obligations.CfbRoundTrip := by
  intro k iv p
  exact ⟨cfb_dec_enc _ iv p, length_cfb _ .enc iv p, length_cfb _ .dec iv p⟩

/-! ### Byte by byte -/

theorem cfbFeedback_eq_blockOfBytes (sr : Block) (c : List Byte) (h : c.length = 16) :
    cfbFeedback 16 sr c = blockOfBytes c :=
  Subtype.ext ((cfbFeedback_full sr c h).trans (blockOfBytes_val c h).symm)

/-- A plaintext byte is its ciphertext byte under the keystream that the ciphertext block before it gives (R170, R172). -/
theorem getD_cfbDec (E : Block → Block) (iv : Block) (c : List Byte) (n : Nat) (hn : n < c.length) :
    (cfbDec E iv c).getD n 0 = c.getD n 0 ^^^ (E (chainAt iv c (n / 16))).1.getD (n % 16) 0 := by
  induction c using segment_induction generalizing iv n with
  | nil => simp at hn
  | segment x rest hx hle hlast ih =>
    have hlen : (cfbCombine E iv x).length = x.length := by rw [length_cfbCombine]; omega
    rw [cfbDec, cfb_segment E .dec iv x rest hx hle hlast]
    rcases Nat.lt_or_ge n x.length with h | h
    · rw [List.getD_append _ _ _ _ (by omega), List.getD_append _ _ _ _ h, Nat.div_eq_of_lt (by omega),
        Nat.mod_eq_of_lt (by omega), chainAt, if_pos rfl, cfbCombine, getD_xorBytes _ _ _ h (by simp; omega)]
      congr 1
      simp [List.getD_eq_getElem?_getD, h]
    · have h16 : x.length = 16 := by
        by_contra hne
        rw [hlast (by omega)] at hn
        simp at hn
        omega
      obtain ⟨m, rfl⟩ := Nat.exists_eq_add_of_le h
      rw [List.length_append] at hn
      rw [List.getD_append_right _ _ _ _ (by omega), List.getD_append_right _ _ _ _ (by omega), hlen,
        Nat.add_sub_cancel_left, if_neg (by simp), cfbFeedback_eq_blockOfBytes iv x h16, h16,
        show (16 + m) / 16 = m / 16 + 1 by omega, show (16 + m) % 16 = m % 16 by omega,
        chainAt_append_succ iv x rest h16]
      exact ih (blockOfBytes x) m (by omega)

/-- Settles O44: a plaintext byte depends on its ciphertext byte and on the block before it, and on nothing else. -/
theorem cfbErrorSpread : Obligations.CfbErrorSpread := by
  intro k iv c i j d hj hi c' p p'
  have hin : 16 * i + j < c.length := by omega
  have hlen : c'.length = c.length := List.length_set
  have hdec (x : List Byte) : (cfbDec (Config.E k) iv x).length = x.length := length_cfb _ .dec iv x
  have hsame (n : Nat) (hn : n < c.length) (hnext : ¬(16 * i + 16 ≤ n ∧ n < 16 * i + 32)) :
      p'.getD n 0 = c'.getD n 0 ^^^ c.getD n 0 ^^^ p.getD n 0 := by
    show (cfbDec _ iv c').getD n 0 = _ ^^^ _ ^^^ (cfbDec _ iv c).getD n 0
    rw [getD_cfbDec _ iv c' n (by omega), getD_cfbDec _ iv c n hn, chainAt_set_ne iv c i j _ _ hj (by omega)]
    simp [BitVec.xor_assoc]
  refine ⟨?_, fun n hne hnext => ?_⟩
  · rw [hsame _ hin (by omega), getD_set_self c _ _ hin, BitVec.xor_comm _ d, BitVec.xor_assoc d, BitVec.xor_self,
      BitVec.xor_zero, BitVec.xor_comm]
  · rcases Nat.lt_or_ge n c.length with hn | hn
    · rw [hsame n hn hnext, getD_set_ne c _ _ _ hne, BitVec.xor_self, BitVec.zero_xor]
    · rw [List.getD_eq_default _ _ (by rw [hdec]; omega), List.getD_eq_default _ _ (by rw [hdec]; omega)]

end Sys2Proof.Machine
end

section
/-!
SUPPORT. The functions cbc_enc and cbc_dec block by block and byte by byte, with the laws of R206 and R209 that rest on them.
-/

namespace Sys2Proof.Machine

/-! ### Block by block -/

theorem blocksOf_append (x rest : List Byte) (hx : x.length = 16) :
    blocksOf ((x ++ rest).length / 16) (x ++ rest) = blockOfBytes x :: blocksOf (rest.length / 16) rest := by
  rw [List.length_append, show (x.length + rest.length) / 16 = rest.length / 16 + 1 by omega, blocksOf,
    List.take_left' hx, List.drop_left' hx]

theorem cbcEnc_block (E : Block → Block) (fb : Block) (x rest : List Byte) (hx : x.length = 16) :
    cbcEnc E fb (x ++ rest) =
      (E (xorBlock (blockOfBytes x) fb)).1 ++ cbcEnc E (E (xorBlock (blockOfBytes x) fb)) rest := by
  rw [cbcEnc, blocksOf_append x rest hx]
  rfl

theorem cbcDec_block (D : Block → Block) (fb : Block) (x rest : List Byte) (hx : x.length = 16) :
    cbcDec D fb (x ++ rest) = (xorBlock (D (blockOfBytes x)) fb).1 ++ cbcDec D (blockOfBytes x) rest := by
  rw [cbcDec, blocksOf_append x rest hx]
  rfl

theorem length_cbcEnc (E : Block → Block) (iv : Block) (p : List Byte) :
    (cbcEnc E iv p).length = 16 * (p.length / 16) := by simp [cbcEnc]

theorem length_cbcDec (D : Block → Block) (iv : Block) (c : List Byte) :
    (cbcDec D iv c).length = 16 * (c.length / 16) := by simp [cbcDec]

theorem cbcDecBlocks_cbcEncBlocks (k : List Byte) (fb : Block) (ps : List Block) :
    cbcDecBlocks (Config.D k) fb (cbcEncBlocks (Config.E k) fb ps) = ps := by
  induction ps generalizing fb with
  | nil => rfl
  | cons p ps ih => rw [cbcEncBlocks, cbcDecBlocks, ih, cipher_D_E, xorBlock_xorBlock]

/-- Decryption inverts encryption of whole blocks (R202, R209 (a)). -/
theorem cbcDec_cbcEnc (k : List Byte) (iv : Block) (p : List Byte) (hp : p.length % 16 = 0) :
    cbcDec (Config.D k) iv (cbcEnc (Config.E k) iv p) = p := by
  have hblocks := blocksOf_bytesOf (cbcEncBlocks (Config.E k) iv (blocksOf (p.length / 16) p))
  rw [length_cbcEncBlocks, length_blocksOf] at hblocks
  rw [cbcDec, length_cbcEnc, Nat.mul_div_cancel_left _ (by omega), cbcEnc, hblocks, cbcDecBlocks_cbcEncBlocks,
    bytesOf_blocksOf _ _ (by omega)]

/-- Settles O45: the padded plaintext is whole blocks, which decryption gives back and `unpad` strips. -/
theorem cbcRoundTrip : Obligations.CbcRoundTrip := by
  intro k iv p
  have hdec := cbcDec_cbcEnc k iv (pad p 16) (length_pad_mod p 16 (by omega))
  refine ⟨hdec, by rw [hdec, unpad_pad p (by omega) (by omega)], ?_⟩
  rw [length_cbcEnc, length_pad, padLen]
  omega

/-! ### Byte by byte -/

/-- A plaintext byte is the byte of its decrypted block under the block before it (R202). -/
theorem getD_cbcDec (D : Block → Block) (iv : Block) (c : List Byte) (n : Nat) (hc : c.length % 16 = 0)
    (hn : n < c.length) :
    (cbcDec D iv c).getD n 0 =
      (D (blockAt c (n / 16))).1.getD (n % 16) 0 ^^^ (chainAt iv c (n / 16)).1.getD (n % 16) 0 := by
  induction c using segment_induction generalizing iv n with
  | nil => simp at hn
  | segment x rest hx hle hlast ih =>
    have hpos := List.length_pos_iff.2 hx
    rw [List.length_append] at hc hn
    have h16 : x.length = 16 := by
      by_contra hne
      rw [hlast (by omega), List.length_nil] at hc
      omega
    rw [cbcDec_block D iv x rest h16]
    rcases Nat.lt_or_ge n 16 with h | h
    · rw [List.getD_append _ _ _ _ (by simpa using h), getD_xorBlock _ _ _ h, Nat.div_eq_of_lt h, Nat.mod_eq_of_lt h,
        blockAt_append_zero x rest h16, chainAt, if_pos rfl]
    · obtain ⟨m, rfl⟩ := Nat.exists_eq_add_of_le h
      rw [List.getD_append_right _ _ _ _ (by simp), length_block, Nat.add_sub_cancel_left,
        show (16 + m) / 16 = m / 16 + 1 by omega, show (16 + m) % 16 = m % 16 by omega,
        blockAt_append_succ x rest h16, chainAt_append_succ iv x rest h16]
      exact ih (blockOfBytes x) m (by omega) (by omega)

/-- A change of the IV shows in the first block alone, byte by byte (R209 (c)). -/
theorem getD_cbcDec_iv (D : Block → Block) (iv iv' : Block) (c : List Byte) (n : Nat) (hc : c.length % 16 = 0)
    (hn : n < c.length) :
    (cbcDec D iv' c).getD n 0 =
      if n < 16 then (cbcDec D iv c).getD n 0 ^^^ iv.1.getD n 0 ^^^ iv'.1.getD n 0 else (cbcDec D iv c).getD n 0 := by
  rw [getD_cbcDec D iv' c n hc hn, getD_cbcDec D iv c n hc hn]
  split
  · next h =>
    rw [Nat.div_eq_of_lt h, Nat.mod_eq_of_lt h]
    simp [chainAt]
  · next h => rw [chainAt, chainAt, if_neg (by omega), if_neg (by omega)]

/-- Settles O46: a plaintext byte depends on its ciphertext block and on one byte of what is fed back into it. -/
theorem cbcTamperLocality : Obligations.CbcTamperLocality := by
  intro k iv c j d hj hc
  refine ⟨?iv, fun i hi => ?block⟩
  case iv =>
    intro iv' p p'
    have hset : iv'.1 = iv.1.set j (iv.1.getD j 0 ^^^ d) := blockOfBytes_val _ (by simp)
    refine ⟨fun hlen => ?_, fun n hne => ?_⟩
    · show (cbcDec _ iv' c).getD j 0 = (cbcDec _ iv c).getD j 0 ^^^ d
      rw [getD_cbcDec_iv _ iv iv' c j hc (by omega), if_pos hj, hset, getD_set_self _ _ _ (by simpa using hj),
        BitVec.xor_assoc, ← BitVec.xor_assoc (iv.1.getD j 0), BitVec.xor_self, BitVec.zero_xor]
    · rcases Nat.lt_or_ge n c.length with hn | hn
      · show (cbcDec _ iv' c).getD n 0 = (cbcDec _ iv c).getD n 0
        rw [getD_cbcDec_iv _ iv iv' c n hc hn, hset, getD_set_ne _ _ _ _ hne, BitVec.xor_assoc, BitVec.xor_self,
          BitVec.xor_zero, ite_self]
      · rw [List.getD_eq_default _ _ (by rw [length_cbcDec]; omega),
          List.getD_eq_default _ _ (by rw [length_cbcDec]; omega)]
  case block =>
    intro c' p p'
    have hlen : c'.length = c.length := List.length_set
    have hbyte (q : Nat) (hq : q < 16) (hne : q ≠ j) :
        (blockAt c' i).1.getD q 0 = (blockAt c i).1.getD q 0 := by
      rw [getD_blockAt c' i q hq (by omega), getD_blockAt c i q hq (by omega), getD_set_ne c _ _ _ (by omega)]
    have hflip : (blockAt c' i).1.getD j 0 = (blockAt c i).1.getD j 0 ^^^ d := by
      rw [getD_blockAt c' i j hj (by omega), getD_blockAt c i j hj (by omega), getD_set_self c _ _ (by omega)]
    have hnext (q : Nat) (hq : q < 16) :
        p'.getD (16 * i + 16 + q) 0 =
            (Config.D k (blockAt c (i + 1))).1.getD q 0 ^^^ (blockAt c' i).1.getD q 0 ∧
          p.getD (16 * i + 16 + q) 0 =
            (Config.D k (blockAt c (i + 1))).1.getD q 0 ^^^ (blockAt c i).1.getD q 0 := by
      have hdiv : (16 * i + 16 + q) / 16 = i + 1 := by omega
      have hmod : (16 * i + 16 + q) % 16 = q := by omega
      constructor
      · show (cbcDec _ iv c').getD _ 0 = _
        rw [getD_cbcDec _ iv c' _ (by omega) (by omega), hdiv, hmod, blockAt_set_ne c i j _ _ hj (by omega), chainAt,
          if_neg (by omega), Nat.add_sub_cancel]
      · show (cbcDec _ iv c).getD _ 0 = _
        rw [getD_cbcDec _ iv c _ hc (by omega), hdiv, hmod, chainAt, if_neg (by omega), Nat.add_sub_cancel]
    refine ⟨by rw [(hnext j hj).1, (hnext j hj).2, hflip, BitVec.xor_assoc], fun n hne hout => ?_⟩
    by_cases hin : 16 * i + 16 ≤ n ∧ n < 16 * i + 32
    · obtain ⟨q, rfl⟩ := Nat.exists_eq_add_of_le hin.1
      rw [(hnext q (by omega)).1, (hnext q (by omega)).2, hbyte q (by omega) (by omega)]
    · rcases Nat.lt_or_ge n c.length with hn | hn
      · show (cbcDec _ iv c').getD n 0 = (cbcDec _ iv c).getD n 0
        rw [getD_cbcDec _ iv c' n (by omega) (by omega), getD_cbcDec _ iv c n hc hn,
          blockAt_set_ne c i j _ _ hj (by omega), chainAt_set_ne iv c i j _ _ hj (by omega)]
      · rw [List.getD_eq_default _ _ (by rw [length_cbcDec]; omega),
          List.getD_eq_default _ _ (by rw [length_cbcDec]; omega)]

/-! ### The final block -/

/-- The plaintext ends in the plaintext of its final block (R202, R206). -/
theorem cbcDec_eq_append_final (D : Block → Block) (iv : Block) (c : List Byte) (m : Nat)
    (hc : c.length = 16 * (m + 1)) :
    ∃ a, cbcDec D iv c = a ++ (xorBlock (D (blockAt c m)) (chainAt iv c m)).1 := by
  induction m generalizing iv c with
  | zero =>
    refine ⟨[], ?_⟩
    have hstep := cbcDec_block D iv c [] (by omega)
    rw [List.append_nil] at hstep
    have hblock : blockAt c 0 = blockOfBytes c := by simpa using blockAt_append_zero c [] (by omega)
    rw [hstep, hblock]
    simp [cbcDec, chainAt, blocksOf, cbcDecBlocks]
  | succ m ih =>
    have h16 : (c.take 16).length = 16 := by rw [List.length_take]; omega
    obtain ⟨a, ha⟩ := ih (blockOfBytes (c.take 16)) (c.drop 16) (by rw [List.length_drop]; omega)
    have hblock := blockAt_append_succ (c.take 16) (c.drop 16) h16 m
    have hchain := chainAt_append_succ iv (c.take 16) (c.drop 16) h16 m
    have hstep := cbcDec_block D iv (c.take 16) (c.drop 16) h16
    rw [List.take_append_drop] at hblock hchain hstep
    rw [hblock, hchain, hstep, ha, ← List.append_assoc]
    exact ⟨_, rfl⟩

/-- Settles O49: the whole plaintext ends in the final block, and the check looks at no more than that. -/
theorem finalBlockDecidesPadding : Obligations.FinalBlockDecidesPadding := by
  intro k iv c m hc prev pl
  have hpl : pl = xorBlock (Config.D k (blockAt c m)) (chainAt iv c m) := by
    have hlast : blockAt c m = blockOfBytes (c.drop (16 * m)) := blockOfBytes_take _ (by rw [List.length_drop]; omega)
    show xorBlock (Config.D k (blockOfBytes (c.drop (16 * m)))) prev = _
    rw [hlast]
    rfl
  obtain ⟨a, ha⟩ := cbcDec_eq_append_final (Config.D k) iv c m hc
  have hne : pl.1 ≠ [] := List.length_pos_iff.1 (by simp)
  rw [ha, ← hpl]
  refine ⟨(pkcs7Valid_append a pl.1 16 _ hne (by simp)).symm, ?_⟩
  rw [List.getLastD_eq_getLast?, List.getLastD_eq_getLast?, List.getLast?_append_of_ne_nil _ hne]

end Sys2Proof.Machine
end

section
/-!
SUPPORT. The machine outside a command: the reset state, the reset input, register accesses that name no register or come
during reset, and an answer that nobody asked for (R57, R110, R290, R291).
-/

namespace Sys2Proof.Machine

/-! ### The step of a busy engine -/

theorem engineReady_of_busy {s : State} (hp : s.phase ≠ .idle) (hr : s.inReset = false) (hh : s.busHung = false) :
    s.engineReady = true := by simp [State.engineReady, (busy_eq_true_iff s).2 hp, hr, hh]

/-- Settles O5: the engine can move, and `engineStep` runs what CMD_LAST decodes to. -/
theorem stepRunsDecodedCommand : Obligations.StepRunsDecodedCommand := by
  intro s i hp hr hh hd
  refine ⟨fun he => ?_, fun es he => ?_⟩
  · rw [step_nil s he, engineStep_cmd s i (engineReady_of_busy hp hr hh) hd]
  · rw [step_cons s _ es he]
    exact engineStep_cmd { s with events := es } i (engineReady_of_busy hp hr hh) hd

/-- Settles O11, by the fields of the completion. -/
theorem completionSetsResultAndZeroesKey : Obligations.CompletionSetsResultAndZeroesKey := by
  intro s code n
  refine ⟨_, rfl, ?_⟩
  simp [State.busy, State.rngWaiting, State.irq]

/-- Settles O24: without a request pending the answer is dropped. -/
theorem unrequestedAnswerIsDiscarded : Obligations.UnrequestedAnswerIsDiscarded := by
  intro s a es hp he
  rw [step_cons s _ es he]
  exact if_neg fun h => hp h.1

/-! ### The reset state -/

theorem blockReset_reset : State.reset.BlockReset :=
  ⟨rfl, rfl, rfl, rfl, rfl, rfl, rfl, rfl, rfl, rfl, rfl, rfl, ⟨rfl, rfl, rfl, rfl, rfl, rfl, rfl⟩, rfl, rfl, rfl, rfl⟩

/-- A block at its reset values meets the invariant, in reset and out of it. -/
theorem inv_of_blockReset {s : State} (hm : s.mem.wf = true) (h : s.BlockReset) : s.Inv where
  memory := hm
  idle_clean _ := h.hidden
  check_clean _ := h.hidden
  request := by simp [h.rngReq, h.phase]
  answer := h.rngAnswer
  busy_cleared hx := absurd h.phase hx
  error_len _ := h.outLen
  rng_wait hx := by simp [h.phase] at hx
  precheck hx := by simp [h.phase] at hx
  run hx := by simp [h.phase] at hx
  hung hx := by simp [h.busHung] at hx
  raced hx := by simp [h.raced] at hx
  reset_held _ := h

/-- Settles O6. -/
theorem invariantAtReset : Obligations.InvariantAtReset := inv_of_blockReset rfl blockReset_reset

/-- The window holds a register at every aligned offset up to 0x3C, and nowhere else (R40). -/
theorem exists_regAt_iff (off : Nat) : (∃ r, regAt off = some r) ↔ off % 4 = 0 ∧ off ≤ 0x3C := by
  constructor
  · rintro ⟨r, hr⟩
    rw [(regAt_eq_some_iff off r).1 hr]
    cases r with
    | key w =>
      have := w.isLt
      simp only [regOffset]
      omega
    | _ => decide
  · rintro ⟨halign, hhi⟩
    have hcases : off = 0x00 ∨ off = 0x04 ∨ off = 0x08 ∨ off = 0x0C ∨ off = 0x10 ∨ off = 0x14 ∨ off = 0x18 ∨
        off = 0x1C ∨ 0x20 ≤ off := by omega
    rcases hcases with rfl | rfl | rfl | rfl | rfl | rfl | rfl | rfl | hlo
    exacts [⟨.cmd, rfl⟩, ⟨.status, rfl⟩, ⟨.srcAddr, rfl⟩, ⟨.dstAddr, rfl⟩, ⟨.srcLen, rfl⟩, ⟨.outLen, rfl⟩,
      ⟨.keyLen, rfl⟩, ⟨.irqEn, rfl⟩, (exists_regAt_eq_key ⟨hlo, hhi, halign⟩).imp' .key fun _ h => h]

theorem readReg_reset (r : Reg) : readReg State.reset r = 0 := by cases r <;> rfl

/-- Settles O59: a read finds a register, and every register of the reset state reads 0. -/
theorem resetStateReadsZero : Obligations.ResetStateReadsZero := by
  refine ⟨fun off halign hhi => ?_, rfl, rfl, blockReset_reset.hidden, rfl, rfl⟩
  obtain ⟨r, hr⟩ := (exists_regAt_iff off).2 ⟨halign, hhi⟩
  exact ⟨_, hostStep_regRead State.reset off r rfl hr, congrArg HostResp.word (readReg_reset r)⟩

/-! ### Illegal accesses -/

/-- R110: only an aligned 32-bit access inside the window names a register. -/
theorem legalReg_eq_none (size : AccessSize) (off : Nat) (h : size ≠ .word ∨ off % 4 ≠ 0 ∨ 0x3C < off) :
    legalReg size off = none := by
  cases size with
  | byte => rfl
  | half => rfl
  | word =>
    refine Option.eq_none_iff_forall_ne_some.2 fun r hr => ?_
    obtain ⟨halign, hhi⟩ := (exists_regAt_iff off).1 ⟨r, hr⟩
    rcases h with h | h | h
    exacts [h rfl, h halign, by omega]

/-- Settles O19: the access names no register. -/
theorem illegalAccessChangesNothing : Obligations.IllegalAccessChangesNothing := by
  intro s size off w hi h
  simp [hostStep, hi, legalReg_eq_none size off h, badAccess]

/-! ### The reset input -/

theorem blockReset_resetAssert (s : State) : (resetAssert s).BlockReset :=
  ⟨rfl, rfl, rfl, rfl, rfl, rfl, rfl, rfl, rfl, rfl, rfl, rfl, ⟨rfl, rfl, rfl, rfl, rfl, rfl, rfl⟩, rfl, rfl, rfl, rfl⟩

/-- What the block is does not depend on the level of the reset input. -/
theorem blockReset_resetRelease {s : State} (h : s.BlockReset) : (resetRelease s).BlockReset := by
  obtain ⟨h1, h2, h3, h4, h5, h6, h7, h8, h9, h10, h11, h12, ⟨z1, z2, z3, z4, z5, z6, z7⟩, h14, h15, h16, h17⟩ := h
  exact ⟨h1, h2, h3, h4, h5, h6, h7, h8, h9, h10, h11, h12, ⟨z1, z2, z3, z4, z5, z6, z7⟩, h14, h15, h16, h17⟩

theorem resetMemory_idle {s : State} (hb : s.busy = false) : resetMemory s = s := by
  simp [resetMemory, activeCommand, hb]

theorem resetMemory_busy {s : State} {i : Instr} (hb : s.busy = true) (hd : decode s.cmdLast = .cmd i) :
    resetMemory s = scrambleRegion s s.dst (min (outmaxOf i s.len) (Config.addrSpace - s.dst)) := by
  simp [resetMemory, activeCommand, decode?, hb, hd]

theorem resetAssert_mem (s : State) : (resetAssert s).mem = (resetMemory s).mem := rfl

/-- Settles O60: reset leaves the block as `blockReset_resetAssert` says and memory as `resetMemory` says. -/
theorem resetRestoresTheBlock : Obligations.ResetRestoresTheBlock := by
  refine ⟨fun s hr => ?_, fun s es he => ?_⟩
  · simp [hostStep, hr]
  have hblock := blockReset_resetAssert { s with events := es }
  refine ⟨_, step_cons s _ es he, hblock, rfl, rfl, rfl, rfl, blockReset_resetRelease hblock, fun hb => ?_,
    fun i hd hb => ?_⟩
  · rw [resetAssert_mem, resetMemory_idle (s := { s with events := es }) hb]
  · rw [resetAssert_mem, resetMemory_busy (s := { s with events := es }) hb hd, scrambleRegion_mem]
    refine ⟨fun c hc => Memory.read_scramble_outside _ _ _ _ _ ?_, s.draws, fun j hj hend => ?_⟩
    · simp only [State.dst, State.len] at hc ⊢
      omega
    · have hdst := dst_lt s
      have hspace : Config.addrSpace = 4294967296 := rfl
      simp only [State.dst, State.len] at hj hend hdst ⊢
      exact Memory.read_scramble_inside _ _ _ _ _ (by omega) (by omega)

end Sys2Proof.Machine
end

section
/-!
SUPPORT. The key registers seen from the host: LOADKEY puts a key in, and no host access lets anything of it out (R54, R98,
R280).
-/

namespace Sys2Proof.Machine

/-! ### LOADKEY -/

theorem extractLsb'_bytesWord (b0 b1 b2 b3 : Byte) (j : Nat) (hj : j < 4) :
    (bytesWord b0 b1 b2 b3).extractLsb' (8 * j) 8 = [b0, b1, b2, b3].getD j 0 := by
  have h0 := b0.isLt
  have h1 := b1.isLt
  have h2 := b2.isLt
  have h3 := b3.isLt
  apply BitVec.eq_of_toNat_eq
  simp only [bytesWord, BitVec.extractLsb'_toNat, toNat_append_eq, Nat.shiftRight_eq_div_pow]
  interval_cases j <;> simp <;> omega

/-- Byte j mod 4 of word j div 4 of a key is its byte j (R54). -/
theorem extractLsb'_keyWord (k : List Byte) (j : Nat) :
    (keyWord k (j / 4)).extractLsb' (8 * (j % 4)) 8 = k.getD j 0 := by
  have hj : j = 4 * (j / 4) + j % 4 := by omega
  rw [keyWord, extractLsb'_bytesWord _ _ _ _ _ (by omega)]
  conv_rhs => rw [hj]
  have : j % 4 < 4 := by omega
  interval_cases j % 4 <;> rfl

/-- The key registers after LOADKEY (R98). -/
def loadedKeys (k : List Byte) : KeyRegs :=
  ⟨keyWord k 0, keyWord k 1, keyWord k 2, keyWord k 3, keyWord k 4, keyWord k 5, keyWord k 6, keyWord k 7⟩

theorem loadedKeys_words (k : List Byte) : (loadedKeys k).words = (List.range 8).map (keyWord k) := rfl

theorem KeyRegs.length_bytes (k : KeyRegs) : k.bytes.length = 32 := rfl

/-- The first bytes of the loaded registers are the key. -/
theorem take_bytes_loadedKeys (k : List Byte) (h : k.length ≤ 32) : (loadedKeys k).bytes.take k.length = k := by
  have hlen : ((loadedKeys k).bytes.take k.length).length = k.length := by
    rw [List.length_take, KeyRegs.length_bytes]
    omega
  refine List.ext_getElem hlen fun j h1 h2 => ?_
  have h32 : j < (loadedKeys k).bytes.length := by rw [KeyRegs.length_bytes]; omega
  rw [List.getElem_take, ← List.getD_eq_getElem _ 0 h32, ← List.getD_eq_getElem _ 0 h2, KeyRegs.getD_bytes,
    loadedKeys_words, List.getD_eq_getElem _ _ (by simp; omega)]
  simpa using extractLsb'_keyWord k j

/-- One step of the machine and then the rest of a run. -/
theorem core_run_succ {s t : State} (h : step s = .next t) (k : Nat) :
    Host.Core.run Sys2Proof.core (k + 1) s = Host.Core.run Sys2Proof.core k t := by
  have h' : Sys2Proof.core.step s = .next t := h
  simp only [Host.Core.run, h']

/-- A state in the middle of a LOADKEY: these key registers, the schedule's next events, any record of the last access. -/
def LoadingKey (s : State) (ks : KeyRegs) (es : List Event) (t : State) : Prop :=
  ∃ r, t = { s with keys := ks, resp := r, events := es }

/-- One of the key register writes of LOADKEY (R97, R114). -/
theorem step_loadingKey {s t : State} {ks : KeyRegs} {i : Fin 8} {w : Word} {es : List Event}
    (hi : s.inReset = false) (hp : s.phase = .idle) (h : LoadingKey s ks (opW (.key i) w :: es) t) :
    ∃ u, step t = .next u ∧ LoadingKey s (ks.write i w) es u := by
  obtain ⟨r, rfl⟩ := h
  exact ⟨_, (step_cons _ (opW (.key i) w) es rfl).trans
    (hostStep_regWrite_taken { s with keys := ks, resp := r, events := es } (.key i) w hi (.inl hp)), .written, rfl⟩

/-- Its last write, of KEY_LEN. -/
theorem step_loadingKeyLen {s t : State} {ks : KeyRegs} {w : Word} {es : List Event}
    (hi : s.inReset = false) (hp : s.phase = .idle) (h : LoadingKey s ks (opW .keyLen w :: es) t) :
    step t = .next { s with keys := ks, keyLen := w, resp := .written, events := es } := by
  obtain ⟨r, rfl⟩ := h
  exact (step_cons _ (opW .keyLen w) es rfl).trans
    (hostStep_regWrite_taken { s with keys := ks, resp := r, events := es } .keyLen w hi (.inl hp))

/-- The nine writes of LOADKEY, one after the other. -/
theorem core_run_opLoadKey (s : State) (k : List Byte) (hi : s.inReset = false) (hp : s.phase = .idle) :
    Host.Core.run Sys2Proof.core 9 { s with events := opLoadKey k } =
      .next { s with
        keys := loadedKeys k, keyLen := BitVec.ofNat 32 k.length, resp := .written, events := [] } := by
  have h0 : LoadingKey s s.keys (opLoadKey k) { s with events := opLoadKey k } := ⟨s.resp, rfl⟩
  obtain ⟨t1, e1, h1⟩ := step_loadingKey hi hp h0
  obtain ⟨t2, e2, h2⟩ := step_loadingKey hi hp h1
  obtain ⟨t3, e3, h3⟩ := step_loadingKey hi hp h2
  obtain ⟨t4, e4, h4⟩ := step_loadingKey hi hp h3
  obtain ⟨t5, e5, h5⟩ := step_loadingKey hi hp h4
  obtain ⟨t6, e6, h6⟩ := step_loadingKey hi hp h5
  obtain ⟨t7, e7, h7⟩ := step_loadingKey hi hp h6
  obtain ⟨t8, e8, h8⟩ := step_loadingKey hi hp h7
  have e9 := step_loadingKeyLen hi hp h8
  rw [core_run_succ e1, core_run_succ e2, core_run_succ e3, core_run_succ e4, core_run_succ e5, core_run_succ e6,
    core_run_succ e7, core_run_succ e8, core_run_succ e9]
  rfl

/-- Settles O56: the state after the nine writes, whose first KEY_LEN key bytes are the key. -/
theorem loadKeySetsTheKey : Obligations.LoadKeySetsTheKey := by
  intro s k hi hp hk
  have hlen : (BitVec.ofNat 32 k.length).toNat = k.length := by
    rw [BitVec.toNat_ofNat]
    omega
  refine ⟨_, core_run_opLoadKey s k hi hp, ?_, ?_, rfl⟩
  · simp only [State.key, hlen]
    exact take_bytes_loadedKeys k (by omega)
  · rw [keyValid_iff]
    simpa only [hlen] using hk

/-! ### Host accesses over two keys -/

theorem hostBytes_keys (s : State) (k : KeyRegs) (ctr a n : Nat) :
    hostBytes { s with keys := k } ctr a n = hostBytes s ctr a n := by
  induction n generalizing ctr a with
  | zero => rfl
  | succ n ih =>
    simp only [hostBytes, ih]
    rfl

theorem hostRead_keys (s : State) (k : KeyRegs) (a n : Nat) :
    hostRead { s with keys := k } a n = { hostRead s a n with keys := k } := by
  have hraces : races { s with keys := k } ⟨a, n⟩ = races s ⟨a, n⟩ := rfl
  unfold hostRead
  rw [hraces, hostBytes_keys]
  split <;> rfl

/-- A register write goes the same way, into whatever key registers there are. -/
theorem regWrite_keys (s : State) (k : KeyRegs) (r : Reg) (w : Word) :
    ∃ k', regWrite { s with keys := k } r w = { regWrite s r w with keys := k' } := by
  by_cases hlost : locked r = true ∧ s.busy = true
  · exact ⟨k, by rw [regWrite_lost s r w hlost.1 hlost.2, regWrite_lost { s with keys := k } r w hlost.1 hlost.2]; rfl⟩
  · rw [regWrite_taken s r w hlost, regWrite_taken { s with keys := k } r w hlost]
    cases r with
    | key i => exact ⟨k.write i w, rfl⟩
    | _ => exact ⟨k, rfl⟩

theorem bufferAccess_keys {r : Region} {t u : State} (k : KeyRegs) (h : bufferAccess r t = .next u) :
    bufferAccess r { t with keys := k } = .next { u with keys := k } := by
  unfold bufferAccess at h ⊢
  split at h
  · cases h
  · next hr =>
    cases h
    rw [if_neg hr]

/-- Settles O57, operation by operation. -/
theorem hostAccessRevealsNoKey : Obligations.HostAccessRevealsNoKey := by
  intro op s t k h
  cases op with
  | regRead size off =>
    refine ⟨k, ?_⟩
    simp only [hostStep] at h ⊢
    split at h
    · cases h
    next hr =>
    rw [if_neg hr]
    cases hreg : legalReg size off with
    | none =>
      rw [hreg] at h
      cases h
      rfl
    | some r =>
      rw [hreg] at h
      cases h
      cases r <;> rfl
  | regWrite size off w =>
    simp only [hostStep] at h ⊢
    split at h
    · cases h
    next hr =>
    rw [if_neg hr]
    cases hreg : legalReg size off with
    | none =>
      rw [hreg] at h
      cases h
      exact ⟨k, rfl⟩
    | some r =>
      rw [hreg] at h
      cases h
      obtain ⟨k', hk'⟩ := regWrite_keys s k r w
      exact ⟨k', by simp only [hk']⟩
  | memRead a n =>
    refine ⟨k, ?_⟩
    rw [hostStep, hostRead_keys]
    exact bufferAccess_keys k h
  | memWrite a bs => exact ⟨k, bufferAccess_keys k h⟩
  | waitDone =>
    refine ⟨k, ?_⟩
    simp only [hostStep] at h ⊢
    split at h
    · cases h
    next hr =>
    rw [if_neg hr]
    cases h
    rfl

end Sys2Proof.Machine
end

section
/-!
SUPPORT. Host accesses to buffer memory: a race is one with a byte of the active command's regions and sets its mark, any
other access goes to memory (R77, R117); and what open output leaves in memory at the completion (R72, logs 10 and 12).
-/

namespace Sys2Proof.Machine

/-! ### Races -/

/-- A byte of SRCR or DSTR of the command in CMD_LAST (R65, R77). -/
def InBuffers (s : State) (c : Nat) : Prop :=
  ∃ i, decode s.cmdLast = .cmd i ∧
    ((s.src ≤ c ∧ c < s.src + s.len) ∨ (s.dst ≤ c ∧ c < s.dst + outmaxOf i s.len))

theorem races_iff_inBuffers (s : State) (a n : Nat) :
    races s ⟨a, n⟩ = true ↔ s.busy = true ∧ ∃ c, a ≤ c ∧ c < a + n ∧ InBuffers s c := by
  rw [races_iff]
  simp only [InBuffers, and_assoc]

theorem races_eq_false (s : State) (a n : Nat) (h : s.busy = false ∨ ∀ c, a ≤ c → c < a + n → ¬InBuffers s c) :
    races s ⟨a, n⟩ = false := by
  rw [Bool.eq_false_iff, ne_eq, races_iff_inBuffers]
  rintro ⟨hb, c, hlo, hhi, hc⟩
  rcases h with h | h
  · simp [h] at hb
  · exact h c hlo hhi hc

theorem bufferAccess_fits (a n : Nat) (t : State) (h : a + n ≤ 4294967296) : bufferAccess ⟨a, n⟩ t = .next t :=
  if_neg (Nat.not_lt.2 h)

/-! ### What a host read answers -/

theorem hostReadsFree_of_race {s : State} {c : Nat} (hb : s.busy = true) (hc : InBuffers s c) :
    hostReadsFree s c = true := by
  rw [hostReadsFree, (races_iff_inBuffers s c 1).2 ⟨hb, c, Nat.le_refl c, by omega, hc⟩, Bool.true_or]

/-- A byte is not among the non-plain ones when its one-byte region meets none of them. -/
theorem inRegions_eq_false_of_plain {p : Platform} {c : Nat} (h : plainRegion p ⟨c, 1⟩) :
    inRegions (nonPlainRegions p) c = false :=
  plainRange_of_meets p c 1 h c (Nat.le_refl c) (by omega)

theorem hostReadsFree_eq_false {s : State} {c : Nat} (hb : s.busy = false ∨ ¬InBuffers s c)
    (hp : plainRegion s.platform ⟨c, 1⟩) : hostReadsFree s c = false := by
  rw [hostReadsFree, inRegions_eq_false_of_plain hp, Bool.or_false]
  refine races_eq_false s c 1 (hb.imp id fun hc d hlo hhi => ?_)
  rwa [show d = c by omega]

/-- A read with an open byte answers byte by byte what `hostReadsFree` says, and sets the mark when it races. -/
theorem hostRead_open (s : State) (a n : Nat)
    (h : races s ⟨a, n⟩ = true ∨ meetsRegions (nonPlainRegions s.platform) ⟨a, n⟩ = true) :
    hostRead s a n =
      { s with
        resp := .bytes (hostBytes s s.draws a n)
        draws := s.draws + n
        bufferRace := s.bufferRace || races s ⟨a, n⟩ } :=
  if_pos (Bool.or_eq_true_iff.2 h)

/-- A read that does not race answers memory at every plain byte, and leaves the mark. -/
theorem hostRead_unraced (s : State) (a n : Nat) (hr : races s ⟨a, n⟩ = false) :
    ∃ v d, hostRead s a n = { s with resp := .bytes v, draws := d } ∧ v.length = n ∧
      ∀ j, j < n → hostReadsFree s (a + j) = false → v.getD j 0 = s.mem.read (a + j) := by
  cases hm : meetsRegions (nonPlainRegions s.platform) ⟨a, n⟩ with
  | true =>
    refine ⟨hostBytes s s.draws a n, s.draws + n, ?_, length_hostBytes _ _ _ _, fun j hj hfree => ?_⟩
    · rw [hostRead_open s a n (.inr hm), hr, Bool.or_false]
    · rw [getD_hostBytes _ _ _ _ _ hj, hfree]
      rfl
  | false =>
    refine ⟨s.mem.readRange a n, s.draws, hostRead_plain s a n hr hm, Memory.length_readRange _ _ _, fun j hj _ => ?_⟩
    rw [List.getD_eq_getElem _ _ (by simpa using hj), Memory.getElem_readRange]

/-! ### What a host write stores -/

/-- The bytes of a host write are stored and nothing else of memory changes (R117). -/
theorem storedAt_hostWrite (s t : State) (a : Nat) (bs : List Byte) (h : a + bs.length ≤ 4294967296)
    (ht : t.mem = s.mem.writeRange a bs) : StoredAt s t a bs := by
  rw [StoredAt, ht]
  exact ⟨Memory.readRange_writeRange _ _ _ h, fun c hc => Memory.read_writeRange_outside _ _ _ _ (by omega)⟩

/-! ### The mark BUFFER_RACE -/

theorem bufferRace_eq_of_hostSide {s t : State} (h : t.hostSide = s.hostSide) : t.bufferRace = s.bufferRace :=
  show t.hostSide.bufferRace = s.hostSide.bufferRace from congrArg State.bufferRace h

theorem writeReg_bufferRace (s : State) (r : Reg) (w : Word) : (writeReg s r w).bufferRace = s.bufferRace := by
  cases r <;> rfl

theorem regWrite_bufferRace (s : State) (r : Reg) (w : Word) : (regWrite s r w).bufferRace = s.bufferRace := by
  unfold regWrite
  split
  · rfl
  · exact writeReg_bufferRace s r w

/-- A host operation sets the mark when it is a buffer access that races, and else leaves it. -/
theorem hostStep_bufferRace {op : HostOp} {s t : State} (h : hostStep op s = .next t) :
    t.bufferRace = s.bufferRace ∨
      ∃ a n, (op = .memRead a n ∨ ∃ bs, op = .memWrite a bs ∧ n = bs.length) ∧
        t.bufferRace = (s.bufferRace || races s ⟨a, n⟩) := by
  cases op with
  | regRead size off =>
    simp only [hostStep] at h
    split at h
    · cases h
    · split at h <;> cases h <;> exact .inl rfl
  | regWrite size off w =>
    simp only [hostStep] at h
    split at h
    · cases h
    · split at h <;> cases h
      · exact .inl (regWrite_bufferRace s _ w)
      · exact .inl rfl
  | memRead a n =>
    rcases bufferAccess_cases ⟨a, n⟩ (hostRead s a n) with e | ⟨e, -⟩
    · cases e.symm.trans h
    · cases e.symm.trans h
      exact .inr ⟨a, n, .inl rfl, by rw [hostRead_frame]⟩
  | memWrite a bs =>
    rcases bufferAccess_cases ⟨a, bs.length⟩ (hostWrite s a bs) with e | ⟨e, -⟩
    · cases e.symm.trans h
    · cases e.symm.trans h
      exact .inr ⟨a, bs.length, .inr ⟨bs, rfl, rfl⟩, rfl⟩
  | waitDone =>
    simp only [hostStep] at h
    split at h <;> cases h
    exact .inl rfl

/-- A step of the machine leaves the mark, or is a buffer access of the host. -/
theorem step_bufferRace {s t : State} (h : step s = .next t) :
    t.bufferRace = s.bufferRace ∨
      ∃ op a n es, s.events = .host op :: es ∧ (op = .memRead a n ∨ ∃ bs, op = .memWrite a bs ∧ n = bs.length) ∧
        t.bufferRace = (s.bufferRace || races s ⟨a, n⟩) := by
  cases he : s.events with
  | nil =>
    rw [step_nil s he] at h
    obtain ⟨u, hu, hside⟩ := engineStep_hostSide s
    cases hu.symm.trans h
    exact .inl (bufferRace_eq_of_hostSide hside)
  | cons e es =>
    rw [step_cons s e es he] at h
    cases e with
    | engine =>
      obtain ⟨u, hu, hside⟩ := engineStep_hostSide { s with events := es }
      cases hu.symm.trans h
      exact .inl (bufferRace_eq_of_hostSide (s := { s with events := es }) hside)
    | host op =>
      rcases hostStep_bufferRace h with hb | ⟨a, n, hop, hb⟩
      · exact .inl hb
      · exact .inr ⟨op, a, n, es, rfl, hop, hb⟩
    | rng a =>
      obtain ⟨u, hu, hside⟩ := rngStep_hostSide a { s with events := es }
      cases hu.symm.trans h
      exact .inl (bufferRace_eq_of_hostSide (s := { s with events := es }) hside)
    | resetAssert =>
      cases h
      exact .inl rfl
    | resetRelease =>
      cases h
      exact .inl rfl

/-- Settles O22: the race of an access decides its outcome, and the mark follows the one lemma on what a step does to it. -/
theorem bufferRaceFaults : Obligations.BufferRaceFaults := by
  refine ⟨?access, fun s t h => ⟨fun h1 => ?kept, fun h0 h1 => ?cause⟩⟩
  case access =>
    intro s a n bs hn hfit inBuffers
    refine ⟨?race, ?memory⟩
    case race =>
      rintro ⟨hb, hc⟩
      have hr : races s ⟨a, n⟩ = true := (races_iff_inBuffers s a n).2 ⟨hb, hc⟩
      refine ⟨⟨hostBytes s s.draws a n, s.draws + n, ?_, length_hostBytes _ _ _ _, s.draws, fun j hj => ⟨fun hin => ?_,
        fun hout hplain => ?_⟩⟩, _, bufferAccess_fits a bs.length _ (hn ▸ hfit), ?_,
        storedAt_hostWrite s _ a bs (hn ▸ hfit) rfl⟩
      · rw [hostStep, bufferAccess_fits a n _ hfit, hostRead_open s a n (.inl hr), hr, Bool.or_true]
      · rw [getD_hostBytes _ _ _ _ _ hj, hostReadsFree_of_race hb hin]
        rfl
      · rw [getD_hostBytes _ _ _ _ _ hj, hostReadsFree_eq_false (.inr hout) hplain]
        rfl
      · rw [hostWrite, ← hn, hr, Bool.or_true, Bool.or_true]
    case memory =>
      intro hno
      have hr : races s ⟨a, n⟩ = false := races_eq_false s a n hno
      refine ⟨fun hplain => ?_, ?_, _, bufferAccess_fits a bs.length _ (hn ▸ hfit), ?_,
        storedAt_hostWrite s _ a bs (hn ▸ hfit) rfl⟩
      · rw [hostStep, bufferAccess_fits a n _ hfit, hostRead_plain s a n hr hplain]
      · obtain ⟨v, d, hread, hlen, hbytes⟩ := hostRead_unraced s a n hr
        refine ⟨v, d, by rw [hostStep, bufferAccess_fits a n _ hfit, hread], hlen, fun j hj hplain => ?_⟩
        refine hbytes j hj (hostReadsFree_eq_false (hno.imp id fun hno => ?_) hplain)
        exact hno (a + j) (by omega) (by omega)
      · rw [hostWrite, ← hn, hr, Bool.or_false, Bool.or_false]
  case kept =>
    rcases step_bufferRace h with hb | ⟨_, _, _, _, _, _, hb⟩
    · exact hb.trans h1
    · rw [hb, h1, Bool.true_or]
  case cause =>
    rcases step_bufferRace h with hb | ⟨op, a, n, es, he, hop, hb⟩
    · rw [hb, h0] at h1
      cases h1
    · rw [hb, h0, Bool.false_or] at h1
      obtain ⟨hbusy, c, hlo, hhi, i, hd, hin⟩ := (races_iff_inBuffers s a n).1 h1
      exact ⟨hbusy, op, a, n, es, he, hop, i, hd, c, hlo, hhi, hin⟩

/-! ### Open output -/

theorem Region.has_iff (r : Region) (c : Nat) : r.has c = true ↔ r.base ≤ c ∧ c < r.base + r.len := by
  simp [Region.has]

theorem meetsRegions_iff (rs : List Region) (r : Region) :
    meetsRegions rs r = true ↔ ∃ c, inRegions rs c = true ∧ r.base ≤ c ∧ c < r.base + r.len := by
  simp only [meetsRegions, inRegions, List.any_eq_true, Region.meets_iff, Region.has_iff]
  constructor
  · rintro ⟨q, hq, c, hqc, hrc⟩
    exact ⟨c, ⟨q, hq, hqc⟩, hrc⟩
  · rintro ⟨c, ⟨q, hq, hqc⟩, hrc⟩
    exact ⟨q, hq, c, hqc, hrc⟩

/-- When the output of a command is open (R72, R77). -/
theorem outputFree_iff (s : State) :
    outputFree s = true ↔ s.raced = true ∨ ∃ c, inRegions (nonPlainRegions s.platform) c = true ∧
      ((s.src ≤ c ∧ c < s.src + s.len) ∨ (s.dst ≤ c ∧ c < s.dst + s.outmax.toNat)) := by
  simp only [outputFree, Bool.or_eq_true, meetsRegions_iff, State.srcr, or_assoc, and_or_left, exists_or]

/-- An open output leaves a free byte in every byte of DSTR. -/
theorem complete_open (s : State) (n : Nat) (h : outputFree s = true) :
    (complete s n).mem = s.mem.scramble s.draws s.dst s.outmax.toNat := by
  rw [complete, if_pos h]
  rfl

/-- Settles O55: the output is open, and the completion draws a free byte for each byte of DSTR. -/
theorem nonPlainMemoryScramblesOutput : Obligations.NonPlainMemoryScramblesOutput := by
  intro s n hfit hopen
  rw [complete_open s n ((outputFree_iff s).2 hopen)]
  exact ⟨⟨s.draws, fun j hj => Memory.read_scramble_inside _ _ _ _ _ hfit hj⟩,
    fun c hc => Memory.read_scramble_outside _ _ _ _ _ (by omega)⟩

end Sys2Proof.Machine
end

section
/-!
SUPPORT. One step of the engine in RUN and in PRECHECK where the bus serves every access and memory is plain: the exact state
after each unit (R133 to R135, R174, R177, R204, R206, R207, R233, R235, R236).
-/

namespace Sys2Proof.Machine

/-! ### The unit of each command -/

/-- One unit of RUN of a command. -/
def runUnit (i : Instr) (s : State) : Access Unit :=
  match i with
  | .encCfb => encCfbRun (Config.E s.key) s
  | .decCfb => decCfbRun (Config.E s.key) s
  | .encCbc => encCbcRun (Config.E s.key) s
  | .decCbc => decCbcRun (Config.D s.key) s
  | .pad bs => padRun bs.toNat s
  | .unpad _ => unpadRun s

/-- In RUN the step of a command is its unit, and what the bus makes of it. -/
theorem exec_run (i : Instr) {s : State} (hp : s.phase = .run) : exec i s = .next (settle (runUnit i s)) := by
  cases i with
  | encCfb => simp [exec, execEncCfb, encCfbStep, hp, runUnit]
  | decCfb => simp [exec, execDecCfb, decCfbStep, hp, runUnit]
  | encCbc => simp [exec, execEncCbc, encCbcStep, hp, runUnit]
  | decCbc => simp [exec, execDecCbc, decCbcStep, hp, runUnit]
  | pad bs => simp [exec, execPad, padStep, hp, runUnit]
  | unpad bs => simp [exec, execUnpad, unpadStep, hp, runUnit]

theorem exec_run_of_ok {i : Instr} {s t : State} (hp : s.phase = .run) (h : runUnit i s = .ok () t) :
    exec i s = .next t := by rw [exec_run i hp, h, settle_ok]

/-- PRECHECK of the two commands that have one. -/
def precheckUnit (i : Instr) (s : State) : Access Unit :=
  match i with
  | .decCbc => decCbcPrecheck (Config.D s.key) s
  | .unpad bs => unpadPrecheck bs.toNat s
  | .encCfb => .ok () s
  | .decCfb => .ok () s
  | .encCbc => .ok () s
  | .pad _ => .ok () s

/-- In PRECHECK the step of a command is its unit, and what the bus makes of it. -/
theorem exec_precheck (i : Instr) {s : State} (hp : s.phase = .precheck) :
    exec i s = .next (settle (precheckUnit i s)) := by
  cases i with
  | encCfb => simp [exec, execEncCfb, encCfbStep, hp, precheckUnit]
  | decCfb => simp [exec, execDecCfb, decCfbStep, hp, precheckUnit]
  | encCbc => simp [exec, execEncCbc, encCbcStep, hp, precheckUnit]
  | decCbc => simp [exec, execDecCbc, decCbcStep, hp, precheckUnit]
  | pad bs => simp [exec, execPad, padStep, hp, precheckUnit]
  | unpad bs => simp [exec, execUnpad, unpadStep, hp, precheckUnit]

theorem exec_precheck_of_ok {i : Instr} {s t : State} (hp : s.phase = .precheck) (h : precheckUnit i s = .ok () t) :
    exec i s = .next t := by rw [exec_precheck i hp, h, settle_ok]

/-! ### Served and plain ranges -/

theorem servedRange_of_region {p : Platform} {a n : Nat} (h : servedRegion p ⟨a, n⟩) : servedRange p a n :=
  fun c hlo hhi => h c ((Region.has_iff _ _).2 ⟨hlo, hhi⟩)

theorem servedRange_mono {p : Platform} {a n b k : Nat} (h : servedRange p a n) (hlo : a ≤ b) (hhi : b + k ≤ a + n) :
    servedRange p b k := fun c h1 h2 => h c (by omega) (by omega)

theorem plainRange_mono {p : Platform} {a n b k : Nat} (h : plainRange p a n) (hlo : a ≤ b) (hhi : b + k ≤ a + n) :
    plainRange p b k := fun c h1 h2 => h c (by omega) (by omega)

/-- The bus serves no byte past the buffer space (R64). -/
theorem servedRange_end {p : Platform} {a n : Nat} (h : servedRange p a n) (hn : 0 < n) : a + n ≤ Config.addrSpace := by
  have hlast := h (a + n - 1) (by omega) (by omega)
  unfold busAnswer at hlast
  split at hlast
  · next hc => omega
  · split at hlast <;> cases hlast

/-- A served write stores its bytes and changes nothing else of memory. -/
theorem storedAt_of_served {s t : State} {a : Nat} {bs : List Byte} {p : Platform} (h : servedRange p a bs.length)
    (ht : t.mem = s.mem.writeRange a bs) : StoredAt s t a bs := by
  rcases Nat.eq_zero_or_pos bs.length with h0 | hpos
  · rw [List.length_eq_zero_iff.1 h0] at ht ⊢
    exact ⟨rfl, fun c _ => by rw [ht]; rfl⟩
  · exact storedAt_hostWrite s t a bs (servedRange_end h hpos) ht

/-! ### The IV access -/

theorem prependIv_served (s : State) (h : servedRange s.platform s.dst 16) :
    prependIv s =
      .ok () { s with mem := s.mem.writeRange s.dst s.ivb.1, chain := s.ivb, pos := 0, ivMoved := true } := by
  rw [prependIv, dmaWrite_served _ _ _ (by simpa using h), Access.bind_ok]

theorem splitIv_served (s : State) (h : servedRange s.platform s.src 16) (hp : plainRange s.platform s.src 16)
    (hr : s.raced = false) :
    splitIv s = .ok () { s with chain := blockOfBytes (s.mem.readRange s.src 16), pos := 16, ivMoved := true } := by
  rw [splitIv, dmaRead_served _ _ _ h hp hr, Access.bind_ok]

theorem runUnit_prependIv {i : Instr} {s : State} (hi : i = .encCfb ∨ i = .encCbc) (hiv : s.ivMoved = false) :
    runUnit i s = prependIv s := by
  rcases hi with rfl | rfl
  · exact if_pos hiv
  · exact if_pos hiv

theorem runUnit_splitIv {i : Instr} {s : State} (hi : i = .decCfb ∨ i = .decCbc) (hiv : s.ivMoved = false) :
    runUnit i s = splitIv s := by
  rcases hi with rfl | rfl
  · exact if_pos hiv
  · exact if_pos hiv

/-- Settles O25: the IV access is the first unit of both commands. -/
theorem encryptionWritesIvFirst : Obligations.EncryptionWritesIvFirst := by
  intro i s hi hp hiv hs
  have hserved := servedRange_of_region hs
  exact ⟨_, exec_run_of_ok hp ((runUnit_prependIv hi hiv).trans (prependIv_served s hserved)), rfl,
    storedAt_of_served (by simpa using hserved) rfl⟩

/-- Settles O26: so it is of the two decrypt commands, as a read. -/
theorem decryptionReadsIvFirst : Obligations.DecryptionReadsIvFirst := by
  intro i s hi hp hiv hs hplain hr
  exact exec_run_of_ok hp ((runUnit_splitIv hi hiv).trans
    (splitIv_served s (servedRange_of_region hs) (plainRange_of_meets _ _ _ hplain) hr))

/-! ### Segments of CFB -/

/-- The size of the next unit of the source: 16 bytes, or what is left of it. -/
def unitTake (s : State) : Nat := min 16 (s.len - s.posn)

/-- The next source bytes. -/
def nextBytes (s : State) : List Byte := s.mem.readRange (s.src + s.posn) (unitTake s)

@[simp] theorem length_nextBytes (s : State) : (nextBytes s).length = unitTake s := Memory.length_readRange _ _ _

/-- The state after a segment of ENC_CFB. -/
def afterEncCfbSegment (E : Block → Block) (s : State) : State :=
  advance
    { s with
      mem := s.mem.writeRange (s.dst + 16 + s.posn) (cfbCombine E s.chain (nextBytes s))
      blk := patchBlock s.blk (nextBytes s)
      chain := cfbFeedback 16 s.chain (cfbCombine E s.chain (nextBytes s)) }
    (unitTake s)

/-- The state after a segment of DEC_CFB. -/
def afterDecCfbSegment (E : Block → Block) (s : State) : State :=
  advance
    { s with
      mem := s.mem.writeRange (s.dst + s.posn - 16) (cfbCombine E s.chain (nextBytes s))
      blk := patchBlock s.blk (nextBytes s)
      chain := cfbFeedback 16 s.chain (nextBytes s) }
    (unitTake s)

theorem length_cfbCombine_nextBytes (E : Block → Block) (s : State) :
    (cfbCombine E s.chain (nextBytes s)).length = unitTake s := by
  rw [length_cfbCombine, length_nextBytes, unitTake]
  omega

theorem encCfbSegment_served (E : Block → Block) (s : State)
    (hs : servedRange s.platform (s.src + s.posn) (unitTake s))
    (hp : plainRange s.platform (s.src + s.posn) (unitTake s)) (hr : s.raced = false)
    (hd : servedRange s.platform (s.dst + 16 + s.posn) (unitTake s)) :
    encCfbSegment E s = .ok () (afterEncCfbSegment E s) := by
  rw [encCfbSegment, show min Config.cfbSeg (s.len - s.posn) = unitTake s from rfl,
    dmaRead_served _ _ _ hs hp hr, Access.bind_ok]
  change Access.bind (dmaWrite _ _ (cfbCombine E s.chain (nextBytes s))) _ = _
  rw [dmaWrite_served _ _ _ (by rw [length_cfbCombine_nextBytes]; exact hd), Access.bind_ok, Memory.length_readRange]
  rfl

theorem decCfbSegment_served (E : Block → Block) (s : State)
    (hs : servedRange s.platform (s.src + s.posn) (unitTake s))
    (hp : plainRange s.platform (s.src + s.posn) (unitTake s)) (hr : s.raced = false)
    (hd : servedRange s.platform (s.dst + s.posn - 16) (unitTake s)) :
    decCfbSegment E s = .ok () (afterDecCfbSegment E s) := by
  rw [decCfbSegment, show min Config.cfbSeg (s.len - s.posn) = unitTake s from rfl,
    dmaRead_served _ _ _ hs hp hr, Access.bind_ok]
  change Access.bind (dmaWrite _ _ (cfbCombine E s.chain (nextBytes s))) _ = _
  rw [dmaWrite_served _ _ _ (by rw [length_cfbCombine_nextBytes]; exact hd), Access.bind_ok, Memory.length_readRange]
  rfl

theorem runUnit_encCfb_segment {s : State} (hiv : s.ivMoved = true) (hlt : s.posn < s.len) :
    runUnit .encCfb s = encCfbSegment (Config.E s.key) s := by
  rw [runUnit, encCfbRun, if_neg (by simp [hiv]), if_pos hlt]

theorem runUnit_decCfb_segment {s : State} (hiv : s.ivMoved = true) (hlt : s.posn < s.len) :
    runUnit .decCfb s = decCfbSegment (Config.E s.key) s := by
  rw [runUnit, decCfbRun, if_neg (by simp [hiv]), if_pos hlt]

/-- The combination in the terms of R170. -/
theorem cfbCombine_nextBytes_eq (E : Block → Block) (s : State) :
    cfbCombine E s.chain (nextBytes s) =
      List.zipWith (· ^^^ ·) (nextBytes s) ((E s.chain).1.take (unitTake s)) := by
  rw [cfbCombine, length_nextBytes]
  rfl

/-- BLK takes the source bytes in front (R174). -/
theorem patchBlock_val (b : Block) (x : List Byte) (h : x.length ≤ 16) : (patchBlock b x).1 = x ++ b.1.drop x.length :=
  blockOfBytes_val _ (by simp; omega)

/-- SR takes a full segment, and else stays (R172). -/
theorem cfbFeedback_val (sr : Block) (c : List Byte) :
    (cfbFeedback 16 sr c).1 = if c.length = 16 then c else sr.1 := by
  split
  · next h => exact cfbFeedback_full sr c h
  · next h => rw [cfbFeedback_partial 16 sr c h]

/-- No unit of the source moves POS past its 33 bits. -/
theorem posn_advance_of_lt (s : State) (n : Nat) (hlt : s.posn < s.len + 16) (hn : n ≤ 16) :
    (advance s n).posn = s.posn + n := posn_advance s n (by have := len_lt s; omega)

/-- Settles O27, from the state after the segment. -/
theorem encCfbSegmentStep : Obligations.EncCfbSegmentStep := by
  intro s hp hiv hlt r hs hplain hr hd x y
  have hd' := servedRange_of_region hd
  refine ⟨_, exec_run_of_ok hp ((runUnit_encCfb_segment hiv hlt).trans
    (encCfbSegment_served _ s (servedRange_of_region hs) (plainRange_of_meets _ _ _ hplain) hr hd')), ?_, ?_, ?_, ?_,
    rfl⟩
  · refine storedAt_of_served (p := s.platform) ?_ ?_
    · rw [show y.length = unitTake s by rw [← length_cfbCombine_nextBytes (Config.E s.key), cfbCombine_nextBytes_eq]; rfl]
      exact hd'
    · rw [show y = cfbCombine (Config.E s.key) s.chain (nextBytes s) from (cfbCombine_nextBytes_eq _ s).symm]
      rfl
  · show (patchBlock s.blk (nextBytes s)).1 = _
    rw [patchBlock_val _ _ (by rw [length_nextBytes, unitTake]; omega), length_nextBytes]
    rfl
  · show (cfbFeedback 16 s.chain (cfbCombine (Config.E s.key) s.chain (nextBytes s))).1 = _
    rw [cfbFeedback_val, length_cfbCombine_nextBytes, cfbCombine_nextBytes_eq]
    rfl
  · exact posn_advance_of_lt _ _ (by exact Nat.lt_add_right 16 hlt) (Nat.min_le_left _ _)

/-- Settles O28, from the state after the segment. -/
theorem decCfbSegmentStep : Obligations.DecCfbSegmentStep := by
  intro s hp hiv h16 hlt r hs hplain hr hd x y
  have hd' := servedRange_of_region hd
  have haddr : s.dst + s.posn - 16 = s.dst + (s.posn - 16) := by omega
  refine ⟨_, exec_run_of_ok hp ((runUnit_decCfb_segment hiv hlt).trans
    (decCfbSegment_served _ s (servedRange_of_region hs) (plainRange_of_meets _ _ _ hplain) hr (haddr ▸ hd'))), ?_, ?_,
    ?_, ?_, rfl⟩
  · refine storedAt_of_served (p := s.platform) ?_ ?_
    · rw [show y.length = unitTake s by rw [← length_cfbCombine_nextBytes (Config.E s.key), cfbCombine_nextBytes_eq]; rfl]
      exact hd'
    · rw [show y = cfbCombine (Config.E s.key) s.chain (nextBytes s) from (cfbCombine_nextBytes_eq _ s).symm, ← haddr]
      rfl
  · show (patchBlock s.blk (nextBytes s)).1 = _
    rw [patchBlock_val _ _ (by rw [length_nextBytes, unitTake]; omega), length_nextBytes]
    rfl
  · show (cfbFeedback 16 s.chain (nextBytes s)).1 = _
    rw [cfbFeedback_val, length_nextBytes]
    rfl
  · exact posn_advance_of_lt _ _ (by exact Nat.lt_add_right 16 hlt) (Nat.min_le_left _ _)

/-! ### Blocks of CBC -/

/-- The plaintext block of ENC_CBC at POS: the next source bytes, and in the last block its padding bytes (R204). -/
def encCbcPlain (s : State) : Block :=
  if s.posn + 16 < 16 * (s.len / 16 + 1) then blockOfBytes (nextBytes s)
  else blockOfBytes (nextBytes s ++ padBytes (padLen 16 s.len))

/-- The state after a block of ENC_CBC. -/
def afterEncCbcBlock (E : Block → Block) (s : State) : State :=
  advance
    { s with
      mem := s.mem.writeRange (s.dst + 16 + s.posn) (E (xorBlock (encCbcPlain s) s.chain)).1
      blk := encCbcPlain s
      chain := E (xorBlock (encCbcPlain s) s.chain) }
    16

theorem encCbcBlock_served (E : Block → Block) (s : State)
    (hs : servedRange s.platform (s.src + s.posn) (unitTake s))
    (hp : plainRange s.platform (s.src + s.posn) (unitTake s)) (hr : s.raced = false)
    (hd : servedRange s.platform (s.dst + 16 + s.posn) 16) :
    encCbcBlock E s = .ok () (afterEncCbcBlock E s) := by
  rw [encCbcBlock, show encCbcTake s = unitTake s from rfl, dmaRead_served _ _ _ hs hp hr, Access.bind_ok]
  change Access.bind (dmaWrite { s with blk := encCbcPlain s } _ (E (xorBlock (encCbcPlain s) s.chain)).1) _ = _
  rw [dmaWrite_served _ _ _ (by rw [length_block]; exact hd), Access.bind_ok]
  rfl

theorem runUnit_encCbc_block {s : State} (hiv : s.ivMoved = true) (hlt : s.posn < 16 * (s.len / 16 + 1)) :
    runUnit .encCbc s = encCbcBlock (Config.E s.key) s := by
  rw [runUnit, encCbcRun, if_neg (by simp [hiv]), if_pos hlt]

/-- At a block boundary the plaintext block is the source bytes and, after them, padding bytes up to 16. -/
theorem encCbcPlain_val (s : State) (h16 : s.posn % 16 = 0) (hlt : s.posn < 16 * (s.len / 16 + 1)) :
    (encCbcPlain s).1 =
      nextBytes s ++ List.replicate (16 - unitTake s) (BitVec.ofNat 8 (16 - s.len % 16)) := by
  unfold encCbcPlain
  split
  · have htake : unitTake s = 16 := by
      rw [unitTake]
      omega
    rw [blockOfBytes_val _ (by rw [length_nextBytes, htake]), htake, Nat.sub_self, List.replicate_zero, List.append_nil]
  · have htake : unitTake s = s.len % 16 := by
      rw [unitTake]
      omega
    have hpad : padLen 16 s.len = 16 - unitTake s := by rw [htake, padLen]
    have hlen : (nextBytes s ++ padBytes (padLen 16 s.len)).length = 16 := by
      rw [List.length_append, length_nextBytes, length_padBytes, hpad]
      omega
    rw [blockOfBytes_val _ hlen, padBytes, hpad, htake]

/-- Settles O29, from the state after the block. -/
theorem encCbcBlockStep : Obligations.EncCbcBlockStep := by
  intro s hp hiv h16 hlt r hs hplain hr hd
  have hd' := servedRange_of_region hd
  refine ⟨_, exec_run_of_ok hp ((runUnit_encCbc_block hiv hlt).trans
    (encCbcBlock_served _ s (servedRange_of_region hs) (plainRange_of_meets _ _ _ hplain) hr hd')),
    encCbcPlain_val s h16 hlt, rfl, storedAt_of_served (p := s.platform) ?_ rfl, ?_, rfl⟩
  · rw [length_block]
    exact hd'
  · exact posn_advance_of_lt _ _ (show s.posn < s.len + 16 by omega) (Nat.le_refl 16)

/-- The output bytes of the block of DEC_CBC at POS: of the decrypted block as many as the output still has room for (R207). -/
def decCbcOut (D : Block → Block) (s : State) : List Byte :=
  (xorBlock (D (blockOfBytes (s.mem.readRange (s.src + s.posn) 16))) s.chain).1.take (decCbcOutLen s - (s.posn - 16))

theorem length_decCbcOut (D : Block → Block) (s : State) :
    (decCbcOut D s).length = min 16 (decCbcOutLen s - (s.posn - 16)) := by
  rw [decCbcOut, List.length_take, length_block, Nat.min_comm]

/-- The state after a block of DEC_CBC. -/
def afterDecCbcBlock (D : Block → Block) (s : State) : State :=
  advance
    { s with
      mem := s.mem.writeRange (s.dst + s.posn - 16) (decCbcOut D s)
      blk := blockOfBytes (s.mem.readRange (s.src + s.posn) 16)
      chain := blockOfBytes (s.mem.readRange (s.src + s.posn) 16) }
    16

theorem decCbcBlock_served (D : Block → Block) (s : State) (hs : servedRange s.platform (s.src + s.posn) 16)
    (hp : plainRange s.platform (s.src + s.posn) 16) (hr : s.raced = false)
    (hd : servedRange s.platform (s.dst + s.posn - 16) (min 16 (decCbcOutLen s - (s.posn - 16)))) :
    decCbcBlock D s = .ok () (afterDecCbcBlock D s) := by
  rw [decCbcBlock, dmaRead_served _ _ _ hs hp hr, Access.bind_ok]
  change Access.bind (dmaWrite _ _ (decCbcOut D s)) _ = _
  rw [dmaWrite_served _ _ _ (by rw [length_decCbcOut]; exact hd), Access.bind_ok]
  rfl

theorem runUnit_decCbc_block {s : State} (hiv : s.ivMoved = true) (hlt : s.posn < s.len) :
    runUnit .decCbc s = decCbcBlock (Config.D s.key) s := by
  rw [runUnit, decCbcRun, if_neg (by simp [hiv]), if_pos hlt]

/-- Taking no more than 16 bytes of a block. -/
theorem take_min_block (b : Block) (n : Nat) : b.1.take (min 16 n) = b.1.take n := by
  rcases Nat.le_total 16 n with h | h
  · rw [Nat.min_eq_left h, List.take_of_length_le (by simp), List.take_of_length_le (by simpa using h)]
  · rw [Nat.min_eq_right h]

/-- Settles O30, from the state after the block. -/
theorem decCbcBlockStep : Obligations.DecCbcBlockStep := by
  intro s hp hiv h16 hlt n w hs hplain hr hd
  have haddr : s.dst + s.posn - 16 = s.dst + (s.posn - 16) := by omega
  have hd' : servedRange s.platform (s.dst + (s.posn - 16)) w := servedRange_of_region hd
  have hblk : (blockOfBytes (s.mem.readRange (s.src + s.posn) 16)).1 = s.mem.readRange (s.src + s.posn) 16 :=
    blockOfBytes_val _ (Memory.length_readRange _ _ _)
  refine ⟨_, exec_run_of_ok hp ((runUnit_decCbc_block hiv hlt).trans
    (decCbcBlock_served _ s (servedRange_of_region hs) (plainRange_of_meets _ _ _ hplain) hr (haddr ▸ hd'))), hblk, rfl,
    ?_, ?_, rfl⟩
  · have hout : (xorBlock (Config.D s.key (afterDecCbcBlock (Config.D s.key) s).blk) s.chain).1.take w =
        decCbcOut (Config.D s.key) s := take_min_block _ _
    rw [hout]
    refine storedAt_of_served (p := s.platform) ?_ ?_
    · rw [length_decCbcOut]
      exact hd'
    · rw [← haddr]
      rfl
  · exact posn_advance_of_lt _ _ (by exact Nat.lt_add_right 16 hlt) (Nat.le_refl 16)

/-! ### The padding commands -/

/-- The state after a copied byte. -/
def afterCopyByte (s : State) : State :=
  advance { s with mem := s.mem.writeRange (s.dst + s.posn) (s.mem.readRange (s.src + s.posn) 1) } 1

theorem copyByte_served (s : State) (hs : servedRange s.platform (s.src + s.posn) 1)
    (hp : plainRange s.platform (s.src + s.posn) 1) (hr : s.raced = false)
    (hd : servedRange s.platform (s.dst + s.posn) 1) : copyByte s = .ok () (afterCopyByte s) := by
  rw [copyByte, dmaRead_served _ _ _ hs hp hr, Access.bind_ok,
    dmaWrite_served _ _ _ (by rw [Memory.length_readRange]; exact hd), Access.bind_ok]
  rfl

/-- The copy is the unit of PAD and UNPAD while source bytes are left. -/
theorem runUnit_copyByte {bs : BitVec 8} {i : Instr} {s : State}
    (h : i = .pad bs ∧ s.posn < s.len ∨ i = .unpad bs ∧ s.posn < s.len - s.padv.toNat) : runUnit i s = copyByte s := by
  rcases h with ⟨rfl, hlt⟩ | ⟨rfl, hlt⟩
  · exact if_pos hlt
  · exact if_pos hlt

/-- Settles O31, from the state after the byte. -/
theorem paddingCommandsCopyOneByte : Obligations.PaddingCommandsCopyOneByte := by
  intro bs i s hp hi hs hplain hr hd
  have hd' := servedRange_of_region hd
  have hlt : s.posn < s.len := by
    rcases hi with ⟨-, h⟩ | ⟨-, h⟩ <;> omega
  exact ⟨_, exec_run_of_ok hp ((runUnit_copyByte hi).trans
    (copyByte_served s (servedRange_of_region hs) (plainRange_of_meets _ _ _ hplain) hr hd')),
    storedAt_of_served hd' rfl, posn_advance_of_lt _ _ (by exact Nat.lt_add_right 16 hlt) (by omega), rfl⟩

/-- The last unit of PAD: the padding bytes, and the completion. -/
theorem runUnit_pad_end {bs : BitVec 8} {s : State} (hle : s.len ≤ s.posn)
    (hd : servedRange s.platform (s.dst + s.len) (padLen bs.toNat s.len)) :
    runUnit (.pad bs) s =
      .ok () (complete { s with mem := s.mem.writeRange (s.dst + s.len) (padBytes (padLen bs.toNat s.len)) }
        (s.len + padLen bs.toNat s.len)) := by
  rw [runUnit, padRun, if_neg (by omega), dmaWrite_served _ _ _ (by rw [length_padBytes]; exact hd), Access.bind_ok]

/-- Settles O32, from the last unit of PAD. -/
theorem padAppendsAndCompletes : Obligations.PadAppendsAndCompletes := by
  intro bs s hp hpos _ hplain p hd
  have hd' := servedRange_of_region hd
  have hrun := exec_run_of_ok hp (runUnit_pad_end hpos.ge hd')
  rw [complete_plain _ _ (by exact hplain)] at hrun
  exact ⟨_, hrun, storedAt_of_served (p := s.platform) (by rw [List.length_replicate]; exact hd') rfl, rfl⟩

/-- The last unit of the commands that end with nothing to write. -/
theorem runUnit_end {i : Instr} {s : State} {n : Nat}
    (h : (i = .encCfb ∧ s.ivMoved = true ∧ s.len ≤ s.posn ∧ n = 16 + s.len) ∨
      (i = .decCfb ∧ s.ivMoved = true ∧ s.len ≤ s.posn ∧ n = s.len - 16) ∨
      (i = .encCbc ∧ s.ivMoved = true ∧ 16 * (s.len / 16 + 1) ≤ s.posn ∧ n = 16 + 16 * (s.len / 16 + 1)) ∨
      (i = .decCbc ∧ s.ivMoved = true ∧ s.len ≤ s.posn ∧ n = 16 * ((s.len - 16) / 16) - s.padv.toNat) ∨
      ∃ bs, i = .unpad bs ∧ s.len - s.padv.toNat ≤ s.posn ∧ n = s.len - s.padv.toNat) :
    runUnit i s = .ok () (complete s n) := by
  rcases h with ⟨rfl, hiv, hle, rfl⟩ | ⟨rfl, hiv, hle, rfl⟩ | ⟨rfl, hiv, hle, rfl⟩ | ⟨rfl, hiv, hle, rfl⟩ |
    ⟨bs, rfl, hle, rfl⟩
  · rw [runUnit, encCfbRun, if_neg (by simp [hiv]), if_neg (by omega)]
  · rw [runUnit, decCfbRun, if_neg (by simp [hiv]), if_neg (by omega)]
  · rw [runUnit, encCbcRun, if_neg (by simp [hiv]), if_neg (by omega)]
  · rw [runUnit, decCbcRun, if_neg (by simp [hiv]), if_neg (by omega)]
    rfl
  · rw [runUnit, unpadRun, if_neg (by omega)]

/-- Settles O33: the last unit is the completion, which touches no memory where the output is not open. -/
theorem runCompletesWhenNothingIsLeft : Obligations.RunCompletesWhenNothingIsLeft := by
  intro i s n hp hplain h
  rw [exec_run_of_ok hp (runUnit_end h), complete_plain s n hplain]

/-! ### PRECHECK -/

/-- The final block of the padded plaintext of DEC_CBC (R206). -/
def decCbcFinalBlock (D : Block → Block) (s : State) : Block :=
  xorBlock (D (blockOfBytes (s.mem.readRange (s.src + 16 * decCbcBlocks s) 16)))
    (blockOfBytes (s.mem.readRange (s.src + 16 * (decCbcBlocks s - 1)) 16))

theorem decCbcPrecheck_none {s : State} (D : Block → Block) (hm : decCbcBlocks s = 0) :
    decCbcPrecheck D s = .ok () (completion s .padding 0) := if_pos hm

theorem decCbcPrecheck_served {s : State} (D : Block → Block) (hm : decCbcBlocks s ≠ 0)
    (hs : servedRange s.platform (s.src + 16 * (decCbcBlocks s - 1)) 32)
    (hp : plainRange s.platform (s.src + 16 * (decCbcBlocks s - 1)) 32) (hr : s.raced = false) :
    decCbcPrecheck D s = .ok ()
      (if pkcs7Valid (decCbcFinalBlock D s).1 16 (16 * decCbcBlocks s) then
        { s with padv := lastByte (decCbcFinalBlock D s), phase := .run }
      else completion s .padding 0) := by
  have hfirst := dmaRead_served s (s.src + 16 * (decCbcBlocks s - 1)) 16 (servedRange_mono hs (by omega) (by omega))
    (plainRange_mono hp (by omega) (by omega)) hr
  have hsecond := dmaRead_served s (s.src + 16 * decCbcBlocks s) 16 (servedRange_mono hs (by omega) (by omega))
    (plainRange_mono hp (by omega) (by omega)) hr
  rw [decCbcPrecheck]
  dsimp only
  rw [if_neg hm, hfirst, Access.bind_ok, hsecond, Access.bind_ok, apply_ite (Access.ok ())]
  rfl

/-- Settles O34, from what PRECHECK answers with its reads served. -/
theorem decCbcPrecheckDecidesPadding : Obligations.DecCbcPrecheckDecidesPadding := by
  intro s hp m
  refine ⟨fun hm => exec_precheck_of_ok hp (decCbcPrecheck_none _ hm), fun hm hs hplain hr => ?_⟩
  intro prev last pl
  have h := exec_precheck_of_ok (i := .decCbc) hp (decCbcPrecheck_served (Config.D s.key) hm (servedRange_of_region hs)
    (plainRange_of_meets _ _ _ hplain) hr)
  exact ⟨fun hv => h.trans (congrArg _ (if_pos hv)), fun hv => h.trans (congrArg _ (if_neg (Bool.eq_false_iff.1 hv)))⟩

theorem getLastD_readRange (m : Memory) (a n : Nat) (hn : n ≠ 0) : (m.readRange a n).getLastD 0 = m.read (a + n - 1) := by
  obtain ⟨k, rfl⟩ := Nat.exists_eq_succ_of_ne_zero hn
  rw [Nat.succ_eq_add_one, Memory.readRange_append, List.getLastD_eq_getLast?, List.getLast?_append]
  simp [Memory.readRange]

/-- PRECHECK of UNPAD once the last byte is in PADV: its bounds, and the run of padding bytes (R235). -/
def unpadTail (bs : Nat) (s : State) : Access Unit :=
  if s.padv = 0 ∨ s.padv.toNat > bs ∨ s.padv.toNat > s.len then .ok () (raiseError s .padding)
  else
    Access.bind (dmaRead s (s.src + s.len - s.padv.toNat) s.padv.toNat) fun tail u =>
      if tail.all (· == s.padv) then .ok () { u with phase := .run } else .ok () (raiseError u .padding)

theorem unpadPrecheck_nil {s : State} (bs : Nat) (h0 : s.len = 0) :
    unpadPrecheck bs s = .ok () (completion s .padding 0) := if_pos h0

theorem unpadPrecheck_eq {s : State} (bs : Nat) (h0 : s.len ≠ 0) :
    unpadPrecheck bs s =
      Access.bind (dmaRead s (s.src + s.len - 1) 1) fun last t => unpadTail bs { t with padv := last.headD 0 } :=
  if_neg h0

/-- With PADV the last byte of the source, the rest of PRECHECK is the strict validator (R232). -/
theorem unpadTail_served {s : State} (bs : Nat) (hs : servedRange s.platform s.src s.len)
    (hp : plainRange s.platform s.src s.len) (hr : s.raced = false)
    (hlast : s.padv = (s.mem.readRange s.src s.len).getLastD 0) :
    unpadTail bs s = .ok ()
      (if pkcs7Valid (s.mem.readRange s.src s.len) bs s.len then { s with phase := .run }
      else completion s .padding 0) := by
  have hvalid := pkcs7Valid_iff (s.mem.readRange s.src s.len) bs s.len
  rw [← hlast, Memory.length_readRange] at hvalid
  have hpos : s.padv = 0 ↔ s.padv.toNat = 0 := BitVec.toNat_inj.symm
  unfold unpadTail
  split
  · next hbad =>
    rw [hpos] at hbad
    rw [if_neg]
    · rfl
    · rw [hvalid]
      omega
  · next hgood =>
    rw [hpos] at hgood
    have htail := dmaRead_served s (s.src + s.len - s.padv.toNat) s.padv.toNat
      (servedRange_mono hs (by omega) (by omega)) (plainRange_mono hp (by omega) (by omega)) hr
    have hdrop : (s.mem.readRange s.src s.len).drop (s.len - s.padv.toNat) =
        s.mem.readRange (s.src + s.len - s.padv.toNat) s.padv.toNat := by
      rw [Memory.drop_readRange]
      congr 1 <;> omega
    have hiff : ((s.mem.readRange (s.src + s.len - s.padv.toNat) s.padv.toNat).all fun x => x == s.padv) =
        pkcs7Valid (s.mem.readRange s.src s.len) bs s.len := by
      rw [Bool.eq_iff_iff, hvalid, hdrop, List.all_eq_true]
      simp only [beq_iff_eq]
      exact ⟨fun h => ⟨by omega, by omega, by omega, h⟩, fun h => h.2.2.2⟩
    rw [htail, Access.bind_ok, hiff, apply_ite (Access.ok ())]
    rfl

/-- PRECHECK of UNPAD answers what the strict validator says of the source (R232, R235). -/
theorem unpadPrecheck_served {s : State} (bs : Nat) (hs : servedRange s.platform s.src s.len)
    (hp : plainRange s.platform s.src s.len) (hr : s.raced = false) :
    unpadPrecheck bs s = .ok ()
      (if pkcs7Valid (s.mem.readRange s.src s.len) bs s.len then
        { s with padv := (s.mem.readRange s.src s.len).getLastD 0, phase := .run }
      else completion s .padding 0) := by
  by_cases h0 : s.len = 0
  · have hinvalid : pkcs7Valid (s.mem.readRange s.src s.len) bs s.len = false := by simp [pkcs7Valid, h0]
    rw [unpadPrecheck_nil bs h0, hinvalid]
    rfl
  · have hlast : (s.mem.readRange (s.src + s.len - 1) 1).headD 0 = (s.mem.readRange s.src s.len).getLastD 0 :=
      (getLastD_readRange s.mem s.src s.len h0).symm
    rw [unpadPrecheck_eq bs h0, dmaRead_served s (s.src + s.len - 1) 1 (servedRange_mono hs (by omega) (by omega))
      (plainRange_mono hp (by omega) (by omega)) hr, Access.bind_ok, hlast]
    exact unpadTail_served bs hs hp hr rfl

/-- Settles O35, from what PRECHECK answers with its reads served. -/
theorem unpadPrecheckDecidesPadding : Obligations.UnpadPrecheckDecidesPadding := by
  intro bs s hp hs hplain hr d
  have h := exec_precheck_of_ok (i := .unpad bs) hp (unpadPrecheck_served bs.toNat (servedRange_of_region hs)
    (plainRange_of_meets _ _ _ hplain) hr)
  exact ⟨fun hv => h.trans (congrArg _ (if_pos hv)), fun hv => h.trans (congrArg _ (if_neg (Bool.eq_false_iff.1 hv)))⟩

end Sys2Proof.Machine
end

section
/-!
SUPPORT. What one step of the engine can do on any bus and over any memory, said once: it goes through the addresses of
`stepAddresses` in order, up to the first that the bus does not serve, and what it then leaves is one of a few outcomes (R62,
R70, R135).
-/

namespace Sys2Proof.Machine

/-! ### Accesses that go through a list of addresses -/

/-- What the bus answers to accesses in order: the first answer that is not normal, if there is one. -/
def busAnswers (p : Platform) : List Nat → BusAnswer
  | [] => .ok
  | a :: as =>
    match busAnswer p a with
    | .ok => busAnswers p as
    | .error => .error
    | .never => .never

/-- An access that goes through the addresses `as` in order: `P` of its value and state when all are served, `Q` of the state
in which it failed. -/
def Access.Follows {α : Type} (p : Platform) (as : List Nat) (P : α → State → Prop) (Q : State → Prop)
    (x : Access α) : Prop :=
  match busAnswers p as with
  | .ok => ∃ v t, x = .ok v t ∧ P v t
  | .error => ∃ t, x = .busError t ∧ Q t
  | .never => ∃ t, x = .noAnswer t ∧ Q t

theorem busAnswers_append (p : Platform) (as bs : List Nat) :
    busAnswers p (as ++ bs) =
      match busAnswers p as with
      | .ok => busAnswers p bs
      | .error => .error
      | .never => .never := by
  induction as with
  | nil => rfl
  | cons a as ih =>
    simp only [List.cons_append, busAnswers]
    cases busAnswer p a with
    | ok => exact ih
    | error => rfl
    | never => rfl

/-- The first address that is not served decides. -/
theorem busAnswers_eq_of_first (p : Platform) (as : List Nat) (k : Nat) (hk : k < as.length)
    (hbefore : ∀ j, j < k → busAnswer p (as.getD j 0) = .ok) (hfirst : busAnswer p (as.getD k 0) ≠ .ok) :
    busAnswers p as = busAnswer p (as.getD k 0) := by
  induction as generalizing k with
  | nil => simp at hk
  | cons a as ih =>
    cases k with
    | zero =>
      rw [List.getD_cons_zero] at hfirst ⊢
      unfold busAnswers
      cases h : busAnswer p a with
      | ok => exact absurd h hfirst
      | error => rfl
      | never => rfl
    | succ k =>
      have ha : busAnswer p a = .ok := hbefore 0 (by omega)
      have hrest := ih k (by simpa using hk) (fun j hj => hbefore (j + 1) (by omega)) hfirst
      rw [List.getD_cons_succ, ← hrest, busAnswers, ha]

theorem busAnswers_eq_ok (p : Platform) (as : List Nat) (h : ∀ a ∈ as, busAnswer p a = .ok) :
    busAnswers p as = .ok := by
  induction as with
  | nil => rfl
  | cons a as ih =>
    rw [busAnswers, h a (by simp)]
    exact ih fun b hb => h b (by simp [hb])

theorem busAnswers_ne_never (p : Platform) (as : List Nat) (h : ∀ a ∈ as, busAnswer p a ≠ .never) :
    busAnswers p as ≠ .never := by
  induction as with
  | nil => simp [busAnswers]
  | cons a as ih =>
    unfold busAnswers
    cases ha : busAnswer p a with
    | ok => exact ih fun b hb => h b (by simp [hb])
    | error => simp
    | never => exact absurd ha (h a (by simp))

theorem follows_nil {α : Type} {p : Platform} {P : α → State → Prop} {Q : State → Prop} {v : α} {t : State}
    (h : P v t) : Access.Follows p [] P Q (.ok v t) := ⟨v, t, rfl, h⟩

theorem Access.Follows.imp {α : Type} {p : Platform} {as : List Nat} {P P' : α → State → Prop} {Q Q' : State → Prop}
    {x : Access α} (h : x.Follows p as P Q) (hP : ∀ v t, P v t → P' v t) (hQ : ∀ t, Q t → Q' t) :
    x.Follows p as P' Q' := by
  unfold Access.Follows at h ⊢
  cases hb : busAnswers p as <;> rw [hb] at h
  · obtain ⟨v, t, hx, ht⟩ := h
    exact ⟨v, t, hx, hP v t ht⟩
  · obtain ⟨t, hx, ht⟩ := h
    exact ⟨t, hx, hQ t ht⟩
  · obtain ⟨t, hx, ht⟩ := h
    exact ⟨t, hx, hQ t ht⟩

/-- An access and then another go through the addresses of both. -/
theorem follows_bind {α β : Type} {p : Platform} {as bs : List Nat} {P : α → State → Prop} {P' : β → State → Prop}
    {Q : State → Prop} {x : Access α} {f : α → State → Access β} (hx : x.Follows p as P Q)
    (hf : ∀ v t, P v t → (f v t).Follows p bs P' Q) : (x.bind f).Follows p (as ++ bs) P' Q := by
  unfold Access.Follows at hx ⊢
  rw [busAnswers_append]
  cases hb : busAnswers p as <;> rw [hb] at hx
  · obtain ⟨v, t, rfl, ht⟩ := hx
    exact hf v t ht
  · obtain ⟨t, rfl, ht⟩ := hx
    exact ⟨t, rfl, ht⟩
  · obtain ⟨t, rfl, ht⟩ := hx
    exact ⟨t, rfl, ht⟩

theorem follows_bind_nil {α β : Type} {p : Platform} {as : List Nat} {P : α → State → Prop} {P' : β → State → Prop}
    {Q : State → Prop} {x : Access α} {f : α → State → Access β} (hx : x.Follows p as P Q)
    (hf : ∀ v t, P v t → (f v t).Follows p [] P' Q) : (x.bind f).Follows p as P' Q := by
  simpa using follows_bind hx hf

/-! ### Reads and writes -/

theorem OnlyDrew.platform_eq {s t : State} (h : OnlyDrew s t) : t.platform = s.platform := by
  obtain ⟨d, rfl⟩ := h
  rfl

theorem dmaReadByte_follows {p : Platform} {t : State} (hp : t.platform = p) (a : Nat) :
    (dmaReadByte t a).Follows p [a] (fun v u => v = dmaValue t a ∧ OnlyDrew t u) (OnlyDrew t) := by
  subst hp
  unfold Access.Follows busAnswers
  cases h : busAnswer t.platform a with
  | ok =>
    obtain ⟨u, hu, hdrew⟩ := dmaReadByte_ok t a h
    exact ⟨_, u, hu, rfl, hdrew⟩
  | error => exact ⟨t, by rw [dmaReadByte, h], OnlyDrew.refl t⟩
  | never => exact ⟨t, by rw [dmaReadByte, h], OnlyDrew.refl t⟩

/-- A read goes through its range, answers as many bytes, and changes nothing but the free bytes drawn. -/
theorem dmaRead_follows {p : Platform} {t : State} (hp : t.platform = p) (a n : Nat) :
    (dmaRead t a n).Follows p (List.range' a n) (fun v u => v.length = n ∧ OnlyDrew t u) (OnlyDrew t) := by
  induction n generalizing t a with
  | zero => exact follows_nil ⟨rfl, OnlyDrew.refl t⟩
  | succ n ih =>
    rw [List.range'_succ, dmaRead]
    refine follows_bind (as := [a]) (dmaReadByte_follows hp a) fun b u hu => ?_
    refine follows_bind_nil ((ih (hu.2.platform_eq.trans hp) (a + 1)).imp (fun _ _ h => h) fun w hw => hu.2.trans hw)
      fun bs w hw => follows_nil ?_
    exact ⟨by rw [List.length_cons, hw.1], hu.2.trans hw.2⟩

/-- A read of one byte answers the byte or a free one. -/
theorem dmaRead_one_follows {p : Platform} {t : State} (hp : t.platform = p) (a : Nat) :
    (dmaRead t a 1).Follows p [a] (fun v u => v = [dmaValue t a] ∧ OnlyDrew t u) (OnlyDrew t) := by
  refine follows_bind_nil (dmaReadByte_follows hp a) fun b u hu => ?_
  exact follows_nil ⟨by rw [hu.1], hu.2⟩

theorem OnlyWrote.refl (a n : Nat) (s : State) : OnlyWrote a n s s := ⟨s.mem, rfl, id, fun _ _ => rfl⟩

/-- A byte written at the front of a range, and then bytes of the rest. -/
theorem onlyWrote_cons {s t : State} {a n : Nat} {b : Byte}
    (h : OnlyWrote (a + 1) n { s with mem := s.mem.write a b } t) : OnlyWrote a (n + 1) s t := by
  obtain ⟨m, rfl, hwf, hread⟩ := h
  refine ⟨m, rfl, fun h => hwf (Memory.wf_write _ _ _ h), fun c hc => ?_⟩
  rw [hread c (by omega)]
  exact Memory.read_write_ne _ _ _ _ (by omega)

theorem dmaWriteByte_follows {p : Platform} {t : State} (hp : t.platform = p) (a : Nat) (b : Byte) :
    (dmaWriteByte t a b).Follows p [a] (fun _ u => u = { t with mem := t.mem.write a b }) (fun u => u = t) := by
  subst hp
  unfold Access.Follows busAnswers
  cases h : busAnswer t.platform a with
  | ok => exact ⟨(), _, by rw [dmaWriteByte, h], rfl⟩
  | error => exact ⟨t, by rw [dmaWriteByte, h], rfl⟩
  | never => exact ⟨t, by rw [dmaWriteByte, h], rfl⟩

/-- A write goes through its range and changes nothing but bytes of it. -/
theorem dmaWrite_follows {p : Platform} {t : State} (hp : t.platform = p) (a : Nat) (bs : List Byte) :
    (dmaWrite t a bs).Follows p (List.range' a bs.length) (fun _ u => OnlyWrote a bs.length t u)
      (OnlyWrote a bs.length t) := by
  induction bs generalizing t a with
  | nil => exact follows_nil (OnlyWrote.refl a 0 t)
  | cons b bs ih =>
    rw [List.length_cons, List.range'_succ, dmaWrite]
    refine follows_bind (as := [a])
      ((dmaWriteByte_follows hp a b).imp (fun _ _ h => h) fun u hu => ?_) fun _ u hu => ?_
    · rw [hu]
      exact OnlyWrote.refl a _ t
    · rw [hu]
      exact (ih (t := { t with mem := t.mem.write a b }) hp (a + 1)).imp (fun _ _ => onlyWrote_cons)
        fun _ => onlyWrote_cons

/-! ### What a unit of RUN can do -/

/-- Work of a command in RUN: nothing changes but the datapath registers, free bytes drawn, and, where POS is in its place,
bytes of DSTR (R68). -/
structure Worked (i : Instr) (s t : State) : Prop where
  frame : t = { s with mem := t.mem, draws := t.draws, chain := t.chain, blk := t.blk }
  wf : s.mem.wf = true → t.mem.wf = true
  outside : RunPlace i s → ∀ c, ¬(s.dst ≤ c ∧ c < s.dst + outmaxOf i s.len) → t.mem.read c = s.mem.read c

theorem Worked.refl (i : Instr) (s : State) : Worked i s s := ⟨rfl, id, fun _ _ _ => rfl⟩

theorem worked_of_drew {i : Instr} {s t : State} (h : OnlyDrew s t) : Worked i s t := by
  obtain ⟨d, rfl⟩ := h
  exact ⟨rfl, id, fun _ _ _ => rfl⟩

/-- The chaining register is no part of what is kept. -/
theorem Worked.withChain {i : Instr} {s t : State} (h : Worked i s t) (c : Block) : Worked i s { t with chain := c } := by
  obtain ⟨hframe, hwf, hout⟩ := h
  refine ⟨?_, hwf, hout⟩
  rw [hframe]

/-- A write after a read is work when the written range lies in DSTR. -/
theorem worked_of_wrote {i : Instr} {s t u : State} {a n : Nat} {b c : Block} (hread : OnlyDrew s t)
    (hwrote : OnlyWrote a n { t with blk := b, chain := c } u)
    (hin : RunPlace i s → 0 < n → s.dst ≤ a ∧ a + n ≤ s.dst + outmaxOf i s.len) : Worked i s u := by
  obtain ⟨d, rfl⟩ := hread
  obtain ⟨m, rfl, hwf, hout⟩ := hwrote
  refine ⟨rfl, hwf, fun hplace e he => hout e ?_⟩
  rcases Nat.eq_zero_or_pos n with h0 | hpos
  · omega
  · have := hin hplace hpos
    omega

/-- Where RUN of a command has no more units: at the end of the source, of the padded source, or of the unpadded data. -/
def workEnd (i : Instr) (s : State) : Nat :=
  match i with
  | .encCfb => s.len
  | .decCfb => s.len
  | .encCbc => 16 * (s.len / 16 + 1)
  | .decCbc => s.len
  | .pad _ => s.len
  | .unpad _ => s.len - s.padv.toNat

/-- By how much a unit moves POS on. -/
def unitSize (i : Instr) (s : State) : Nat :=
  match i with
  | .encCfb => unitTake s
  | .decCfb => unitTake s
  | .encCbc => 16
  | .decCbc => 16
  | .pad _ => 1
  | .unpad _ => 1

/-- POS after the IV access (R133, R134). -/
def ivPos (i : Instr) : BitVec 33 :=
  match i with
  | .decCfb => 16
  | .decCbc => 16
  | .encCfb => 0
  | .encCbc => 0
  | .pad _ => 0
  | .unpad _ => 0

/-- The ends of a unit of RUN whose accesses are all served: the IV access, a unit of data, the completion. -/
inductive RunOutcome (i : Instr) (s : State) : State → Prop where
  | iv (u : State) (work : Worked i s u) (cipher : usesKey i = true) (first : s.ivMoved = false) :
    RunOutcome i s { u with pos := ivPos i, ivMoved := true }
  | data (u : State) (work : Worked i s u) (iv : usesKey i = true → s.ivMoved = true) (more : s.posn < workEnd i s) :
    RunOutcome i s (advance u (unitSize i s))
  | complete (u : State) (n : Nat) (work : Worked i s u) (iv : usesKey i = true → s.ivMoved = true)
    (ended : workEnd i s ≤ s.posn) : RunOutcome i s (complete u n)

/-- A unit of RUN goes through `as` and ends as `RunOutcome` says, or fails in the middle of its work. -/
def UnitFollows (i : Instr) (s : State) (as : List Nat) (x : Access Unit) : Prop :=
  x.Follows s.platform as (fun _ t => RunOutcome i s t) (Worked i s)

theorem prependIv_follows {i : Instr} {s : State} (hi : i = .encCfb ∨ i = .encCbc) (hiv : s.ivMoved = false) :
    UnitFollows i s (List.range' s.dst 16) (prependIv s) := by
  have hwork (u : State) (h : OnlyWrote s.dst 16 s u) : Worked i s u :=
    worked_of_wrote (OnlyDrew.refl s) h fun _ _ => by
      rcases hi with rfl | rfl <;> simp only [outmaxOf] <;> omega
  have hwrite := dmaWrite_follows (t := s) rfl s.dst s.ivb.1
  rw [length_block] at hwrite
  refine follows_bind_nil (hwrite.imp (fun _ _ h => h) hwork) fun _ u hu => follows_nil ?_
  have houtcome : RunOutcome i s { u with chain := u.ivb, pos := ivPos i, ivMoved := true } :=
    .iv _ ((hwork u hu).withChain u.ivb) (by rcases hi with rfl | rfl <;> rfl) hiv
  rcases hi with rfl | rfl <;> exact houtcome

theorem splitIv_follows {i : Instr} {s : State} (hi : i = .decCfb ∨ i = .decCbc) (hiv : s.ivMoved = false) :
    UnitFollows i s (List.range' s.src 16) (splitIv s) := by
  refine follows_bind_nil ((dmaRead_follows (t := s) rfl s.src 16).imp (fun _ _ h => h) fun _ => worked_of_drew)
    fun v u hu => follows_nil ?_
  have houtcome : RunOutcome i s { u with chain := blockOfBytes v, pos := ivPos i, ivMoved := true } :=
    .iv _ ((worked_of_drew (i := i) hu.2).withChain (blockOfBytes v)) (by rcases hi with rfl | rfl <;> rfl) hiv
  rcases hi with rfl | rfl <;> exact houtcome

/-- A unit of data: a read of the source, and then a write of as many bytes as the addresses say. -/
theorem readWrite_follows {i : Instr} {s : State} {a n b k : Nat} {addr : State → Nat} {y : List Byte → State → List Byte}
    {blk chain : List Byte → State → Block} {f : List Byte → State → State → State}
    (haddr : ∀ t, OnlyDrew s t → addr t = b)
    (hlen : ∀ x t, x.length = n → OnlyDrew s t → (y x t).length = k)
    (hin : RunPlace i s → 0 < k → s.dst ≤ b ∧ b + k ≤ s.dst + outmaxOf i s.len)
    (hend : ∀ x t u, x.length = n → Worked i s u → RunOutcome i s (f x t u)) :
    UnitFollows i s (List.range' a n ++ List.range' b k)
      (Access.bind (dmaRead s a n) fun x t =>
        Access.bind (dmaWrite { t with blk := blk x t, chain := chain x t } (addr t) (y x t)) fun _ u =>
          .ok () (f x t u)) := by
  refine follows_bind ((dmaRead_follows (t := s) rfl a n).imp (fun _ _ h => h) fun _ => worked_of_drew) fun x t ht => ?_
  have hwrite := dmaWrite_follows (p := s.platform) (t := { t with blk := blk x t, chain := chain x t })
    ht.2.platform_eq (addr t) (y x t)
  rw [hlen x t ht.1 ht.2, haddr t ht.2] at hwrite
  have hwork (u : State) (h : OnlyWrote b k { t with blk := blk x t, chain := chain x t } u) : Worked i s u :=
    worked_of_wrote ht.2 h hin
  rw [haddr t ht.2]
  exact follows_bind_nil (hwrite.imp (fun _ _ h => h) hwork) fun _ u hu => follows_nil (hend x t u ht.1 (hwork u hu))

theorem OnlyDrew.operands_eq {s t : State} (h : OnlyDrew s t) :
    t.src = s.src ∧ t.dst = s.dst ∧ t.len = s.len ∧ t.posn = s.posn ∧ t.padv = s.padv := by
  obtain ⟨d, rfl⟩ := h
  exact ⟨rfl, rfl, rfl, rfl, rfl⟩

/-- The end of a unit of data, whatever the chaining register takes. -/
theorem runOutcome_data {i : Instr} {s u : State} {n : Nat} (c : Block) (hu : Worked i s u)
    (hiv : usesKey i = true → s.ivMoved = true) (hmore : s.posn < workEnd i s) (hn : n = unitSize i s) :
    RunOutcome i s (advance { u with chain := c } n) := by
  subst hn
  exact .data _ (hu.withChain c) hiv hmore

theorem encCfbSegment_follows (E : Block → Block) {s : State} (hiv : s.ivMoved = true) (hmore : s.posn < s.len) :
    UnitFollows .encCfb s (List.range' (s.src + s.posn) (unitTake s) ++ List.range' (s.dst + 16 + s.posn) (unitTake s))
      (encCfbSegment E s) := by
  refine readWrite_follows (y := fun x t => cfbCombine E t.chain x) (blk := fun x t => patchBlock t.blk x)
    (chain := fun _ t => t.chain) (addr := fun t => t.dst + 16 + t.posn)
    (f := fun x t u => advance { u with chain := cfbFeedback Config.cfbSeg u.chain (cfbCombine E t.chain x) } x.length)
    (fun t ht => ?_) (fun x t hx _ => ?_) (fun _ _ => ?_)
    fun x t u hx hu => runOutcome_data _ hu (fun _ => hiv) hmore hx
  · obtain ⟨-, hdst, -, hpos, -⟩ := ht.operands_eq
    rw [hdst, hpos]
  · rw [length_cfbCombine, hx, unitTake]
    omega
  · rw [unitTake]
    simp only [outmaxOf]
    omega

theorem decCfbSegment_follows (E : Block → Block) {s : State} (hiv : s.ivMoved = true) (hmore : s.posn < s.len) :
    UnitFollows .decCfb s
      (List.range' (s.src + s.posn) (unitTake s) ++ List.range' (s.dst + s.posn - 16) (unitTake s))
      (decCfbSegment E s) := by
  refine readWrite_follows (y := fun x t => cfbCombine E t.chain x) (blk := fun x t => patchBlock t.blk x)
    (chain := fun x t => cfbFeedback Config.cfbSeg t.chain x) (addr := fun t => t.dst + t.posn - 16)
    (f := fun x _ u => advance u x.length) (fun t ht => ?_) (fun x t hx _ => ?_) (fun hplace _ => ?_)
    fun x t u hx hu => runOutcome_data u.chain hu (fun _ => hiv) hmore hx
  · obtain ⟨-, hdst, -, hpos, -⟩ := ht.operands_eq
    rw [hdst, hpos]
  · rw [length_cfbCombine, hx, unitTake]
    omega
  · simp only [RunPlace, hiv, if_true] at hplace
    rw [unitTake]
    simp only [outmaxOf]
    omega

theorem encCbcBlock_follows (E : Block → Block) {s : State} (hiv : s.ivMoved = true)
    (hmore : s.posn < 16 * (s.len / 16 + 1)) :
    UnitFollows .encCbc s (List.range' (s.src + s.posn) (unitTake s) ++ List.range' (s.dst + 16 + s.posn) 16)
      (encCbcBlock E s) := by
  refine readWrite_follows (i := .encCbc)
    (blk := fun x t => if t.posn + 16 < 16 * (t.len / 16 + 1) then blockOfBytes x
      else blockOfBytes (x ++ padBytes (padLen 16 t.len)))
    (y := fun x t => (E (xorBlock (if t.posn + 16 < 16 * (t.len / 16 + 1) then blockOfBytes x
      else blockOfBytes (x ++ padBytes (padLen 16 t.len))) t.chain)).1)
    (chain := fun _ t => t.chain) (addr := fun t => t.dst + 16 + t.posn)
    (f := fun x t u => advance { u with chain := E (xorBlock (if t.posn + 16 < 16 * (t.len / 16 + 1) then blockOfBytes x
      else blockOfBytes (x ++ padBytes (padLen 16 t.len))) t.chain) } 16)
    (fun t ht => ?_) (fun x t _ _ => length_block _) (fun hplace _ => ?_)
    fun x t u _ hu => runOutcome_data _ hu (fun _ => hiv) hmore rfl
  · obtain ⟨-, hdst, -, hpos, -⟩ := ht.operands_eq
    rw [hdst, hpos]
  · obtain ⟨-, h16, -⟩ := hplace
    simp only [outmaxOf]
    omega

theorem decCbcBlock_follows (D : Block → Block) {s : State} (hiv : s.ivMoved = true) (hmore : s.posn < s.len) :
    UnitFollows .decCbc s
      (List.range' (s.src + s.posn) 16 ++
        List.range' (s.dst + s.posn - 16) (min 16 (16 * ((s.len - 16) / 16) - s.padv.toNat - (s.posn - 16))))
      (decCbcBlock D s) := by
  refine readWrite_follows (i := .decCbc) (blk := fun x _ => blockOfBytes x) (chain := fun x _ => blockOfBytes x)
    (y := fun x t => (xorBlock (D (blockOfBytes x)) t.chain).1.take (decCbcOutLen t - (t.posn - 16)))
    (addr := fun t => t.dst + t.posn - 16) (f := fun _ _ u => advance u 16)
    (fun t ht => ?_) (fun x t _ ht => ?_) (fun hplace _ => ?_)
    fun x t u _ hu => runOutcome_data u.chain hu (fun _ => hiv) hmore rfl
  · obtain ⟨-, hdst, -, hpos, -⟩ := ht.operands_eq
    rw [hdst, hpos]
  · obtain ⟨-, -, hlen, hpos, hpadv⟩ := ht.operands_eq
    rw [List.length_take, length_block, decCbcOutLen, decCbcBlocks, hlen, hpos, hpadv, Nat.min_comm]
  · simp only [RunPlace, hiv, if_true] at hplace
    obtain ⟨h32, -, -, h16, -, -⟩ := hplace
    simp only [outmaxOf]
    omega

theorem copyByte_follows {i : Instr} {bs : BitVec 8} {s : State} (hi : i = .pad bs ∨ i = .unpad bs)
    (hmore : s.posn < workEnd i s) :
    UnitFollows i s [s.src + s.posn, s.dst + s.posn] (copyByte s) := by
  have hsize : unitSize i s = 1 := by rcases hi with rfl | rfl <;> rfl
  have hcipher : usesKey i = true → s.ivMoved = true := by rcases hi with rfl | rfl <;> nofun
  refine readWrite_follows (i := i) (a := s.src + s.posn) (n := 1) (b := s.dst + s.posn) (k := 1)
    (blk := fun _ t => t.blk) (chain := fun _ t => t.chain) (y := fun x _ => x)
    (addr := fun t => t.dst + t.posn) (f := fun _ _ u => advance u 1)
    (fun t ht => ?_) (fun x t hx _ => hx) (fun hplace _ => ?_)
    fun x t u _ hu => runOutcome_data u.chain hu hcipher hmore hsize.symm
  · obtain ⟨-, hdst, -, hpos, -⟩ := ht.operands_eq
    rw [hdst, hpos]
  · rcases hi with rfl | rfl <;> simp only [outmaxOf, workEnd] at hmore ⊢ <;> omega

/-- The shape of RUN of the four cipher commands: the IV access, then units of data, then the completion. -/
theorem ivThenUnits_follows {i : Instr} {s : State} {n : Nat} {asIv asUnit : List Nat} {iv unit : Access Unit}
    (hiv : s.ivMoved = false → UnitFollows i s asIv iv)
    (hunit : s.ivMoved = true → s.posn < workEnd i s → UnitFollows i s asUnit unit) :
    UnitFollows i s (if s.ivMoved = false then asIv else if s.posn < workEnd i s then asUnit else [])
      (if s.ivMoved = false then iv else if s.posn < workEnd i s then unit else .ok () (complete s n)) := by
  by_cases h : s.ivMoved = false
  · rw [if_pos h, if_pos h]
    exact hiv h
  · rw [Bool.not_eq_false] at h
    simp only [h, Bool.true_eq_false, if_false]
    split
    · next hmore => exact hunit h hmore
    · next hend => exact follows_nil (.complete s n (Worked.refl i s) (fun _ => h) (Nat.not_lt.1 hend))

/-- In RUN every command goes through the addresses of its step. -/
theorem runUnit_follows (i : Instr) {s : State} (hp : s.phase = .run) :
    UnitFollows i s (stepAddresses i s) (runUnit i s) := by
  cases i with
  | encCfb =>
    simp only [stepAddresses, hp, ne_eq, not_true_eq_false, if_false]
    exact ivThenUnits_follows (prependIv_follows (.inl rfl)) (encCfbSegment_follows (Config.E s.key))
  | decCfb =>
    simp only [stepAddresses, hp, ne_eq, not_true_eq_false, if_false]
    exact ivThenUnits_follows (splitIv_follows (.inl rfl)) (decCfbSegment_follows (Config.E s.key))
  | encCbc =>
    simp only [stepAddresses, hp, ne_eq, not_true_eq_false, if_false]
    exact ivThenUnits_follows (prependIv_follows (.inr rfl)) (encCbcBlock_follows (Config.E s.key))
  | decCbc =>
    simp only [stepAddresses, hp, ne_eq, not_true_eq_false, if_false, reduceCtorEq]
    exact ivThenUnits_follows (splitIv_follows (.inr rfl)) (decCbcBlock_follows (Config.D s.key))
  | pad bs =>
    by_cases hmore : s.posn < s.len
    · have h := copyByte_follows (i := .pad bs) (.inl rfl) hmore
      rw [← runUnit_copyByte (.inl ⟨rfl, hmore⟩)] at h
      simpa [stepAddresses, hp, hmore] using h
    · have hrun : runUnit (.pad bs) s = _ := if_neg hmore
      have hadd : stepAddresses (.pad bs) s = List.range' (s.dst + s.len) (padLen bs.toNat s.len) := by
        simp [stepAddresses, hp, hmore, padLen]
      have hwrite := dmaWrite_follows (t := s) rfl (s.dst + s.len) (padBytes (padLen bs.toNat s.len))
      rw [length_padBytes] at hwrite
      have hwork (u : State) (h : OnlyWrote (s.dst + s.len) (padLen bs.toNat s.len) s u) : Worked (.pad bs) s u :=
        worked_of_wrote (OnlyDrew.refl s) h fun _ _ => by simp only [outmaxOf, padLen]; omega
      rw [hrun, hadd]
      exact follows_bind_nil (hwrite.imp (fun _ _ h => h) hwork) fun _ u hu =>
        follows_nil (.complete u _ (hwork u hu) nofun (Nat.not_lt.1 hmore))
  | unpad bs =>
    by_cases hmore : s.posn < s.len - s.padv.toNat
    · have h := copyByte_follows (i := .unpad bs) (.inr rfl) hmore
      rw [← runUnit_copyByte (.inr ⟨rfl, hmore⟩)] at h
      simpa [stepAddresses, hp, hmore] using h
    · have hrun : runUnit (.unpad bs) s = _ := if_neg hmore
      have hadd : stepAddresses (.unpad bs) s = [] := by simp [stepAddresses, hp, hmore]
      rw [hrun, hadd]
      exact follows_nil (.complete s _ (Worked.refl _ s) nofun (Nat.not_lt.1 hmore))

end Sys2Proof.Machine
end

section
/-!
SUPPORT. What PRECHECK can do on any bus, and the one inversion lemma for an engine step on a command: every phase, every
answer of the bus (R22, R70, R130, R206, R235).
-/

namespace Sys2Proof.Machine

/-! ### What PRECHECK can do -/

/-- The padding length that PRECHECK of a command lets through (R206, R235). -/
def PaddingTaken (i : Instr) (s : State) (pv : Byte) : Prop :=
  (i = .decCbc ∧ 32 ≤ s.len ∧ 1 ≤ pv.toNat ∧ pv.toNat ≤ 16) ∨
    ∃ bs, i = .unpad bs ∧ 1 ≤ pv.toNat ∧ pv.toNat ≤ bs.toNat ∧ pv.toNat ≤ s.len

/-- The ends of PRECHECK where its reads are served: on to RUN, or PADDING. No byte of memory changes (R206, R235). -/
inductive PrecheckOutcome (i : Instr) (s : State) : State → Prop where
  | passed (d : Nat) (pv : Byte) (h : PaddingTaken i s pv) :
    PrecheckOutcome i s { s with draws := d, padv := pv, phase := .run }
  | failed (d : Nat) : PrecheckOutcome i s (completion { s with draws := d } .padding 0)

/-- PRECHECK in the middle of its reads. -/
def Prechecking (s t : State) : Prop := ∃ d pv, t = { s with draws := d, padv := pv }

theorem prechecking_of_drew {s t : State} (h : OnlyDrew s t) : Prechecking s t := by
  obtain ⟨d, rfl⟩ := h
  exact ⟨d, s.padv, rfl⟩

theorem decCbcPrecheck_follows (D : Block → Block) (s : State) :
    (decCbcPrecheck D s).Follows s.platform
      (if (s.len - 16) / 16 = 0 then []
        else List.range' (s.src + 16 * ((s.len - 16) / 16 - 1)) 16 ++ List.range' (s.src + 16 * ((s.len - 16) / 16)) 16)
      (fun _ t => PrecheckOutcome .decCbc s t) (Prechecking s) := by
  unfold decCbcPrecheck decCbcBlocks
  dsimp only
  by_cases hm : (s.len - 16) / 16 = 0
  · rw [if_pos hm, if_pos hm]
    exact follows_nil (.failed s.draws)
  rw [if_neg hm, if_neg hm]
  refine follows_bind ((dmaRead_follows (t := s) rfl _ 16).imp (fun _ _ h => h) fun _ => prechecking_of_drew)
    fun prev t ht => ?_
  have hsrc : t.src = s.src := ht.2.operands_eq.1
  rw [hsrc]
  refine follows_bind_nil ((dmaRead_follows ht.2.platform_eq _ 16).imp (fun _ _ h => h) fun u hu =>
    prechecking_of_drew (ht.2.trans hu)) fun last u hu => ?_
  obtain ⟨d, rfl⟩ := ht.2.trans hu.2
  split
  · next hv =>
    obtain ⟨hlo, hhi, -⟩ := pkcs7Valid_len _ _ _ hv
    exact follows_nil (.passed d _ (.inl ⟨rfl, by omega, hlo, hhi⟩))
  · exact follows_nil (.failed d)

/-- PRECHECK of UNPAD after its first read, with the byte it read in PADV. -/
theorem unpadTail_follows (bs : BitVec 8) {s t : State} (h : Prechecking s t) :
    (unpadTail bs.toNat t).Follows s.platform
      (if t.padv.toNat = 0 ∨ bs.toNat < t.padv.toNat ∨ s.len < t.padv.toNat then []
        else List.range' (s.src + s.len - t.padv.toNat) t.padv.toNat)
      (fun _ u => PrecheckOutcome (.unpad bs) s u) (Prechecking s) := by
  obtain ⟨d, pv, rfl⟩ := h
  have hzero : pv = 0 ↔ pv.toNat = 0 := BitVec.toNat_inj.symm
  unfold unpadTail
  by_cases hbad : pv.toNat = 0 ∨ bs.toNat < pv.toNat ∨ s.len < pv.toNat
  · rw [if_pos hbad, if_pos (by rwa [hzero])]
    exact follows_nil (.failed d)
  rw [if_neg hbad, if_neg (by rwa [hzero])]
  refine follows_bind_nil ((dmaRead_follows (t := { s with draws := d, padv := pv }) rfl _ pv.toNat).imp
    (fun _ _ h => h) ?_) ?_
  · rintro u ⟨e, rfl⟩
    exact ⟨e, pv, rfl⟩
  · rintro tail u ⟨-, e, rfl⟩
    split
    · exact follows_nil (.passed e pv (.inr ⟨bs, rfl, by omega, by omega, by omega⟩))
    · exact follows_nil (.failed e)

theorem unpadPrecheck_follows (bs : BitVec 8) {s : State} (hp : s.phase = .precheck) :
    (unpadPrecheck bs.toNat s).Follows s.platform (stepAddresses (.unpad bs) s)
      (fun _ t => PrecheckOutcome (.unpad bs) s t) (Prechecking s) := by
  by_cases h0 : s.len = 0
  · have hadd : stepAddresses (.unpad bs) s = [] := by simp [stepAddresses, hp, h0]
    rw [hadd, unpadPrecheck_nil _ h0]
    exact follows_nil (.failed s.draws)
  simp only [stepAddresses, hp, if_true, if_neg h0]
  rw [unpadPrecheck_eq _ h0]
  refine follows_bind (as := [s.src + s.len - 1])
    ((dmaRead_one_follows (t := s) rfl _).imp (fun _ _ h => h) fun _ => prechecking_of_drew) ?_
  rintro v t ⟨rfl, d, rfl⟩
  exact unpadTail_follows bs (t := { s with draws := d, padv := dmaValue s (s.src + s.len - 1) }) ⟨d, _, rfl⟩

/-- PRECHECK goes through the addresses of its step. -/
theorem precheckUnit_follows {i : Instr} {s : State} (hp : s.phase = .precheck) (hi : prechecks i = true) :
    (precheckUnit i s).Follows s.platform (stepAddresses i s) (fun _ t => PrecheckOutcome i s t) (Prechecking s) := by
  cases i with
  | decCbc =>
    simp only [stepAddresses, hp, if_true]
    exact decCbcPrecheck_follows (Config.D s.key) s
  | unpad bs => exact unpadPrecheck_follows bs hp
  | encCfb | decCfb | encCbc | pad bs => cases hi

/-! ### What a step of the engine can do -/

/-- The states that an engine step on a command can end in where every access is served: by phase, all that R22, R130, R131,
R135, R206 and R235 allow. -/
inductive Stepped (i : Instr) (s : State) : State → Prop where
  | held (h : s.phase = .idle ∨ (s.phase = .rngWait ∧ draws? i = false) ∨ (s.phase = .precheck ∧ prechecks i = false)) :
    Stepped i s s
  | checked (h : s.phase = .check) : Stepped i s (check i s)
  | awaited (h : s.phase = .rngWait) (hi : draws? i = true) : Stepped i s (awaitRandom s)
  | prechecked {t : State} (h : s.phase = .precheck) (hi : prechecks i = true) (ht : PrecheckOutcome i s t) : Stepped i s t
  | ran {t : State} (h : s.phase = .run) (ht : RunOutcome i s t) : Stepped i s t

/-- The states in which an access of an engine step can fail. -/
inductive StepFailed (i : Instr) (s : State) : State → Prop where
  | precheck {t : State} (h : s.phase = .precheck) (ht : Prechecking s t) : StepFailed i s t
  | run {t : State} (h : s.phase = .run) (ht : Worked i s t) : StepFailed i s t

/-- The outcome of an engine step by what the bus answers to its accesses. -/
def ExecFollows (i : Instr) (s : State) (as : List Nat) : Prop :=
  match busAnswers s.platform as with
  | .ok => ∃ t, exec i s = .next t ∧ Stepped i s t
  | .error => ∃ u, exec i s = .next (raiseBus u) ∧ StepFailed i s u
  | .never => ∃ u, exec i s = .next { u with busHung := true } ∧ StepFailed i s u

/-- From an access to the step that it ends. -/
theorem execFollows_of_follows {i : Instr} {s : State} {as : List Nat} {P : Unit → State → Prop} {Q : State → Prop}
    {x : Access Unit} (hx : x.Follows s.platform as P Q) (hexec : exec i s = .next (settle x))
    (hP : ∀ v t, P v t → Stepped i s t) (hQ : ∀ t, Q t → StepFailed i s t) : ExecFollows i s as := by
  unfold ExecFollows
  unfold Access.Follows at hx
  rw [hexec]
  cases hb : busAnswers s.platform as <;> rw [hb] at hx
  · obtain ⟨v, t, rfl, ht⟩ := hx
    exact ⟨t, rfl, hP v t ht⟩
  · obtain ⟨t, rfl, ht⟩ := hx
    exact ⟨t, rfl, hQ t ht⟩
  · obtain ⟨t, rfl, ht⟩ := hx
    exact ⟨t, rfl, hQ t ht⟩

theorem exec_idle (i : Instr) {s : State} (hp : s.phase = .idle) : exec i s = .next s := by
  cases i with
  | encCfb => simp [exec, execEncCfb, encCfbStep, hp]
  | decCfb => simp [exec, execDecCfb, decCfbStep, hp]
  | encCbc => simp [exec, execEncCbc, encCbcStep, hp]
  | decCbc => simp [exec, execDecCbc, decCbcStep, hp]
  | pad bs => simp [exec, execPad, padStep, hp]
  | unpad bs => simp [exec, execUnpad, unpadStep, hp]

/-- The commands that draw no IV have no step in RNG_WAIT (log 19). -/
theorem exec_rngWait_other {i : Instr} {s : State} (hd : draws? i = false) (hp : s.phase = .rngWait) :
    exec i s = .next s := by
  cases i with
  | decCfb => simp [exec, execDecCfb, decCfbStep, hp]
  | decCbc => simp [exec, execDecCbc, decCbcStep, hp]
  | pad bs => simp [exec, execPad, padStep, hp]
  | unpad bs => simp [exec, execUnpad, unpadStep, hp]
  | encCfb | encCbc => cases hd

theorem precheckUnit_other {i : Instr} {s : State} (hi : prechecks i = false) : precheckUnit i s = .ok () s := by
  cases i with
  | decCbc | unpad bs => cases hi
  | encCfb | decCfb | encCbc | pad bs => rfl

/-- Only RUN and PRECHECK access memory. -/
theorem stepAddresses_eq_nil {i : Instr} {s : State} (hrun : s.phase ≠ .run)
    (hpre : s.phase = .precheck → prechecks i = false) : stepAddresses i s = [] := by
  cases i with
  | encCfb => simp [stepAddresses, hrun]
  | decCfb => simp [stepAddresses, hrun]
  | encCbc => simp [stepAddresses, hrun]
  | pad bs => simp [stepAddresses, hrun]
  | decCbc =>
    have hno : s.phase ≠ .precheck := fun h => nomatch hpre h
    simp [stepAddresses, hrun, hno]
  | unpad bs =>
    have hno : s.phase ≠ .precheck := fun h => nomatch hpre h
    simp [stepAddresses, hrun, hno]

/-- An engine step goes through the addresses of `stepAddresses` and ends as its phase has it. -/
theorem exec_follows (i : Instr) (s : State) : ExecFollows i s (stepAddresses i s) := by
  have quiet {t : State} (hadd : stepAddresses i s = []) (hexec : exec i s = .next t) (ht : Stepped i s t) :
      ExecFollows i s (stepAddresses i s) := by
    rw [hadd]
    exact ⟨t, hexec, ht⟩
  cases hp : s.phase with
  | idle => exact quiet (stepAddresses_eq_nil (by simp [hp]) (by simp [hp])) (exec_idle i hp) (.held (.inl hp))
  | check => exact quiet (stepAddresses_eq_nil (by simp [hp]) (by simp [hp])) (exec_check i hp) (.checked hp)
  | rngWait =>
    have hadd : stepAddresses i s = [] := stepAddresses_eq_nil (by simp [hp]) (by simp [hp])
    cases hi : draws? i with
    | true => exact quiet hadd (exec_rngWait hi hp) (.awaited hp hi)
    | false => exact quiet hadd (exec_rngWait_other hi hp) (.held (.inr (.inl ⟨hp, hi⟩)))
  | precheck =>
    cases hi : prechecks i with
    | true =>
      exact execFollows_of_follows (precheckUnit_follows hp hi) (exec_precheck i hp) (fun _ t => .prechecked hp hi)
        fun t => .precheck hp
    | false =>
      refine quiet (stepAddresses_eq_nil (by simp [hp]) fun _ => hi) ?_ (.held (.inr (.inr ⟨hp, hi⟩)))
      exact exec_precheck_of_ok hp (precheckUnit_other hi)
  | run =>
    exact execFollows_of_follows (runUnit_follows i hp) (exec_run i hp) (fun _ t => .ran hp) fun t => .run hp

/-- Everything an engine step on a command can do: an end of its phase, a BUS completion, or a hung access (R22, R70). -/
theorem exec_cases {i : Instr} {s t : State} (h : exec i s = .next t) :
    Stepped i s t ∨ ∃ u, StepFailed i s u ∧ (t = raiseBus u ∨ t = { u with busHung := true }) := by
  have hf := exec_follows i s
  unfold ExecFollows at hf
  cases hb : busAnswers s.platform (stepAddresses i s) <;> rw [hb] at hf
  · obtain ⟨t', ht, hs⟩ := hf
    cases ht.symm.trans h
    exact .inl hs
  · obtain ⟨u, hu, hs⟩ := hf
    cases hu.symm.trans h
    exact .inr ⟨u, hs, .inl rfl⟩
  · obtain ⟨u, hu, hs⟩ := hf
    cases hu.symm.trans h
    exact .inr ⟨u, hs, .inr rfl⟩

/-! ### Accesses that the bus does not serve -/

theorem checkError_ne_bus (i : Instr) (s : State) : checkError i s ≠ some .bus := by
  unfold checkError
  split_ifs <;> simp

/-- CHECK holds no bus access, so it neither raises BUS nor hangs. -/
theorem check_errcode_ne_bus (i : Instr) {s : State} (h : s.errcode ≠ .bus) : (check i s).errcode ≠ .bus := by
  unfold check
  split
  · next code hcode =>
    rintro rfl
    exact checkError_ne_bus i s hcode
  · exact h

@[simp] theorem check_busHung (i : Instr) (s : State) : (check i s).busHung = s.busHung := by
  unfold check
  split <;> rfl

@[simp] theorem complete_busHung (s : State) (n : Nat) : (complete s n).busHung = s.busHung := by
  unfold complete
  split <;> rfl

/-- What an answer of the random source comes to: nothing yet, RUN, or RANDOM_SOURCE (R131). -/
theorem awaitRandom_cases (s : State) :
    awaitRandom s = s ∨
      (∃ iv, s.rngAnswer = some (.ok iv) ∧
        awaitRandom s = { s with ivb := iv, rngReq := false, rngAnswer := none, phase := .run }) ∨
      (s.rngAnswer = some .fail ∧ awaitRandom s = completion s .randomSource 0) := by
  rcases h : s.rngAnswer with - | (iv | -)
  · exact .inl (awaitRandom_none s h)
  · exact .inr (.inl ⟨iv, rfl, awaitRandom_ok s iv h⟩)
  · exact .inr (.inr ⟨rfl, awaitRandom_fail s h⟩)

/-- Registers that work in RUN leaves alone. -/
theorem Worked.kept {i : Instr} {s t : State} (h : Worked i s t) :
    t.phase = s.phase ∧ t.cmdLast = s.cmdLast ∧ t.done = s.done ∧ t.errcode = s.errcode ∧ t.outLen = s.outLen ∧
      t.keys = s.keys ∧ t.keyLen = s.keyLen ∧ t.events = s.events ∧ t.busHung = s.busHung := by
  rw [h.frame]
  exact ⟨rfl, rfl, rfl, rfl, rfl, rfl, rfl, rfl, rfl⟩

theorem StepFailed.kept {i : Instr} {s t : State} (h : StepFailed i s t) :
    t.phase = s.phase ∧ t.cmdLast = s.cmdLast ∧ t.done = s.done ∧ t.errcode = s.errcode ∧ t.outLen = s.outLen ∧
      t.keys = s.keys ∧ t.keyLen = s.keyLen ∧ t.events = s.events ∧ t.busHung = s.busHung := by
  cases h with
  | precheck hp ht =>
    obtain ⟨d, pv, rfl⟩ := ht
    exact ⟨rfl, rfl, rfl, rfl, rfl, rfl, rfl, rfl, rfl⟩
  | run hp ht => exact ht.kept

theorem RunOutcome.errcode_busHung {i : Instr} {s t : State} (h : RunOutcome i s t) :
    (t.errcode = s.errcode ∨ t.errcode = .ok) ∧ t.busHung = s.busHung := by
  cases h with
  | iv u work => exact ⟨.inl (by rw [work.frame]), by rw [work.frame]⟩
  | data u work => exact ⟨.inl (by rw [work.frame]; rfl), by rw [work.frame]; rfl⟩
  | complete u n work =>
    rw [complete_busHung, complete_errcode, work.frame]
    exact ⟨.inr rfl, rfl⟩

/-- A step whose accesses are served raises no BUS and does not hang. -/
theorem Stepped.errcode_busHung {i : Instr} {s t : State} (h : Stepped i s t) (he : s.errcode ≠ .bus) :
    t.errcode ≠ .bus ∧ t.busHung = s.busHung := by
  cases h with
  | held _ => exact ⟨he, rfl⟩
  | checked _ => exact ⟨check_errcode_ne_bus i he, check_busHung i s⟩
  | awaited _ _ =>
    rcases awaitRandom_cases s with h | ⟨iv, -, h⟩ | ⟨-, h⟩ <;> rw [h]
    · exact ⟨he, rfl⟩
    · exact ⟨he, rfl⟩
    · exact ⟨by simp, rfl⟩
  | prechecked _ _ ht =>
    cases ht with
    | passed d pv _ => exact ⟨he, rfl⟩
    | failed d => exact ⟨by simp, rfl⟩
  | ran _ ht =>
    obtain ⟨herr | herr, hhung⟩ := ht.errcode_busHung
    · exact ⟨herr ▸ he, hhung⟩
    · exact ⟨by simp [herr], hhung⟩

/-- Settles O53: the step goes through its addresses, and the first that is not served ends it with BUS. -/
theorem unservedByteRaisesBus : Obligations.UnservedByteRaisesBus := by
  intro i s
  have hf := exec_follows i s
  unfold ExecFollows at hf
  refine ⟨fun k hk hbefore hfirst => ?_, fun he hall => ?_⟩
  · rw [busAnswers_eq_of_first _ _ k hk hbefore (by rw [hfirst]; nofun), hfirst] at hf
    obtain ⟨u, hu, -⟩ := hf
    exact ⟨_, hu, rfl, rfl, rfl, rfl, rfl, rfl⟩
  · rw [busAnswers_eq_ok _ _ hall] at hf
    obtain ⟨t, ht, hs⟩ := hf
    exact ⟨t, ht, hs.errcode_busHung he⟩

/-- Settles O54: the first address that is never answered leaves the engine waiting in the middle of its step, and a waiting
engine takes none. -/
theorem hungBusHoldsEngine : Obligations.HungBusHoldsEngine := by
  refine ⟨fun i s k hk hbefore hfirst => ?_, fun s hh he => ⟨fun k => ?_, fun es => ?_⟩⟩
  · have hf := exec_follows i s
    unfold ExecFollows at hf
    rw [busAnswers_eq_of_first _ _ k hk hbefore (by rw [hfirst]; nofun), hfirst] at hf
    obtain ⟨u, hu, hs⟩ := hf
    obtain ⟨hphase, hcmd, hdone, herr, hout, hkeys, hlen, hev, -⟩ := hs.kept
    exact ⟨_, hu, hphase, rfl, hcmd, hdone, herr, hout, hkeys, hlen, hev⟩
  · have hheld : s.engineReady = false := by simp [State.engineReady, hh]
    exact core_run_of_step_self Sys2Proof.core ((step_nil s he).trans (engineStep_held s hheld)) k
  · exact ⟨_, step_cons { s with events := .resetAssert :: es } .resetAssert es rfl, rfl, rfl⟩

end Sys2Proof.Machine
end

section
/-!
SUPPORT. Every step keeps the invariant of the machine: the place of POS after each unit of RUN, the engine's steps by
`exec_cases`, the host's accesses, the random source and the reset input (R22 to R24, R136, R290).
-/

namespace Sys2Proof.Machine

/-! ### The place of POS -/

/-- The IV access puts POS where the first unit of data expects it (R133, R134). -/
theorem runPlace_iv {i : Instr} {s : State} (hplace : RunPlace i s) (hc : checkError i s = none)
    (hi : usesKey i = true) : RunPlace i { s with pos := ivPos i, ivMoved := true } := by
  obtain ⟨-, hmin, -⟩ := (checkError_eq_none i s).1 hc
  cases i with
  | encCfb => exact ⟨Nat.zero_le _, nofun⟩
  | encCbc => exact ⟨Nat.zero_le _, rfl, nofun⟩
  | decCfb => exact ⟨Nat.le_refl 16, hmin (.inl rfl)⟩
  | decCbc =>
    obtain ⟨h32, hlo, hhi, -⟩ := hplace
    exact ⟨h32, hlo, hhi, Nat.le_refl 16, hmin (.inr rfl), by simp [State.posn, ivPos]⟩
  | pad bs | unpad bs => cases hi

theorem posn_advance_unit {i : Instr} {s : State} (hmore : s.posn < workEnd i s) :
    (advance s (unitSize i s)).posn = s.posn + unitSize i s := by
  have hsize : unitSize i s ≤ 16 := by
    cases i <;> simp only [unitSize, unitTake] <;> omega
  have hend : workEnd i s ≤ s.len + 16 := by
    cases i <;> simp only [workEnd] <;> omega
  exact posn_advance_of_lt s _ (by omega) hsize

/-- A unit of data leaves POS in its place: at the end of the work at most, and at a block boundary in CBC (R24). -/
theorem runPlace_data {i : Instr} {s : State} (hplace : RunPlace i s) (hc : checkError i s = none)
    (hiv : usesKey i = true → s.ivMoved = true) (hmore : s.posn < workEnd i s) :
    RunPlace i (advance s (unitSize i s)) := by
  obtain ⟨-, -, hmod, -⟩ := (checkError_eq_none i s).1 hc
  have hpos := posn_advance_unit hmore
  have hlen : (advance s (unitSize i s)).len = s.len := rfl
  have hmoved : (advance s (unitSize i s)).ivMoved = s.ivMoved := rfl
  have hpadv : (advance s (unitSize i s)).padv = s.padv := rfl
  generalize advance s (unitSize i s) = t at hpos hlen hmoved hpadv ⊢
  cases i with
  | encCfb =>
    simp only [RunPlace, hpos, hlen, hmoved, hiv rfl, workEnd, unitSize, unitTake] at hmore ⊢
    exact ⟨by omega, nofun⟩
  | encCbc =>
    simp only [RunPlace, hpos, hlen, hmoved, hiv rfl, workEnd, unitSize] at hplace hmore ⊢
    exact ⟨by omega, by omega, nofun⟩
  | decCfb =>
    simp only [RunPlace, hpos, hlen, hmoved, hiv rfl, if_true, workEnd, unitSize, unitTake] at hplace hmore ⊢
    omega
  | decCbc =>
    have hblocks := hmod rfl
    simp only [RunPlace, hpos, hlen, hmoved, hpadv, hiv rfl, if_true, workEnd, unitSize] at hplace hmore ⊢
    omega
  | pad bs =>
    simp only [RunPlace, hpos, hlen, hmoved, workEnd, unitSize] at hplace hmore ⊢
    exact ⟨by omega, hplace.2⟩
  | unpad bs =>
    simp only [RunPlace, hpos, hlen, hmoved, hpadv, workEnd, unitSize] at hplace hmore ⊢
    exact ⟨hplace.1, hplace.2.1, hplace.2.2.1, by omega, hplace.2.2.2.2⟩

/-- Work in RUN moves neither POS nor anything that `RunPlace`, the checks and the sizes of units look at. -/
theorem Worked.transfer {i : Instr} {s u : State} (h : Worked i s u) :
    (RunPlace i s → RunPlace i u) ∧ (PastCheck i s → PastCheck i u) ∧ workEnd i u = workEnd i s ∧
      unitSize i u = unitSize i s ∧ u.posn = s.posn ∧ u.ivMoved = s.ivMoved := by
  rw [h.frame]
  refine ⟨fun hplace => ?_, fun hpast => hpast, ?_, ?_, rfl, rfl⟩
  · cases i <;> exact hplace
  · cases i <;> rfl
  · cases i <;> rfl

/-- A unit of RUN that does not end the command leaves it past its checks, with POS in its place. -/
theorem RunOutcome.place {i : Instr} {s t : State} (h : RunOutcome i s t) (hpast : PastCheck i s)
    (hplace : RunPlace i s) : (PastCheck i t ∧ RunPlace i t) ∨ t.phase = .idle := by
  cases h with
  | iv u work cipher first =>
    obtain ⟨hp, hc, -⟩ := work.transfer
    have hpast' := hc hpast
    exact .inl ⟨hpast', runPlace_iv (hp hplace) hpast'.2.1 cipher⟩
  | data u work iv more =>
    obtain ⟨hp, hc, hend, hsize, hpos, hmoved⟩ := work.transfer
    have hpast' := hc hpast
    rw [← hsize]
    exact .inl ⟨hpast', runPlace_data (hp hplace) hpast'.2.1 (hmoved ▸ iv) (by rwa [hpos, hend])⟩
  | complete u n work iv ended => exact .inr (complete_phase u n)

/-! ### What the invariant says of a state -/

/-- A past-check state knows its command. -/
theorem PastCheck.unique {i j : Instr} {s : State} (h : PastCheck j s) (hd : decode s.cmdLast = .cmd i) : j = i := by
  cases hd.symm.trans h.1
  rfl

theorem State.Inv.run_of_decode {s : State} {i : Instr} (h : s.Inv) (hp : s.phase = .run)
    (hd : decode s.cmdLast = .cmd i) : PastCheck i s ∧ RunPlace i s := by
  obtain ⟨j, hpast, hplace⟩ := h.run hp
  cases hpast.unique hd
  exact ⟨hpast, hplace⟩

theorem State.Inv.precheck_of_decode {s : State} {i : Instr} (h : s.Inv) (hp : s.phase = .precheck)
    (hd : decode s.cmdLast = .cmd i) : PastCheck i s ∧ prechecks i = true ∧ s.pos = 0 ∧ s.ivMoved = false := by
  obtain ⟨j, hpast, hrest⟩ := h.precheck hp
  cases hpast.unique hd
  exact ⟨hpast, hrest⟩

/-- A busy engine that can move. -/
theorem engineReady_iff (s : State) :
    s.engineReady = true ↔ s.phase ≠ .idle ∧ s.inReset = false ∧ s.busHung = false := by
  rw [← busy_eq_true_iff]
  simp [State.engineReady, and_assoc]

/-! ### The engine -/

/-- In RUN the invariant needs no more than the memory's form and the place of POS. -/
theorem inv_run {i : Instr} {s t : State} (h : s.Inv) (hr : s.engineReady = true) (hp : s.phase = .run)
    (ht : t = { s with
      mem := t.mem, draws := t.draws, chain := t.chain, blk := t.blk, pos := t.pos, ivMoved := t.ivMoved })
    (hm : t.mem.wf = true) (hpast : PastCheck i t) (hplace : RunPlace i t) : t.Inv := by
  obtain ⟨hbusy, hreset, hhung⟩ := (engineReady_iff s).1 hr
  have hcleared := h.busy_cleared hbusy
  have hreq : s.rngReq = false := by
    rw [Bool.eq_false_iff, Ne, h.request, hp]
    nofun
  have hphase : t.phase = .run := by rw [ht]; exact hp
  refine inv_pastCheck t i hm (by simp [hphase]) (by simp [hphase]) hpast ?_ ?_ ?_ ?_ ?_ ?_ (by simp [hphase])
    (by simp [hphase]) fun _ => hplace
  · rw [hphase, ht]
    exact hreq
  · rw [ht]
    exact h.answer
  · rw [ht]
    exact hcleared
  · rw [ht]
    exact hreset
  · rw [ht]
    exact hhung
  · rw [ht]
    exact fun hx => (h.raced hx).2

theorem inv_runOutcome {i : Instr} {s t : State} (h : s.Inv) (hr : s.engineReady = true) (hp : s.phase = .run)
    (hd : decode s.cmdLast = .cmd i) (ht : RunOutcome i s t) : t.Inv := by
  obtain ⟨-, hreset, hhung⟩ := (engineReady_iff s).1 hr
  obtain ⟨hpast, hplace⟩ := h.run_of_decode hp hd
  have hafter := ht.place hpast hplace
  cases ht with
  | iv u work cipher first =>
    obtain ⟨hpast', hplace'⟩ := hafter.resolve_right (by rw [work.frame]; simp [hp])
    exact inv_run h hr hp (by rw [work.frame]) (work.wf h.memory) hpast' hplace'
  | data u work iv more =>
    obtain ⟨hpast', hplace'⟩ := hafter.resolve_right (by rw [work.frame]; simp [hp])
    exact inv_run h hr hp (by rw [work.frame]; rfl) (work.wf h.memory) hpast' hplace'
  | complete u n work =>
    exact inv_complete u n (work.wf h.memory) (by rw [work.frame]; exact hhung) (by rw [work.frame]; exact hreset)

/-- PRECHECK in the middle of its reads meets the invariant, and so does RUN with a padding length it let through. -/
theorem inv_precheck {i : Instr} {s : State} (h : s.Inv) (hr : s.engineReady = true) (hp : s.phase = .precheck)
    (hd : decode s.cmdLast = .cmd i) (d : Nat) (pv : Byte) :
    State.Inv { s with draws := d, padv := pv } ∧
      (PaddingTaken i s pv → State.Inv { s with draws := d, padv := pv, phase := .run }) := by
  obtain ⟨hbusy, hreset, hhung⟩ := (engineReady_iff s).1 hr
  obtain ⟨hpast, hpre, hpos, hmoved⟩ := h.precheck_of_decode hp hd
  have hreq : s.rngReq = false := by
    rw [Bool.eq_false_iff, Ne, h.request, hp]
    nofun
  have hcleared := h.busy_cleared hbusy
  have hposn : s.pos.toNat = 0 := by rw [hpos]; rfl
  constructor
  · exact inv_pastCheck _ i h.memory hbusy (by simp [hp]) hpast (by simp [hp, hreq]) h.answer hcleared hreset hhung
      (fun hx => (h.raced hx).2) (by simp [hp]) (fun _ => ⟨hpre, hpos, hmoved⟩) (by simp [hp])
  · intro htaken
    refine inv_pastCheck _ i h.memory (by simp) (by simp) hpast (by simp [hreq]) h.answer hcleared hreset hhung
      (fun hx => (h.raced hx).2) (by simp) (by simp) fun _ => ?_
    rcases htaken with ⟨rfl, h32, hlo, hhi⟩ | ⟨bs, rfl, hlo, hbs, hlen⟩
    · exact ⟨h32, hlo, hhi, by rw [hmoved]; exact hpos⟩
    · exact ⟨hlo, hbs, hlen, by simp [State.posn, hposn], hmoved⟩

/-- A state in which an access failed meets the invariant, as do its BUS completion and the hung engine (R70). -/
theorem inv_stepFailed {i : Instr} {s u : State} (h : s.Inv) (hr : s.engineReady = true)
    (hd : decode s.cmdLast = .cmd i) (hu : StepFailed i s u) :
    u.Inv ∧ u.inReset = false ∧ u.busHung = false ∧ (u.phase = .precheck ∨ u.phase = .run) := by
  obtain ⟨-, hreset, hhung⟩ := (engineReady_iff s).1 hr
  cases hu with
  | precheck hp hu =>
    obtain ⟨d, pv, rfl⟩ := hu
    exact ⟨(inv_precheck h hr hp hd d pv).1, hreset, hhung, .inl hp⟩
  | run hp work =>
    obtain ⟨hpast, hplace⟩ := h.run_of_decode hp hd
    obtain ⟨hp', hc', -⟩ := work.transfer
    refine ⟨inv_run h hr hp ?_ (work.wf h.memory) (hc' hpast) (hp' hplace), ?_, ?_, ?_⟩ <;> rw [work.frame]
    · exact hreset
    · exact hhung
    · exact .inr hp

/-- A hung access is no change that the invariant sees, in PRECHECK and in RUN. -/
theorem inv_busHung {s : State} (h : s.Inv) (hreset : s.inReset = false) (hp : s.phase = .precheck ∨ s.phase = .run) :
    State.Inv { s with busHung := true } := by
  have hidle : s.phase ≠ .idle := by rcases hp with hp | hp <;> simp [hp]
  have hcheck : s.phase ≠ .check := by rcases hp with hp | hp <;> simp [hp]
  exact { memory := h.memory, idle_clean := fun hx => absurd hx hidle, check_clean := fun hx => absurd hx hcheck,
          request := h.request, answer := h.answer, busy_cleared := h.busy_cleared, error_len := h.error_len,
          rng_wait := h.rng_wait, precheck := h.precheck, hung := fun _ => hp, raced := h.raced,
          run := fun hx => by
            obtain ⟨i, hpast, hplace⟩ := h.run hx
            exact ⟨i, hpast, by cases i <;> exact hplace⟩
          reset_held := fun hx => by rw [hreset] at hx; cases hx }

/-- An engine step on a command keeps the invariant. -/
theorem inv_exec {i : Instr} {s t : State} (h : s.Inv) (hr : s.engineReady = true) (hd : decode s.cmdLast = .cmd i)
    (ht : exec i s = .next t) : t.Inv := by
  obtain ⟨-, hreset, hhung⟩ := (engineReady_iff s).1 hr
  rcases exec_cases ht with hs | ⟨u, hu, rfl | rfl⟩
  · cases hs with
    | held _ => exact h
    | checked hp => exact inv_check i s h hp hhung hreset hd
    | awaited _ _ => rwa [awaitRandom_none s h.answer]
    | prechecked hp _ hout =>
      cases hout with
      | passed d pv htaken => exact (inv_precheck h hr hp hd d pv).2 htaken
      | failed d => exact inv_completion _ _ _ h.memory hhung hreset
    | ran hp hout => exact inv_runOutcome h hr hp hd hout
  · obtain ⟨hinv, hreset', hhung', -⟩ := inv_stepFailed h hr hd hu
    exact inv_raiseBus u hinv.memory hhung' hreset'
  · obtain ⟨hinv, hreset', -, hphase⟩ := inv_stepFailed h hr hd hu
    exact inv_busHung hinv hreset' hphase

theorem inv_engineStep {s t : State} (h : s.Inv) (ht : engineStep s = .next t) : t.Inv := by
  by_cases hr : s.engineReady = true
  · cases hd : decode s.cmdLast with
    | cmd i =>
      rw [engineStep_cmd s i hr hd] at ht
      exact inv_exec h hr hd ht
    | illegal w =>
      obtain ⟨-, hreset, hhung⟩ := (engineReady_iff s).1 hr
      rw [engineStep_illegal s w hr hd] at ht
      cases ht
      unfold checkIllegal
      split
      · exact inv_completion _ _ _ h.memory hhung hreset
      all_goals exact h
  · rw [engineStep_held s (by simpa using hr)] at ht
    cases ht
    exact h

/-! ### The host -/

/-- An idle state out of reset, with clean hidden registers. -/
theorem inv_idle {s : State} (hm : s.mem.wf = true) (hp : s.phase = .idle) (hz : s.HiddenZero) (hreq : s.rngReq = false)
    (hans : s.rngAnswer = none) (herr : s.errcode ≠ .ok → s.outLen = 0) (hh : s.busHung = false)
    (hraced : s.raced = false) (hr : s.inReset = false) : s.Inv where
  memory := hm
  idle_clean _ := hz
  check_clean hx := by simp [hp] at hx
  request := by simp [hreq, hp]
  answer := hans
  busy_cleared hx := absurd hp hx
  error_len := herr
  rng_wait hx := by simp [hp] at hx
  precheck hx := by simp [hp] at hx
  run hx := by simp [hp] at hx
  hung hx := by simp [hh] at hx
  raced hx := by simp [hraced] at hx
  reset_held hx := by simp [hr] at hx

/-- What the invariant says of an idle state. -/
theorem State.Inv.idle {s : State} (h : s.Inv) (hp : s.phase = .idle) :
    s.HiddenZero ∧ s.rngReq = false ∧ s.busHung = false ∧ s.raced = false := by
  refine ⟨h.idle_clean hp, ?_, ?_, ?_⟩ <;> rw [Bool.eq_false_iff]
  · rw [Ne, h.request, hp]
    nofun
  · intro hx
    rcases h.hung hx with hq | hq <;> simp [hp] at hq
  · exact fun hx => (h.raced hx).1 hp

/-- The invariant speaks of the memory's form, the marks of a race and the block; not of free bytes, answers to the host, the
mark of an illegal access or the schedule. -/
theorem inv_outside {s t : State} (h : s.Inv)
    (ht : t = { s with
      mem := t.mem, draws := t.draws, resp := t.resp, badRegAccess := t.badRegAccess, bufferRace := t.bufferRace,
      raced := t.raced, events := t.events })
    (hm : t.mem.wf = true) (hraced : t.raced = true → s.phase ≠ .idle ∧ t.bufferRace = true) : t.Inv := by
  obtain ⟨-, h2, h3, h4, h5, h6, h7, h8, h9, h10, h11, -, h13⟩ := h
  generalize t.mem = m, t.draws = d, t.resp = r, t.badRegAccess = b, t.bufferRace = f, t.raced = x, t.events = es
    at ht hm hraced
  subst ht
  refine ⟨hm, fun p => ?_, fun p => ?_, h4, h5, h6, h7, h8, h9, fun p => ?_, h11, hraced, fun p => ?_⟩
  · obtain ⟨z1, z2, z3, z4, z5, z6, z7⟩ := h2 p
    exact ⟨z1, z2, z3, z4, z5, z6, z7⟩
  · obtain ⟨z1, z2, z3, z4, z5, z6, z7⟩ := h3 p
    exact ⟨z1, z2, z3, z4, z5, z6, z7⟩
  · obtain ⟨i, hpast, hplace⟩ := h10 p
    exact ⟨i, hpast, by cases i <;> exact hplace⟩
  · obtain ⟨b1, b2, b3, b4, b5, b6, b7, b8, b9, b10, b11, b12, ⟨z1, z2, z3, z4, z5, z6, z7⟩, b14, b15, b16, -⟩ := h13 p
    have hunraced : x = false := by
      rw [Bool.eq_false_iff]
      exact fun hx => (hraced hx).1 b12
    exact ⟨b1, b2, b3, b4, b5, b6, b7, b8, b9, b10, b11, b12, ⟨z1, z2, z3, z4, z5, z6, z7⟩, b14, b15, b16, hunraced⟩

/-- Out of reset, OVR, DONE_IE and a cleared DONE are free. -/
theorem inv_flags {s : State} (h : s.Inv) (hr : s.inReset = false) (o e b : Bool) :
    State.Inv { s with ovr := o, doneIe := e, done := s.done && b } := by
  obtain ⟨h1, h2, h3, h4, h5, h6, h7, h8, h9, h10, h11, h12, -⟩ := h
  refine ⟨h1, fun p => ?_, fun p => ?_, h4, h5, fun p => ?_, h7, h8, h9, fun p => ?_, h11, h12, fun p => ?_⟩
  · obtain ⟨z1, z2, z3, z4, z5, z6, z7⟩ := h2 p
    exact ⟨z1, z2, z3, z4, z5, z6, z7⟩
  · obtain ⟨z1, z2, z3, z4, z5, z6, z7⟩ := h3 p
    exact ⟨z1, z2, z3, z4, z5, z6, z7⟩
  · obtain ⟨hd, he, hl⟩ := h6 p
    exact ⟨by simp [hd], he, hl⟩
  · obtain ⟨i, hpast, hplace⟩ := h10 p
    exact ⟨i, hpast, by cases i <;> exact hplace⟩
  · rw [hr] at p
    cases p

/-- A CMD write while idle starts a command in a clean CHECK (R112). -/
theorem inv_accept {s : State} (h : s.Inv) (hp : s.phase = .idle) (hr : s.inReset = false) (w : Word) :
    (accept s w).Inv := by
  obtain ⟨⟨z1, z2, z3, z4, z5, z6, z7⟩, hreq, hhung, hraced⟩ := h.idle hp
  exact { memory := h.memory, idle_clean := nofun, check_clean := fun _ => ⟨z1, z2, z3, z4, z5, z6, z7⟩,
          request := by simp [hreq], answer := h.answer, busy_cleared := fun _ => ⟨rfl, rfl, rfl⟩,
          error_len := fun hx => absurd rfl hx, rng_wait := nofun, precheck := nofun, run := nofun,
          hung := fun hx => by simp [hhung] at hx, raced := fun hx => by simp [hraced] at hx,
          reset_held := fun hx => by simp [hr] at hx }

/-- A register write of the host keeps the invariant (R112 to R116). -/
theorem inv_regWrite {s : State} (h : s.Inv) (hr : s.inReset = false) (r : Reg) (w : Word) : (regWrite s r w).Inv := by
  by_cases hlost : locked r = true ∧ s.busy = true
  · rw [regWrite_lost s r w hlost.1 hlost.2]
    have hflags := inv_flags h hr true s.doneIe true
    rwa [Bool.and_true] at hflags
  rw [regWrite_taken s r w hlost]
  have hidle (hl : locked r = true) : s.phase = .idle := by
    by_contra hp
    exact hlost ⟨hl, (busy_eq_true_iff s).2 hp⟩
  have operand (hl : locked r = true) (t : State) (ht : t = { s with
      srcAddr := t.srcAddr, dstAddr := t.dstAddr, srcLen := t.srcLen, keyLen := t.keyLen, keys := t.keys }) : t.Inv := by
    obtain ⟨⟨z1, z2, z3, z4, z5, z6, z7⟩, hreq, hhung, hraced⟩ := h.idle (hidle hl)
    rw [ht]
    exact inv_idle h.memory (hidle hl) ⟨z1, z2, z3, z4, z5, z6, z7⟩ hreq h.answer h.error_len hhung hraced hr
  cases r with
  | cmd => exact inv_accept h (hidle rfl) hr w
  | status => exact inv_flags h hr _ s.doneIe _
  | outLen => exact h
  | irqEn =>
    have hflags := inv_flags h hr s.ovr (w.getLsbD 0) true
    rwa [Bool.and_true] at hflags
  | srcAddr => exact operand rfl _ rfl
  | dstAddr => exact operand rfl _ rfl
  | srcLen => exact operand rfl _ rfl
  | keyLen => exact operand rfl _ rfl
  | key k => exact operand rfl _ rfl

/-- A race is one with the active command (R77). -/
theorem phase_ne_idle_of_races {s : State} {a n : Nat} (h : races s ⟨a, n⟩ = true) : s.phase ≠ .idle :=
  (busy_eq_true_iff s).1 ((races_iff_inBuffers s a n).1 h).1

/-- A host operation keeps the invariant. -/
theorem inv_hostStep {op : HostOp} {s t : State} (h : s.Inv) (ht : hostStep op s = .next t) : t.Inv := by
  cases op with
  | regRead size off =>
    simp only [hostStep] at ht
    split at ht
    · cases ht
    · split at ht <;> cases ht <;> exact inv_outside h rfl h.memory h.raced
  | regWrite size off w =>
    simp only [hostStep] at ht
    split at ht
    · cases ht
    next hr =>
    split at ht <;> cases ht
    · have hw := inv_regWrite h (by simpa using hr) (by assumption) w
      exact inv_outside hw rfl hw.memory hw.raced
    · exact inv_outside h rfl h.memory h.raced
  | memRead a n =>
    rcases bufferAccess_cases ⟨a, n⟩ (hostRead s a n) with e | ⟨e, -⟩
    · cases e.symm.trans ht
    · cases e.symm.trans ht
      rw [hostRead_frame]
      exact inv_outside h rfl h.memory fun hx => ⟨(h.raced hx).1, by simp [(h.raced hx).2]⟩
  | memWrite a bs =>
    rcases bufferAccess_cases ⟨a, bs.length⟩ (hostWrite s a bs) with e | ⟨e, -⟩
    · cases e.symm.trans ht
    · cases e.symm.trans ht
      refine inv_outside h rfl (Memory.wf_writeRange _ _ _ h.memory) fun hx => ?_
      rcases Bool.or_eq_true_iff.1 hx with hx | hx
      · exact ⟨(h.raced hx).1, Bool.or_eq_true_iff.2 (.inl (h.raced hx).2)⟩
      · exact ⟨phase_ne_idle_of_races hx, Bool.or_eq_true_iff.2 (.inr hx)⟩
  | waitDone =>
    simp only [hostStep] at ht
    split at ht <;> cases ht
    exact inv_outside h rfl h.memory h.raced

/-! ### The random source and the reset input -/

/-- An answer in RNG_WAIT starts RUN with nothing moved yet, or ends the command (R131). -/
theorem inv_awaitRandom {s : State} (h : s.Inv) (hp : s.phase = .rngWait) (a : RngAnswer) :
    (awaitRandom { s with rngAnswer := some a }).Inv := by
  obtain ⟨hbusy, hreset, hhung⟩ := (engineReady_iff s).1 (h.engineReady_of_rngWait hp)
  cases a with
  | fail =>
    rw [awaitRandom_fail _ rfl]
    exact inv_completion _ _ _ h.memory hhung hreset
  | ok iv =>
    obtain ⟨j, hpast, hdraws, hpos, hmoved⟩ := h.rng_wait hp
    have hposn : s.pos.toNat = 0 := by rw [hpos]; rfl
    rw [awaitRandom_ok _ iv rfl]
    refine inv_pastCheck _ j h.memory (by simp) (by simp) hpast rfl rfl (h.busy_cleared hbusy) hreset hhung
      (fun hx => (h.raced hx).2) (by simp) (by simp) fun _ => ?_
    cases j with
    | encCfb => exact ⟨by simp [State.posn, hposn], fun _ => hpos⟩
    | encCbc => exact ⟨by simp [State.posn, hposn], by simp [State.posn, hposn], fun _ => hpos⟩
    | decCfb | decCbc | pad bs | unpad bs => cases hdraws

/-- An answer to a request takes the machine out of RNG_WAIT, any other leaves it as it is (R34, R131). -/
theorem rngStep_cases {a : RngAnswer} {s t : State} (h : s.Inv) (ht : rngStep a s = .next t) :
    t = s ∨ s.phase = .rngWait ∧ t = awaitRandom { s with rngAnswer := some a } := by
  by_cases hp : s.phase = .rngWait
  · obtain ⟨i, hpast, hdraws, -⟩ := h.rng_wait hp
    have hready : State.engineReady { s with rngAnswer := some a } = true := h.engineReady_of_rngWait hp
    rw [rngStep, if_pos ⟨hp, h.request.2 hp⟩, engineStep_cmd _ i hready hpast.1,
      exec_rngWait (s := { s with rngAnswer := some a }) hdraws hp] at ht
    cases ht
    exact .inr ⟨hp, rfl⟩
  · rw [rngStep, if_neg fun hx => hp hx.1] at ht
    cases ht
    exact .inl rfl

theorem inv_rngStep {a : RngAnswer} {s t : State} (h : s.Inv) (ht : rngStep a s = .next t) : t.Inv := by
  rcases rngStep_cases h ht with rfl | ⟨hp, rfl⟩
  · exact h
  · exact inv_awaitRandom h hp a

theorem wf_resetMemory {s : State} (h : s.mem.wf = true) : (resetMemory s).mem.wf = true := by
  unfold resetMemory
  split
  · exact h
  · exact Memory.wf_scramble _ _ _ _ h

/-- The block in reset meets the invariant whatever it was before (R290). -/
theorem inv_resetAssert {s : State} (h : s.mem.wf = true) : (resetAssert s).Inv :=
  inv_of_blockReset (wf_resetMemory h) (blockReset_resetAssert s)

theorem inv_resetRelease {s : State} (h : s.Inv) : (resetRelease s).Inv := by
  cases hr : s.inReset with
  | false =>
    have hsame : resetRelease s = s := by rw [resetRelease, ← hr]
    rwa [hsame]
  | true => exact inv_of_blockReset h.memory (blockReset_resetRelease (h.reset_held hr))

/-- Settles O7, by what moves: the engine, the host, the random source or the reset input. -/
theorem everyStepKeepsInvariant : Obligations.EveryStepKeepsInvariant := by
  intro s t h ht
  cases he : s.events with
  | nil =>
    rw [step_nil s he] at ht
    exact inv_engineStep h ht
  | cons e es =>
    rw [step_cons s e es he] at ht
    have h' := inv_events s es h
    cases e with
    | engine => exact inv_engineStep h' ht
    | host op => exact inv_hostStep h' ht
    | rng a => exact inv_rngStep h' ht
    | resetAssert =>
      cases ht
      exact inv_resetAssert h'.memory
    | resetRelease =>
      cases ht
      exact inv_resetRelease h'

end Sys2Proof.Machine
end

section
/-!
SUPPORT. What the end of a step says of the command: it goes on with its operands and its key, or it completes (R23, R55, R113,
R136, R263).
-/

namespace Sys2Proof.Machine

/-! ### The end of an engine step -/

/-- How an engine step leaves a busy command: it goes on with its key, or it completes. Before RUN no byte of memory changes
unless the code is BUS, and in RUN the code is OK or BUS (R68, R136, R263). -/
inductive EngineEnds (s : State) : State → Prop where
  | goesOn (t : State) (busy : t.phase ≠ .idle) (keys : t.keys = s.keys) (keyLen : t.keyLen = s.keyLen)
    (mem : s.phase ≠ .run → t.mem = s.mem) : EngineEnds s t
  | completes (u : State) (code : ResultCode) (n : Nat) (inRun : s.phase = .run → code = .ok ∨ code = .bus)
    (mem : s.phase ≠ .run → code ≠ .bus → u.mem = s.mem) : EngineEnds s (completion u code n)

/-- The completion with OK is a completion, over a state with the same registers. -/
theorem complete_eq_completion (s : State) (n : Nat) : ∃ u, complete s n = completion u .ok n := by
  unfold complete
  split
  · exact ⟨_, rfl⟩
  · exact ⟨_, rfl⟩

theorem phaseAfterCheck_ne_idle (i : Instr) : phaseAfterCheck i ≠ .idle := by cases i <;> simp [phaseAfterCheck]

theorem check_ends (i : Instr) {s : State} (hp : s.phase = .check) : EngineEnds s (check i s) := by
  cases hc : checkError i s with
  | some code =>
    rw [check_of_error i s code hc]
    exact .completes s code 0 (by simp [hp]) fun _ _ => rfl
  | none =>
    rw [check_of_none i s hc]
    exact .goesOn _ (phaseAfterCheck_ne_idle i) rfl rfl fun _ => rfl

theorem awaitRandom_ends {s : State} (hp : s.phase = .rngWait) : EngineEnds s (awaitRandom s) := by
  rcases awaitRandom_cases s with h | ⟨iv, -, h⟩ | ⟨-, h⟩ <;> rw [h]
  · exact .goesOn s (by simp [hp]) rfl rfl fun _ => rfl
  · exact .goesOn _ (by simp) rfl rfl fun _ => rfl
  · exact .completes s .randomSource 0 (by simp [hp]) fun _ _ => rfl

theorem runOutcome_ends {i : Instr} {s t : State} (hp : s.phase = .run) (h : RunOutcome i s t) : EngineEnds s t := by
  have hrun (x : s.phase ≠ .run) : t.mem = s.mem := absurd hp x
  cases h with
  | iv u work =>
    obtain ⟨hphase, -, -, -, -, hkeys, hlen, -⟩ := work.kept
    exact .goesOn _ (hphase ▸ by simp [hp]) hkeys hlen hrun
  | data u work =>
    obtain ⟨hphase, -, -, -, -, hkeys, hlen, -⟩ := work.kept
    exact .goesOn _ (hphase ▸ by simp [hp]) hkeys hlen hrun
  | complete u n work =>
    obtain ⟨v, hv⟩ := complete_eq_completion u n
    rw [hv]
    exact .completes v .ok n (fun _ => .inl rfl) fun hx => absurd hp hx

theorem exec_ends {i : Instr} {s t : State} (hidle : s.phase ≠ .idle) (h : exec i s = .next t) : EngineEnds s t := by
  rcases exec_cases h with hs | ⟨u, hu, rfl | rfl⟩
  · cases hs with
    | held _ => exact .goesOn s hidle rfl rfl fun _ => rfl
    | checked hp => exact check_ends i hp
    | awaited hp _ => exact awaitRandom_ends hp
    | prechecked hp _ hout =>
      cases hout with
      | passed d pv _ => exact .goesOn _ (by simp) rfl rfl fun _ => rfl
      | failed d => exact .completes _ .padding 0 (by simp [hp]) fun _ _ => rfl
    | ran hp hout => exact runOutcome_ends hp hout
  · exact .completes _ .bus 0 (fun _ => .inr rfl) fun _ hx => absurd rfl hx
  · obtain ⟨hphase, -, -, -, -, hkeys, hlen, -⟩ := hu.kept
    refine .goesOn _ (hphase ▸ hidle) hkeys hlen fun hx => ?_
    cases hu with
    | precheck _ hu =>
      obtain ⟨d, pv, rfl⟩ := hu
      rfl
    | run hp _ => exact absurd hp hx

theorem engineStep_ends {s t : State} (hidle : s.phase ≠ .idle) (h : engineStep s = .next t) : EngineEnds s t := by
  by_cases hr : s.engineReady = true
  · cases hd : decode s.cmdLast with
    | cmd i =>
      rw [engineStep_cmd s i hr hd] at h
      exact exec_ends hidle h
    | illegal w =>
      rw [engineStep_illegal s w hr hd] at h
      cases h
      by_cases hp : s.phase = .check
      · rw [checkIllegal_check s hp]
        exact .completes s .illegalCmd 0 (by simp [hp]) fun _ _ => rfl
      · have hsame : checkIllegal s = s := by
          unfold checkIllegal
          split
          · exact absurd ‹_› hp
          all_goals rfl
        rw [hsame]
        exact .goesOn s hidle rfl rfl fun _ => rfl
  · rw [engineStep_held s (by simpa using hr)] at h
    cases h
    exact .goesOn s hidle rfl rfl fun _ => rfl

/-- An answer of the random source only lets the engine take its step. -/
theorem rngStep_ends {a : RngAnswer} {s t : State} (hidle : s.phase ≠ .idle) (h : rngStep a s = .next t) :
    EngineEnds s t := by
  unfold rngStep at h
  split at h
  · cases engineStep_ends (s := { s with rngAnswer := some a }) hidle h with
    | goesOn t busy keys keyLen mem => exact .goesOn t busy keys keyLen mem
    | completes u code n inRun mem => exact .completes u code n inRun mem
  · cases h
    exact .goesOn s hidle rfl rfl fun _ => rfl

/-! ### The operands and the key -/

/-- The operands of the active command and the platform are as they were. -/
def SameOperands (s t : State) : Prop :=
  t.cmdLast = s.cmdLast ∧ t.srcAddr = s.srcAddr ∧ t.dstAddr = s.dstAddr ∧ t.srcLen = s.srcLen ∧ t.platform = s.platform

theorem sameOperands_of_hostSide {s t : State} (h : t.hostSide = s.hostSide) : SameOperands s t :=
  ⟨show t.hostSide.cmdLast = s.hostSide.cmdLast from congrArg State.cmdLast h,
    show t.hostSide.srcAddr = s.hostSide.srcAddr from congrArg State.srcAddr h,
    show t.hostSide.dstAddr = s.hostSide.dstAddr from congrArg State.dstAddr h,
    show t.hostSide.srcLen = s.hostSide.srcLen from congrArg State.srcLen h,
    show t.hostSide.platform = s.hostSide.platform from congrArg State.platform h⟩

/-- The key is as it was, or it is zero and the command is over. -/
def KeyKeptOrZeroed (s t : State) : Prop :=
  (t.keys = s.keys ∧ t.keyLen = s.keyLen) ∨ (t.phase = .idle ∧ t.keys = zeroKeys ∧ t.keyLen = 0)

theorem EngineEnds.key {s t : State} (h : EngineEnds s t) : KeyKeptOrZeroed s t := by
  cases h with
  | goesOn _ busy keys keyLen _ => exact .inl ⟨keys, keyLen⟩
  | completes u code n _ _ => exact .inr ⟨rfl, rfl, rfl⟩

/-- While BUSY a register write reaches no locked register (R113). -/
theorem regWrite_busy {s : State} (hb : s.busy = true) (r : Reg) (w : Word) :
    SameOperands s (regWrite s r w) ∧ (regWrite s r w).keys = s.keys ∧ (regWrite s r w).keyLen = s.keyLen ∧
      (regWrite s r w).phase = s.phase := by
  by_cases hl : locked r = true
  · rw [regWrite_lost s r w hl hb]
    exact ⟨⟨rfl, rfl, rfl, rfl, rfl⟩, rfl, rfl, rfl⟩
  · rw [regWrite_taken s r w fun hx => hl hx.1]
    cases r with
    | status | outLen | irqEn => exact ⟨⟨rfl, rfl, rfl, rfl, rfl⟩, rfl, rfl, rfl⟩
    | cmd | srcAddr | dstAddr | srcLen | keyLen | key k => exact absurd rfl hl

/-- While BUSY no host operation changes an operand, the key or PHASE. -/
theorem hostStep_busy {op : HostOp} {s t : State} (hb : s.busy = true) (h : hostStep op s = .next t) :
    SameOperands s t ∧ t.keys = s.keys ∧ t.keyLen = s.keyLen ∧ t.phase = s.phase := by
  cases op with
  | regRead size off =>
    simp only [hostStep] at h
    split at h
    · cases h
    · split at h <;> cases h <;> exact ⟨⟨rfl, rfl, rfl, rfl, rfl⟩, rfl, rfl, rfl⟩
  | regWrite size off w =>
    simp only [hostStep] at h
    split at h
    · cases h
    · split at h <;> cases h
      · exact regWrite_busy hb _ w
      · exact ⟨⟨rfl, rfl, rfl, rfl, rfl⟩, rfl, rfl, rfl⟩
  | memRead a n =>
    rcases bufferAccess_cases ⟨a, n⟩ (hostRead s a n) with e | ⟨e, -⟩
    · cases e.symm.trans h
    · cases e.symm.trans h
      rw [hostRead_frame]
      exact ⟨⟨rfl, rfl, rfl, rfl, rfl⟩, rfl, rfl, rfl⟩
  | memWrite a bs =>
    rcases bufferAccess_cases ⟨a, bs.length⟩ (hostWrite s a bs) with e | ⟨e, -⟩
    · cases e.symm.trans h
    · cases e.symm.trans h
      exact ⟨⟨rfl, rfl, rfl, rfl, rfl⟩, rfl, rfl, rfl⟩
  | waitDone =>
    simp only [hostStep] at h
    split at h <;> cases h
    exact ⟨⟨rfl, rfl, rfl, rfl, rfl⟩, rfl, rfl, rfl⟩

/-- Everything a step other than reset can do to a busy command: its operands stay, and it goes on or completes; or the step
is the host's or the release of reset and leaves key and PHASE as they were. -/
theorem step_busy_cases {s t : State} (hidle : s.phase ≠ .idle) (hno : ∀ es, s.events ≠ .resetAssert :: es)
    (h : step s = .next t) :
    SameOperands s t ∧ (EngineEnds s t ∨ t.keys = s.keys ∧ t.keyLen = s.keyLen ∧ t.phase = s.phase) := by
  cases he : s.events with
  | nil =>
    rw [step_nil s he] at h
    obtain ⟨u, hu, hside⟩ := engineStep_hostSide s
    cases hu.symm.trans h
    exact ⟨sameOperands_of_hostSide hside, .inl (engineStep_ends hidle h)⟩
  | cons e es =>
    rw [step_cons s e es he] at h
    have lift (t : State) (ht : EngineEnds { s with events := es } t) : EngineEnds s t := by
      cases ht with
      | goesOn t busy keys keyLen mem => exact .goesOn t busy keys keyLen mem
      | completes u code n inRun mem => exact .completes u code n inRun mem
    cases e with
    | engine =>
      obtain ⟨u, hu, hside⟩ := engineStep_hostSide { s with events := es }
      cases hu.symm.trans h
      exact ⟨sameOperands_of_hostSide (s := { s with events := es }) hside,
        .inl (lift _ (engineStep_ends (s := { s with events := es }) hidle h))⟩
    | host op =>
      obtain ⟨hops, hrest⟩ := hostStep_busy (s := { s with events := es }) ((busy_eq_true_iff s).2 hidle) h
      exact ⟨hops, .inr hrest⟩
    | rng a =>
      obtain ⟨u, hu, hside⟩ := rngStep_hostSide a { s with events := es }
      cases hu.symm.trans h
      exact ⟨sameOperands_of_hostSide (s := { s with events := es }) hside,
        .inl (lift _ (rngStep_ends (s := { s with events := es }) hidle h))⟩
    | resetAssert => exact absurd he (hno es)
    | resetRelease =>
      cases h
      exact ⟨⟨rfl, rfl, rfl, rfl, rfl⟩, .inr ⟨rfl, rfl, rfl⟩⟩

/-- Settles O9, from what a step can do to a busy command. -/
theorem operandsFrozenWhileBusy : Obligations.OperandsFrozenWhileBusy := by
  intro s t hidle hno h
  obtain ⟨⟨hcmd, hsrc, hdst, hlen, hplat⟩, hend⟩ := step_busy_cases hidle hno h
  refine ⟨hcmd, hsrc, hdst, hlen, hplat, ?_⟩
  rcases hend with hend | ⟨hkeys, hklen, -⟩
  · exact hend.key
  · exact .inl ⟨hkeys, hklen⟩

/-- Settles O12: a busy command that is not reset ends by a completion. -/
theorem everyEndOfCommandZeroesKey : Obligations.EveryEndOfCommandZeroesKey := by
  intro s t _ h hb hend hreset
  have hidle := (busy_eq_true_iff s).1 hb
  have hno : ∀ es, s.events ≠ .resetAssert :: es := fun es he => by
    rw [step_cons s _ es he] at h
    cases h
    cases hreset
  have htidle : t.phase = .idle := by simpa [State.busy] using hend
  obtain ⟨-, hends | ⟨-, -, hphase⟩⟩ := step_busy_cases hidle hno h
  · cases hends with
    | goesOn _ busy => exact absurd htidle busy
    | completes u code n _ _ => exact ⟨rfl, rfl, rfl, hiddenZero_completion u code n, rfl, by simp +contextual⟩
  · exact absurd (hphase ▸ htidle) hidle

/-- Settles O50, from how the engine's step leaves the command. -/
theorem failedCommandLeavesMemory : Obligations.FailedCommandLeavesMemory := by
  intro s t _ he h hb
  rw [step_nil s he] at h
  cases engineStep_ends ((busy_eq_true_iff s).1 hb) h with
  | goesOn _ busy _ _ mem =>
    exact ⟨fun hend => absurd ((busy_eq_true_iff t).2 busy) (by simp [hend]), fun hrun _ => mem hrun⟩
  | completes u code n inRun mem =>
    refine ⟨fun _ hok hbus => ?_, fun hrun hcode => ?_⟩
    · have hrun : s.phase ≠ .run := fun hx => (inRun hx).elim hok hbus
      exact ⟨hrun, mem hrun hbus⟩
    · exact mem hrun (hcode.resolve_left (by simp [State.busy]))

/-! ### What the engine writes -/

@[simp] theorem check_mem (i : Instr) (s : State) : (check i s).mem = s.mem := by
  unfold check
  split <;> rfl

@[simp] theorem awaitRandom_mem (s : State) : (awaitRandom s).mem = s.mem := by
  unfold awaitRandom
  split <;> rfl

/-- A completion with OK changes bytes of DSTR at most (R72). -/
theorem read_complete_outside (s : State) (n c : Nat) (hc : ¬(s.dst ≤ c ∧ c < s.dst + s.outmax.toNat)) :
    (complete s n).mem.read c = s.mem.read c := by
  unfold complete
  split
  · exact Memory.read_scramble_outside _ _ _ _ _ (by omega)
  · rfl

/-- So does a completion with BUS (R70). -/
theorem read_raiseBus_outside (s : State) (c : Nat) (hc : ¬(s.dst ≤ c ∧ c < s.dst + s.outmax.toNat)) :
    (raiseBus s).mem.read c = s.mem.read c :=
  Memory.read_scramble_outside _ _ _ _ _ (by omega)

/-- Work in RUN leaves the bytes outside DSTR, and the region itself. -/
theorem Worked.outside_dstr {i : Instr} {s u : State} (h : Worked i s u) (hpast : PastCheck i s) (hplace : RunPlace i s)
    {c : Nat} (hc : ¬(s.dst ≤ c ∧ c < s.dst + outmaxOf i s.len)) :
    u.mem.read c = s.mem.read c ∧ ¬(u.dst ≤ c ∧ c < u.dst + u.outmax.toNat) := by
  refine ⟨h.outside hplace c hc, ?_⟩
  rw [h.frame]
  exact hpast.2.2 ▸ hc

/-- A state in which an access failed has changed nothing outside DSTR. -/
theorem StepFailed.outside_dstr {i : Instr} {s u : State} (hu : StepFailed i s u) (h : s.Inv)
    (hd : decode s.cmdLast = .cmd i) {c : Nat} (hc : ¬(s.dst ≤ c ∧ c < s.dst + outmaxOf i s.len)) :
    u.mem.read c = s.mem.read c ∧ ¬(u.dst ≤ c ∧ c < u.dst + u.outmax.toNat) := by
  cases hu with
  | precheck hp hu =>
    obtain ⟨d, pv, rfl⟩ := hu
    exact ⟨rfl, (h.precheck_of_decode hp hd).1.2.2 ▸ hc⟩
  | run hp work =>
    obtain ⟨hpast, hplace⟩ := h.run_of_decode hp hd
    exact work.outside_dstr hpast hplace hc

/-- No step on a command changes a byte outside its DSTR (R68). -/
theorem exec_read_outside {i : Instr} {s t : State} (h : s.Inv) (hd : decode s.cmdLast = .cmd i)
    (ht : exec i s = .next t) {c : Nat} (hc : ¬(s.dst ≤ c ∧ c < s.dst + outmaxOf i s.len)) :
    t.mem.read c = s.mem.read c := by
  rcases exec_cases ht with hs | ⟨u, hu, rfl | rfl⟩
  · cases hs with
    | held _ => rfl
    | checked _ => rw [check_mem]
    | awaited _ _ => rw [awaitRandom_mem]
    | prechecked _ _ hout => cases hout <;> rfl
    | ran hp hout =>
      obtain ⟨hpast, hplace⟩ := h.run_of_decode hp hd
      cases hout with
      | iv u work | data u work => exact work.outside hplace c hc
      | complete u n work =>
        obtain ⟨hread, hout⟩ := work.outside_dstr hpast hplace hc
        rw [read_complete_outside u n c hout, hread]
  · obtain ⟨hread, hout⟩ := hu.outside_dstr h hd hc
    rw [read_raiseBus_outside u c hout, hread]
  · exact (hu.outside_dstr h hd hc).1

/-- An engine with a legal word runs its command or holds. -/
theorem engineStep_cases {i : Instr} {s t : State} (hd : decode s.cmdLast = .cmd i) (h : engineStep s = .next t) :
    exec i s = .next t ∨ t = s := by
  by_cases hr : s.engineReady = true
  · rw [engineStep_cmd s i hr hd] at h
    exact .inl h
  · rw [engineStep_held s (by simpa using hr)] at h
    cases h
    exact .inr rfl

/-- Settles O51, from what the step on the command writes. -/
theorem engineWritesOnlyDestination : Obligations.EngineWritesOnlyDestination := by
  intro s t i h he ht hd c hc
  rw [step_nil s he] at ht
  rcases engineStep_cases hd ht with hexec | rfl
  · exact exec_read_outside h hd hexec hc
  · rfl

/-- A state in which an access failed has the region of the command, and is past its checks. -/
theorem StepFailed.region {i : Instr} {s u : State} (hu : StepFailed i s u) (h : s.Inv)
    (hd : decode s.cmdLast = .cmd i) :
    u.dst = s.dst ∧ u.outmax.toNat = outmaxOf i s.len ∧ checkError i s = none ∧
      (s.phase = .precheck ∨ s.phase = .run) := by
  cases hu with
  | precheck hp hu =>
    obtain ⟨d, pv, rfl⟩ := hu
    obtain ⟨-, hc, hmax⟩ := (h.precheck_of_decode hp hd).1
    exact ⟨rfl, hmax, hc, .inl hp⟩
  | run hp work =>
    obtain ⟨-, hc, hmax⟩ := (h.run_of_decode hp hd).1
    rw [work.frame]
    exact ⟨rfl, hmax, hc, .inr hp⟩

/-- Settles O52: a step that ends with BUS is one with a failed access, and its completion draws every byte of DSTR. -/
theorem busErrorScramblesDestination : Obligations.BusErrorScramblesDestination := by
  intro s t i h he ht hb hd hend hbus
  rw [step_nil s he] at ht
  have hidle := (busy_eq_true_iff s).1 hb
  have htidle : t.phase = .idle := by simpa [State.busy] using hend
  have herr : s.errcode ≠ .bus := by rw [(h.busy_cleared hidle).2.1]; nofun
  rcases engineStep_cases hd ht with hexec | rfl
  · rcases exec_cases hexec with hs | ⟨u, hu, rfl | rfl⟩
    · exact absurd hbus (hs.errcode_busHung herr).1
    · obtain ⟨hdst, hmax, hc, hphase⟩ := hu.region h hd
      obtain ⟨-, hfit, -⟩ := (rangeOk_iff _ _ _ _).1 ((checkError_eq_none i s).1 hc).2.2.2.1
      have hmem : (raiseBus u).mem = u.mem.scramble u.draws s.dst (outmaxOf i s.len) := by
        rw [← hdst, ← hmax]
        rfl
      refine ⟨rfl, rfl, rfl, hphase, ⟨u.draws, fun j hj => ?_⟩, fun c hc => exec_read_outside h hd hexec hc⟩
      rw [hmem]
      exact Memory.read_scramble_inside _ _ _ _ _ hfit hj
    · exact absurd (hu.kept.1 ▸ htidle) hidle
  · exact absurd htidle hidle

end Sys2Proof.Machine
end

section
/-!
SUPPORT. The moves of PHASE (R23), with the causes of each: for the moves out of PRECHECK, what the validator says of the
source where the bus serves it and it is plain memory.
-/

namespace Sys2Proof.Machine

/-! ### Good buffers -/

theorem State.GoodBuffers.source {s : State} {i : Instr} (h : s.GoodBuffers i) :
    servedRange s.platform s.src s.len ∧ plainRange s.platform s.src s.len :=
  ⟨servedRange_of_region h.src_served, plainRange_of_meets _ _ _ h.src_plain⟩

/-! ### The final block of DEC_CBC -/

theorem blockAt_readRange (m : Memory) (a n q : Nat) (hq : 16 * q + 16 ≤ n) :
    blockAt (m.readRange a n) q = blockOfBytes (m.readRange (a + 16 * q) 16) := by
  rw [blockAt, Memory.drop_readRange, Memory.take_readRange _ _ _ _ (by omega)]

/-- The padded plaintext of the source of DEC_CBC (R205). -/
def decCbcPlain (D : Block → Block) (s : State) : List Byte :=
  cbcDec D (blockOfBytes (s.mem.readRange s.src 16)) (s.mem.readRange (s.src + 16) (s.len - 16))

/-- It ends in the block that PRECHECK decrypts (R206). -/
theorem decCbcPlain_eq_append_final (D : Block → Block) {s : State} (hm : decCbcBlocks s ≠ 0)
    (hmod : (s.len - 16) % 16 = 0) : ∃ a, decCbcPlain D s = a ++ (decCbcFinalBlock D s).1 := by
  obtain ⟨k, hk⟩ := Nat.exists_eq_succ_of_ne_zero hm
  have hlen : s.len - 16 = 16 * (k + 1) := by
    rw [decCbcBlocks] at hk
    omega
  obtain ⟨a, ha⟩ := cbcDec_eq_append_final D (blockOfBytes (s.mem.readRange s.src 16))
    (s.mem.readRange (s.src + 16) (s.len - 16)) k (by rw [Memory.length_readRange, hlen])
  refine ⟨a, ha.trans ?_⟩
  have hlast : blockAt (s.mem.readRange (s.src + 16) (s.len - 16)) k =
      blockOfBytes (s.mem.readRange (s.src + 16 * decCbcBlocks s) 16) := by
    rw [blockAt_readRange _ _ _ _ (by omega), hk, show s.src + 16 + 16 * k = s.src + 16 * (k + 1) by omega]
  have hprev : chainAt (blockOfBytes (s.mem.readRange s.src 16)) (s.mem.readRange (s.src + 16) (s.len - 16)) k =
      blockOfBytes (s.mem.readRange (s.src + 16 * (decCbcBlocks s - 1)) 16) := by
    rw [hk, Nat.succ_sub_one, chainAt]
    split
    · next h0 => rw [h0, Nat.mul_zero, Nat.add_zero]
    · rw [blockAt_readRange _ _ _ _ (by omega), show s.src + 16 + 16 * (k - 1) = s.src + 16 * k by omega]
  rw [decCbcFinalBlock, hlast, hprev]

/-- The check of PRECHECK is the check on the whole padded plaintext, with the same last byte (R206). -/
theorem decCbcFinalBlock_decides (D : Block → Block) {s : State} (hm : decCbcBlocks s ≠ 0)
    (hmod : (s.len - 16) % 16 = 0) :
    pkcs7Valid (decCbcFinalBlock D s).1 16 (16 * decCbcBlocks s) = pkcs7Valid (decCbcPlain D s) 16 (s.len - 16) ∧
      lastByte (decCbcFinalBlock D s) = (decCbcPlain D s).getLastD 0 := by
  obtain ⟨a, ha⟩ := decCbcPlain_eq_append_final D hm hmod
  have hne : (decCbcFinalBlock D s).1 ≠ [] := List.length_pos_iff.1 (by simp)
  have hlen : 16 * decCbcBlocks s = s.len - 16 := by
    rw [decCbcBlocks]
    omega
  rw [ha, hlen]
  refine ⟨(pkcs7Valid_append a _ 16 _ hne (by simp)).symm, ?_⟩
  rw [lastByte, List.getLastD_eq_getLast?, List.getLastD_eq_getLast?, List.getLast?_append_of_ne_nil _ hne]

/-- PRECHECK of DEC_CBC over good buffers, in the terms of the whole padded plaintext (R205, R206). -/
theorem exec_decCbc_precheck {s : State} (hp : s.phase = .precheck) (hc : checkError .decCbc s = none)
    (hgood : s.GoodBuffers .decCbc) :
    exec .decCbc s = .next
      (if pkcs7Valid (decCbcPlain (Config.D s.key) s) 16 (s.len - 16) then
        { s with padv := (decCbcPlain (Config.D s.key) s).getLastD 0, phase := .run }
      else completion s .padding 0) := by
  obtain ⟨-, hmin, hmod, -⟩ := (checkError_eq_none _ s).1 hc
  obtain ⟨hserved, hplain⟩ := hgood.source
  have hsplit : 16 + 16 * decCbcBlocks s ≤ s.len := by
    have := hmin (.inr rfl)
    rw [decCbcBlocks]
    omega
  by_cases hm : decCbcBlocks s = 0
  · have hnil : s.len - 16 = 0 := by
      have := hmod rfl
      rw [decCbcBlocks] at hm
      omega
    rw [exec_precheck_of_ok (i := .decCbc) hp (decCbcPrecheck_none _ hm), hnil, if_neg (by simp [pkcs7Valid])]
  · obtain ⟨hvalid, hlast⟩ := decCbcFinalBlock_decides (Config.D s.key) hm (hmod rfl)
    rw [exec_precheck_of_ok (i := .decCbc) hp (decCbcPrecheck_served _ hm
      (servedRange_mono hserved (by omega) (by omega)) (plainRange_mono hplain (by omega) (by omega)) hgood.unraced),
      hvalid, hlast]

/-- PRECHECK of UNPAD over good buffers (R235). -/
theorem exec_unpad_precheck {bs : BitVec 8} {s : State} (hp : s.phase = .precheck) (hgood : s.GoodBuffers (.unpad bs)) :
    exec (.unpad bs) s = .next
      (if pkcs7Valid (s.mem.readRange s.src s.len) bs.toNat s.len then
        { s with padv := (s.mem.readRange s.src s.len).getLastD 0, phase := .run }
      else completion s .padding 0) := by
  obtain ⟨hserved, hplain⟩ := hgood.source
  exact exec_precheck_of_ok (i := .unpad bs) hp (unpadPrecheck_served bs.toNat hserved hplain hgood.unraced)

/-- A conditional step that leaves IDLE out took the condition. -/
theorem of_next_ite_phase {b : Bool} {t u : State} {code : ResultCode} {n : Nat} {v : State}
    (h : (Host.Outcome.next (if b then u else completion v code n) : Host.Outcome State Fault Refusal) = .next t)
    (ht : t.phase = .run) : b = true := by
  cases b with
  | true => rfl
  | false =>
    cases h
    cases ht

/-! ### The moves of PHASE -/

/-- CHECK onwards once every check passes (R23, R130). -/
def CheckMove (s t : State) : Prop :=
  s.phase = .check ∧ ∃ i, decode s.cmdLast = .cmd i ∧ checkError i s = none ∧
    ((t.phase = .rngWait ∧ (i = .encCfb ∨ i = .encCbc)) ∨
      (t.phase = .precheck ∧ (i = .decCbc ∨ ∃ bs, i = .unpad bs)) ∨
      (t.phase = .run ∧ (i = .decCfb ∨ ∃ bs, i = .pad bs)))

/-- PRECHECK to RUN when the padding is valid (R23, R206, R235). -/
def PrecheckMove (s t : State) : Prop :=
  s.phase = .precheck ∧ t.phase = .run ∧
    ((decode s.cmdLast = .cmd .decCbc ∧ (s.GoodBuffers .decCbc →
        pkcs7Valid (decCbcPlain (Config.D s.key) s) 16 (s.len - 16) = true)) ∨
      ∃ bs, decode s.cmdLast = .cmd (.unpad bs) ∧ (s.GoodBuffers (.unpad bs) →
        pkcs7Valid (s.mem.readRange s.src s.len) bs.toNat s.len = true))

/-- A busy phase to IDLE through completion (R23, R136). -/
def CompletionMove (s t : State) : Prop :=
  s.phase ≠ .idle ∧ t.phase = .idle ∧ t.done = true ∧ t.keys = zeroKeys ∧ t.keyLen = 0

theorem checkMove_check {i : Instr} {s : State} (hp : s.phase = .check) (hd : decode s.cmdLast = .cmd i)
    (hc : checkError i s = none) : CheckMove s (check i s) := by
  refine ⟨hp, i, hd, hc, ?_⟩
  rw [check_of_none i s hc]
  cases i with
  | encCfb => exact .inl ⟨rfl, .inl rfl⟩
  | encCbc => exact .inl ⟨rfl, .inr rfl⟩
  | decCbc => exact .inr (.inl ⟨rfl, .inl rfl⟩)
  | unpad bs => exact .inr (.inl ⟨rfl, .inr ⟨bs, rfl⟩⟩)
  | decCfb => exact .inr (.inr ⟨rfl, .inl rfl⟩)
  | pad bs => exact .inr (.inr ⟨rfl, .inr ⟨bs, rfl⟩⟩)

theorem precheckMove_exec {i : Instr} {s t : State} (hp : s.phase = .precheck) (hd : decode s.cmdLast = .cmd i)
    (hi : prechecks i = true) (hc : checkError i s = none) (h : exec i s = .next t) (ht : t.phase = .run) :
    PrecheckMove s t := by
  refine ⟨hp, ht, ?_⟩
  cases i with
  | decCbc =>
    refine .inl ⟨hd, fun hgood => ?_⟩
    rw [exec_decCbc_precheck hp hc hgood] at h
    exact of_next_ite_phase h ht
  | unpad bs =>
    refine .inr ⟨bs, hd, fun hgood => ?_⟩
    rw [exec_unpad_precheck hp hgood] at h
    exact of_next_ite_phase h ht
  | encCfb | decCfb | encCbc | pad bs => cases hi

/-- What an engine step does to PHASE (R23). -/
theorem engineStep_moves {s t : State} (hinv : s.Inv) (h : engineStep s = .next t) :
    t.phase = s.phase ∨ CheckMove s t ∨ PrecheckMove s t ∨ CompletionMove s t := by
  by_cases hidle : s.phase = .idle
  · have hheld : s.engineReady = false := by simp [State.engineReady, State.busy, hidle]
    rw [engineStep_held s hheld] at h
    cases h
    exact .inl rfl
  cases engineStep_ends hidle h with
  | completes u code n _ _ => exact .inr (.inr (.inr ⟨hidle, rfl, rfl, rfl, rfl⟩))
  | goesOn _ busy _ _ _ =>
    cases hd : decode s.cmdLast with
    | illegal w =>
      by_cases hr : s.engineReady = true
      · rw [engineStep_illegal s w hr hd] at h
        cases h
        unfold checkIllegal at busy ⊢
        split at busy
        · exact absurd rfl busy
        all_goals exact .inl rfl
      · rw [engineStep_held s (by simpa using hr)] at h
        cases h
        exact .inl rfl
    | cmd i =>
      rcases engineStep_cases hd h with hexec | rfl
      · rcases exec_cases hexec with hs | ⟨u, hu, rfl | rfl⟩
        · cases hs with
          | held _ => exact .inl rfl
          | checked hp =>
            cases hc : checkError i s with
            | some code =>
              rw [check_of_error i s code hc] at busy
              exact absurd rfl busy
            | none => exact .inr (.inl (checkMove_check hp hd hc))
          | awaited _ _ => exact .inl (by rw [awaitRandom_none s hinv.answer])
          | prechecked hp hi hout =>
            cases hout with
            | passed d pv _ =>
              obtain ⟨-, hc, -⟩ := (hinv.precheck_of_decode hp hd).1
              exact .inr (.inr (.inl (precheckMove_exec hp hd hi hc hexec rfl)))
            | failed d => exact absurd rfl busy
          | ran hp hout =>
            cases hout with
            | iv u work | data u work => exact .inl work.kept.1
            | complete u n work => exact absurd (complete_phase u n) busy
        · exact absurd rfl busy
        · exact .inl hu.kept.1
      · exact .inl rfl

/-- A host operation moves PHASE only by an accepted CMD write (R23, R112). -/
theorem hostStep_moves {op : HostOp} {s t : State} (h : hostStep op s = .next t) :
    t.phase = s.phase ∨
      (s.phase = .idle ∧ t.phase = .check ∧ ∃ w, op = .regWrite .word 0x00 w ∧ t.cmdLast = w) := by
  by_cases hb : s.busy = true
  · exact .inl (hostStep_busy hb h).2.2.2
  have hidle : s.phase = .idle := by
    by_contra hx
    exact hb ((busy_eq_true_iff s).2 hx)
  cases op with
  | regRead size off =>
    simp only [hostStep] at h
    split at h
    · cases h
    · split at h <;> cases h <;> exact .inl rfl
  | regWrite size off w =>
    simp only [hostStep] at h
    split at h
    · cases h
    split at h <;> cases h
    · next r hr =>
      rw [regWrite_taken s r w fun hx => hb hx.2]
      cases r with
      | cmd =>
        obtain rfl : size = .word := by
          cases size with
          | word => rfl
          | half | byte => cases hr
        obtain rfl : off = 0x00 := (regAt_eq_some_iff off .cmd).1 hr
        exact .inr ⟨hidle, rfl, w, rfl, rfl⟩
      | _ => exact .inl rfl
    · exact .inl rfl
  | memRead a n =>
    rcases bufferAccess_cases ⟨a, n⟩ (hostRead s a n) with e | ⟨e, -⟩
    · cases e.symm.trans h
    · cases e.symm.trans h
      exact .inl (by rw [hostRead_frame])
  | memWrite a bs =>
    rcases bufferAccess_cases ⟨a, bs.length⟩ (hostWrite s a bs) with e | ⟨e, -⟩
    · cases e.symm.trans h
    · cases e.symm.trans h
      exact .inl rfl
  | waitDone =>
    simp only [hostStep] at h
    split at h <;> cases h
    exact .inl rfl

/-- An answer of the random source moves PHASE from RNG_WAIT to RUN, or ends the command (R23, R131). -/
theorem rngStep_moves {a : RngAnswer} {s t : State} (hinv : s.Inv) (h : rngStep a s = .next t) :
    t.phase = s.phase ∨ (s.phase = .rngWait ∧ t.phase = .run ∧ ∃ iv, a = .ok iv ∧ t.ivb = iv) ∨ CompletionMove s t := by
  rcases rngStep_cases hinv h with rfl | ⟨hp, rfl⟩
  · exact .inl rfl
  · cases a with
    | ok iv =>
      rw [awaitRandom_ok _ iv rfl]
      exact .inr (.inl ⟨hp, rfl, iv, rfl, rfl⟩)
    | fail =>
      rw [awaitRandom_fail _ rfl]
      exact .inr (.inr ⟨by simp [hp], rfl, rfl, rfl, rfl⟩)

/-- Settles O8, by what moves: the engine, the host, the random source or the reset input. -/
theorem onlyLegalPhaseMoves : Obligations.OnlyLegalPhaseMoves := by
  intro s t hinv h
  have engine {s' : State} (hm : t.phase = s'.phase ∨ CheckMove s' t ∨ PrecheckMove s' t ∨ CompletionMove s' t)
      (es : List Event) (hs : s' = { s with events := es }) :
      t.phase = s.phase ∨ CheckMove s t ∨ PrecheckMove s t ∨ CompletionMove s t := by
    subst hs
    rcases hm with hm | hm | ⟨hp, ht, hvalid⟩ | hm
    · exact .inl hm
    · exact .inr (.inl hm)
    · refine .inr (.inr (.inl ⟨hp, ht, hvalid.imp ?_ ?_⟩))
      · rintro ⟨hd, hv⟩
        exact ⟨hd, fun ⟨g1, g2, g3, g4, g5⟩ => hv ⟨g1, g2, g3, g4, g5⟩⟩
      · rintro ⟨bs, hd, hv⟩
        exact ⟨bs, hd, fun ⟨g1, g2, g3, g4, g5⟩ => hv ⟨g1, g2, g3, g4, g5⟩⟩
    · exact .inr (.inr (.inr hm))
  have finish {A B C : Prop} (hm : t.phase = s.phase ∨ CheckMove s t ∨ PrecheckMove s t ∨ CompletionMove s t) :
      t.phase = s.phase ∨ A ∨ CheckMove s t ∨ B ∨ PrecheckMove s t ∨ CompletionMove s t ∨ C :=
    hm.imp_right fun hm => .inr <| hm.imp_right fun hm => .inr <| hm.imp_right .inl
  cases he : s.events with
  | nil =>
    rw [step_nil s he] at h
    exact finish (engine (engineStep_moves hinv h) s.events rfl)
  | cons e es =>
    rw [step_cons s e es he] at h
    have hinv' := inv_events s es hinv
    cases e with
    | engine => exact finish (engine (engineStep_moves hinv' h) es rfl)
    | host op =>
      rcases hostStep_moves h with hm | ⟨hp, ht, w, rfl, hw⟩
      · exact .inl hm
      · exact .inr (.inl ⟨hp, ht, w, es, rfl, hw⟩)
    | rng a =>
      rcases rngStep_moves hinv' h with hm | ⟨hp, ht, iv, rfl, hiv⟩ | hm
      · exact .inl hm
      · exact .inr (.inr (.inr (.inl ⟨hp, ht, iv, es, rfl, hiv⟩)))
      · exact .inr (.inr (.inr (.inr (.inr (.inl hm)))))
    | resetAssert =>
      cases h
      exact .inr (.inr (.inr (.inr (.inr (.inr ⟨rfl, es, rfl⟩)))))
    | resetRelease =>
      cases h
      exact .inl rfl

end Sys2Proof.Machine
end

section
/-!
SUPPORT. Two runs of the engine that differ in key bytes the command does not use (R55): every access answers the same in both,
and the states stay the same but for the key registers.
-/

namespace Sys2Proof.Machine

/-- Two states that differ in their key registers alone: these are still `k₀` and `k`, or zero in both after a completion. -/
def KeysApart (k₀ k : KeyRegs) (t t' : State) : Prop :=
  ∃ k', t' = { t with keys := k' } ∧ ((t.keys = k₀ ∧ k' = k) ∨ (t.keys = zeroKeys ∧ k' = zeroKeys))

/-- Two accesses that come to the same, in states that differ in their key registers alone. -/
inductive Access.Alike (k₀ k : KeyRegs) {α : Type} : Access α → Access α → Prop where
  | ok {v : α} {t t' : State} : KeysApart k₀ k t t' → Alike k₀ k (.ok v t) (.ok v t')
  | busError {t t' : State} : KeysApart k₀ k t t' → Alike k₀ k (.busError t) (.busError t')
  | noAnswer {t t' : State} : KeysApart k₀ k t t' → Alike k₀ k (.noAnswer t) (.noAnswer t')

section
variable {k₀ k : KeyRegs} {s s' : State}

theorem alike_bind {α β : Type} {x x' : Access α} {f f' : α → State → Access β} (hx : x.Alike k₀ k x')
    (hf : ∀ v t t', KeysApart k₀ k t t' → (f v t).Alike k₀ k (f' v t')) : (x.bind f).Alike k₀ k (x'.bind f') := by
  cases hx with
  | ok h => exact hf _ _ _ h
  | busError h => exact .busError h
  | noAnswer h => exact .noAnswer h

theorem alike_ite {α : Type} {c : Prop} [Decidable c] {x x' y y' : Access α} (hx : x.Alike k₀ k x')
    (hy : y.Alike k₀ k y') : (if c then x else y).Alike k₀ k (if c then x' else y') := by
  split
  · exact hx
  · exact hy

/-- A change of a state that neither reads nor writes the key registers keeps two states alike. -/
theorem KeysApart.map (h : KeysApart k₀ k s s') (g : State → State) (hkeys : (g s).keys = s.keys)
    (hg : ∀ k', g { s with keys := k' } = { g s with keys := k' }) : KeysApart k₀ k (g s) (g s') := by
  obtain ⟨k', rfl, hk⟩ := h
  exact ⟨k', hg k', hkeys ▸ hk⟩

theorem completion_alike (h : KeysApart k₀ k s s') (code : ResultCode) (n : Nat) :
    KeysApart k₀ k (completion s code n) (completion s' code n) := by
  obtain ⟨k', rfl, -⟩ := h
  exact ⟨zeroKeys, rfl, .inr ⟨rfl, rfl⟩⟩

theorem scrambleRegion_alike (h : KeysApart k₀ k s s') (a n : Nat) :
    KeysApart k₀ k (scrambleRegion s a n) (scrambleRegion s' a n) :=
  h.map (scrambleRegion · a n) rfl fun _ => rfl

theorem complete_alike (h : KeysApart k₀ k s s') (n : Nat) : KeysApart k₀ k (complete s n) (complete s' n) := by
  obtain ⟨k', rfl, hk⟩ := h
  have hfree : outputFree { s with keys := k' } = outputFree s := rfl
  simp only [complete, hfree]
  split
  · exact completion_alike (scrambleRegion_alike ⟨k', rfl, hk⟩ _ _) _ _
  · exact completion_alike ⟨k', rfl, hk⟩ _ _

theorem settle_alike {x x' : Access Unit} (h : x.Alike k₀ k x') : KeysApart k₀ k (settle x) (settle x') := by
  cases h with
  | ok h => exact h
  | busError h =>
    obtain ⟨k', rfl, hk⟩ := h
    exact completion_alike (scrambleRegion_alike ⟨k', rfl, hk⟩ _ _) _ _
  | noAnswer h => exact h.map (fun s => { s with busHung := true }) rfl fun _ => rfl

theorem dmaReadByte_alike (h : KeysApart k₀ k s s') (a : Nat) : (dmaReadByte s a).Alike k₀ k (dmaReadByte s' a) := by
  obtain ⟨k', rfl, hk⟩ := h
  have hread : readsFree { s with keys := k' } a = readsFree s a := rfl
  have hvalue : dmaValue { s with keys := k' } a = dmaValue s a := rfl
  simp only [dmaReadByte, hread, hvalue]
  split
  · split
    · exact .ok ⟨k', rfl, hk⟩
    · exact .ok ⟨k', rfl, hk⟩
  · exact .busError ⟨k', rfl, hk⟩
  · exact .noAnswer ⟨k', rfl, hk⟩

theorem dmaRead_alike (h : KeysApart k₀ k s s') (a n : Nat) : (dmaRead s a n).Alike k₀ k (dmaRead s' a n) := by
  induction n generalizing s s' a with
  | zero => exact .ok h
  | succ n ih =>
    exact alike_bind (dmaReadByte_alike h a) fun _ _ _ ht => alike_bind (ih ht _) fun _ _ _ hu => .ok hu

theorem dmaWriteByte_alike (h : KeysApart k₀ k s s') (a : Nat) (b : Byte) :
    (dmaWriteByte s a b).Alike k₀ k (dmaWriteByte s' a b) := by
  obtain ⟨k', rfl, hk⟩ := h
  simp only [dmaWriteByte]
  split
  · exact .ok ⟨k', rfl, hk⟩
  · exact .busError ⟨k', rfl, hk⟩
  · exact .noAnswer ⟨k', rfl, hk⟩

theorem dmaWrite_alike (h : KeysApart k₀ k s s') (a : Nat) (bs : List Byte) :
    (dmaWrite s a bs).Alike k₀ k (dmaWrite s' a bs) := by
  induction bs generalizing s s' a with
  | nil => exact .ok h
  | cons b bs ih => exact alike_bind (dmaWriteByte_alike h a b) fun _ _ _ ht => ih ht _

/-! ### The units of RUN and PRECHECK -/

theorem prependIv_alike (h : KeysApart k₀ k s s') : (prependIv s).Alike k₀ k (prependIv s') := by
  obtain ⟨k', rfl, hk⟩ := h
  exact alike_bind (dmaWrite_alike ⟨k', rfl, hk⟩ _ _) fun _ _ _ ht =>
    .ok (ht.map (fun t => { t with chain := t.ivb, pos := 0, ivMoved := true }) rfl fun _ => rfl)

theorem splitIv_alike (h : KeysApart k₀ k s s') : (splitIv s).Alike k₀ k (splitIv s') := by
  obtain ⟨k', rfl, hk⟩ := h
  exact alike_bind (dmaRead_alike ⟨k', rfl, hk⟩ _ _) fun iv _ _ ht =>
    .ok (ht.map (fun t => { t with chain := blockOfBytes iv, pos := 16, ivMoved := true }) rfl fun _ => rfl)

theorem copyByte_alike (h : KeysApart k₀ k s s') : (copyByte s).Alike k₀ k (copyByte s') := by
  obtain ⟨k', rfl, hk⟩ := h
  refine alike_bind (dmaRead_alike ⟨k', rfl, hk⟩ _ _) ?_
  rintro b t _ ⟨k', rfl, ht⟩
  exact alike_bind (dmaWrite_alike ⟨k', rfl, ht⟩ _ _) fun _ _ _ hu => .ok (hu.map (advance · 1) rfl fun _ => rfl)

theorem encCfbSegment_alike (E : Block → Block) (h : KeysApart k₀ k s s') :
    (encCfbSegment E s).Alike k₀ k (encCfbSegment E s') := by
  obtain ⟨k', rfl, hk⟩ := h
  refine alike_bind (dmaRead_alike ⟨k', rfl, hk⟩ _ _) ?_
  rintro x t _ ⟨k', rfl, ht⟩
  exact alike_bind (dmaWrite_alike (s := { t with blk := patchBlock t.blk x }) ⟨k', rfl, ht⟩ _ _) fun _ _ _ hu =>
    .ok (hu.map (fun u => advance { u with chain := cfbFeedback Config.cfbSeg u.chain _ } x.length) rfl fun _ => rfl)

theorem decCfbSegment_alike (E : Block → Block) (h : KeysApart k₀ k s s') :
    (decCfbSegment E s).Alike k₀ k (decCfbSegment E s') := by
  obtain ⟨k', rfl, hk⟩ := h
  refine alike_bind (dmaRead_alike ⟨k', rfl, hk⟩ _ _) ?_
  rintro x t _ ⟨k', rfl, ht⟩
  exact alike_bind (dmaWrite_alike (s := 
    { t with blk := patchBlock t.blk x, chain := cfbFeedback Config.cfbSeg t.chain x }) ⟨k', rfl, ht⟩ _ _) fun _ _ _ hu =>
    .ok (hu.map (advance · x.length) rfl fun _ => rfl)

theorem encCbcBlock_alike (E : Block → Block) (h : KeysApart k₀ k s s') :
    (encCbcBlock E s).Alike k₀ k (encCbcBlock E s') := by
  obtain ⟨k', rfl, hk⟩ := h
  refine alike_bind (dmaRead_alike ⟨k', rfl, hk⟩ _ _) ?_
  rintro x t _ ⟨k', rfl, ht⟩
  exact alike_bind (dmaWrite_alike (s := { t with
    blk := if t.posn + 16 < 16 * (t.len / 16 + 1) then blockOfBytes x
      else blockOfBytes (x ++ padBytes (padLen 16 t.len)) }) ⟨k', rfl, ht⟩ _ _) fun _ _ _ hu =>
    .ok (hu.map (fun u => advance { u with chain := _ } 16) rfl fun _ => rfl)

theorem decCbcBlock_alike (D : Block → Block) (h : KeysApart k₀ k s s') :
    (decCbcBlock D s).Alike k₀ k (decCbcBlock D s') := by
  obtain ⟨k', rfl, hk⟩ := h
  refine alike_bind (dmaRead_alike ⟨k', rfl, hk⟩ _ _) ?_
  rintro x t _ ⟨k', rfl, ht⟩
  exact alike_bind (dmaWrite_alike (s := 
    { t with blk := blockOfBytes x, chain := blockOfBytes x }) ⟨k', rfl, ht⟩ _ _)
    fun _ _ _ hu => .ok (hu.map (advance · 16) rfl fun _ => rfl)

theorem padRun_alike (bs : Nat) (h : KeysApart k₀ k s s') : (padRun bs s).Alike k₀ k (padRun bs s') := by
  have hcopy := copyByte_alike h
  obtain ⟨k', rfl, hk⟩ := h
  exact alike_ite hcopy <| alike_bind (dmaWrite_alike ⟨k', rfl, hk⟩ _ _) fun _ _ _ ht => .ok (complete_alike ht _)

theorem unpadRun_alike (h : KeysApart k₀ k s s') : (unpadRun s).Alike k₀ k (unpadRun s') := by
  have hcopy := copyByte_alike h
  obtain ⟨k', rfl, hk⟩ := h
  exact alike_ite hcopy (.ok (complete_alike ⟨k', rfl, hk⟩ _))

/-- RUN of the four cipher commands: the IV, then the units, then the completion. -/
theorem ivThenUnits_alike {c d : Prop} [Decidable c] [Decidable d] {iv iv' unit unit' : Access Unit}
    (h : KeysApart k₀ k s s') (hiv : iv.Alike k₀ k iv') (hunit : unit.Alike k₀ k unit') (n : Nat) :
    (if c then iv else if d then unit else .ok () (complete s n)).Alike k₀ k
      (if c then iv' else if d then unit' else .ok () (complete s' n)) :=
  alike_ite hiv (alike_ite hunit (.ok (complete_alike h n)))

theorem encCfbRun_alike (E : Block → Block) (h : KeysApart k₀ k s s') : (encCfbRun E s).Alike k₀ k (encCfbRun E s') := by
  have hiv := prependIv_alike h
  have hunit := encCfbSegment_alike E h
  obtain ⟨k', rfl, hk⟩ := h
  exact ivThenUnits_alike ⟨k', rfl, hk⟩ hiv hunit _

theorem decCfbRun_alike (E : Block → Block) (h : KeysApart k₀ k s s') : (decCfbRun E s).Alike k₀ k (decCfbRun E s') := by
  have hiv := splitIv_alike h
  have hunit := decCfbSegment_alike E h
  obtain ⟨k', rfl, hk⟩ := h
  exact ivThenUnits_alike ⟨k', rfl, hk⟩ hiv hunit _

theorem encCbcRun_alike (E : Block → Block) (h : KeysApart k₀ k s s') : (encCbcRun E s).Alike k₀ k (encCbcRun E s') := by
  have hiv := prependIv_alike h
  have hunit := encCbcBlock_alike E h
  obtain ⟨k', rfl, hk⟩ := h
  exact ivThenUnits_alike ⟨k', rfl, hk⟩ hiv hunit _

theorem decCbcRun_alike (D : Block → Block) (h : KeysApart k₀ k s s') : (decCbcRun D s).Alike k₀ k (decCbcRun D s') := by
  have hiv := splitIv_alike h
  have hunit := decCbcBlock_alike D h
  obtain ⟨k', rfl, hk⟩ := h
  exact ivThenUnits_alike ⟨k', rfl, hk⟩ hiv hunit _

theorem decCbcPrecheck_alike (D : Block → Block) (h : KeysApart k₀ k s s') :
    (decCbcPrecheck D s).Alike k₀ k (decCbcPrecheck D s') := by
  obtain ⟨k', rfl, hk⟩ := h
  refine alike_ite (.ok (completion_alike ⟨k', rfl, hk⟩ _ _)) (alike_bind (dmaRead_alike ⟨k', rfl, hk⟩ _ _) ?_)
  rintro prev t _ ⟨k', rfl, ht⟩
  refine alike_bind (dmaRead_alike ⟨k', rfl, ht⟩ _ _) fun last u u' hu => ?_
  exact alike_ite (.ok (hu.map (fun u => { u with padv := _, phase := .run }) rfl fun _ => rfl))
    (.ok (completion_alike (hu.map (fun u => { u with padv := _ }) rfl fun _ => rfl) _ _))

theorem unpadPrecheck_alike (bs : Nat) (h : KeysApart k₀ k s s') :
    (unpadPrecheck bs s).Alike k₀ k (unpadPrecheck bs s') := by
  obtain ⟨k', rfl, hk⟩ := h
  refine alike_ite (.ok (completion_alike ⟨k', rfl, hk⟩ _ _)) (alike_bind (dmaRead_alike ⟨k', rfl, hk⟩ _ _) ?_)
  rintro last t _ ⟨k', rfl, ht⟩
  have htaken : KeysApart k₀ k { t with padv := last.headD 0 } { t with padv := last.headD 0, keys := k' } :=
    ⟨k', rfl, ht⟩
  refine alike_ite (.ok (completion_alike htaken _ _)) (alike_bind (dmaRead_alike htaken _ _) fun tail u u' hu => ?_)
  exact alike_ite (.ok (hu.map (fun u => { u with phase := .run }) rfl fun _ => rfl)) (.ok (completion_alike hu _ _))

/-! ### A step of the engine -/

theorem check_alike (i : Instr) (h : KeysApart k₀ k s s') : KeysApart k₀ k (check i s) (check i s') := by
  obtain ⟨k', rfl, hk⟩ := h
  have hcheck : checkError i { s with keys := k' } = checkError i s := rfl
  simp only [check, hcheck]
  split
  · exact completion_alike ⟨k', rfl, hk⟩ _ _
  · exact ⟨k', rfl, hk⟩

theorem awaitRandom_alike (h : KeysApart k₀ k s s') : KeysApart k₀ k (awaitRandom s) (awaitRandom s') := by
  obtain ⟨k', rfl, hk⟩ := h
  simp only [awaitRandom]
  split
  · exact ⟨k', rfl, hk⟩
  · exact ⟨k', rfl, hk⟩
  · exact completion_alike ⟨k', rfl, hk⟩ _ _

/-- The transforms of a command depend on the key bytes below KEY_LEN alone (R55). -/
theorem exec_alike (i : Instr) (hkey : s'.key = s.key) (h : KeysApart k₀ k s s') :
    ∃ t t', exec i s = .next t ∧ exec i s' = .next t' ∧ KeysApart k₀ k t t' := by
  have hphase : s'.phase = s.phase := by
    obtain ⟨k', rfl, -⟩ := h
    rfl
  have hcheck := check_alike i h
  have hrandom := awaitRandom_alike h
  cases i with
  | encCfb =>
    refine ⟨_, _, rfl, rfl, ?_⟩
    simp only [encCfbStep, hphase, hkey]
    split
    · exact h
    · exact hcheck
    · exact hrandom
    · exact h
    · exact settle_alike (encCfbRun_alike _ h)
  | decCfb =>
    refine ⟨_, _, rfl, rfl, ?_⟩
    simp only [decCfbStep, hphase, hkey]
    split
    · exact h
    · exact hcheck
    · exact h
    · exact h
    · exact settle_alike (decCfbRun_alike _ h)
  | encCbc =>
    refine ⟨_, _, rfl, rfl, ?_⟩
    simp only [encCbcStep, hphase, hkey]
    split
    · exact h
    · exact hcheck
    · exact hrandom
    · exact h
    · exact settle_alike (encCbcRun_alike _ h)
  | decCbc =>
    refine ⟨_, _, rfl, rfl, ?_⟩
    simp only [decCbcStep, hphase, hkey]
    split
    · exact h
    · exact hcheck
    · exact h
    · exact settle_alike (decCbcPrecheck_alike _ h)
    · exact settle_alike (decCbcRun_alike _ h)
  | pad bs =>
    refine ⟨_, _, rfl, rfl, ?_⟩
    simp only [padStep, hphase]
    split
    · exact h
    · exact hcheck
    · exact h
    · exact h
    · exact settle_alike (padRun_alike _ h)
  | unpad bs =>
    refine ⟨_, _, rfl, rfl, ?_⟩
    simp only [unpadStep, hphase]
    split
    · exact h
    · exact hcheck
    · exact h
    · exact settle_alike (unpadPrecheck_alike _ h)
    · exact settle_alike (unpadRun_alike h)

end

/-- Settles O58: the two runs stay alike, and neither reads a key register except through the key in use. -/
theorem unusedKeyBytesAreIgnored : Obligations.UnusedKeyBytesAreIgnored := by
  intro i s t k hk h
  have hapart : KeysApart s.keys k s { s with keys := k } := ⟨k, rfl, .inl ⟨rfl, rfl⟩⟩
  have hkey : ({ s with keys := k } : State).key = s.key := hk
  obtain ⟨t', u, hs, hu, k', rfl, hends⟩ := exec_alike i hkey hapart
  obtain rfl : t' = t := Host.Outcome.next.inj (hs.symm.trans h)
  exact ⟨k', hu, hends⟩

end Sys2Proof.Machine
end

section
/-!
SUPPORT. RUN of a command over good buffers, to its end: what is still to be written, where, and in how many units; one unit of
it; and the induction over the units that are left (R69, R174, R177, R204, R207, R233, R236).
-/

namespace Sys2Proof.Machine

/-! ### Bytes stored in pieces -/

theorem storedAt_nil {s t : State} (a : Nat) (h : t.mem = s.mem) : StoredAt s t a [] := ⟨rfl, fun c _ => by rw [h]⟩

theorem StoredAt.append {s u t : State} {a b : Nat} {y z : List Byte} (hy : StoredAt s u a y) (hz : StoredAt u t b z)
    (hb : b = a + y.length ∨ z = []) : StoredAt s t a (y ++ z) := by
  obtain ⟨hread, hframe⟩ := hy
  obtain ⟨hread', hframe'⟩ := hz
  have hkept (c : Nat) (hc : c < a + y.length ∨ a + y.length + z.length ≤ c) : t.mem.read c = u.mem.read c := by
    rcases hb with rfl | rfl
    · exact hframe' c (by omega)
    · exact hframe' c (by rw [List.length_nil]; omega)
  refine ⟨?_, fun c hc => ?_⟩
  · rw [List.length_append, Memory.readRange_append, Memory.readRange_congr _ u.mem _ _ fun c _ h => hkept c (.inl h), hread]
    rcases hb with rfl | rfl
    · rw [hread']
    · rfl
  · rw [List.length_append] at hc
    rw [hkept c (by omega), hframe c (by omega)]

/-! ### Runs that end with OK -/

/-- A step of the machine that stores bytes and leaves all that a completion leaves. -/
structure Advances (s u : State) (a : Nat) (y : List Byte) : Prop where
  moves : step s = .next u
  ends : ∀ m n, completion { u with mem := m } .ok n = completion { s with mem := m } .ok n
  stored : StoredAt s u a y

/-- `k` steps end the command with OK and length `n`, having stored bytes at an address and nowhere else. -/
def Finishes (k : Nat) (s : State) (a : Nat) (out : List Byte) (n : Nat) : Prop :=
  ∃ t, Host.Core.run Sys2Proof.core k s = .next t ∧ t = completion { s with mem := t.mem } .ok n ∧ StoredAt s t a out

theorem finishes_last {s u : State} {a n : Nat} {out : List Byte} (h : step s = .next (completion u .ok n))
    (hu : u = { s with mem := u.mem }) (hout : StoredAt s u a out) : Finishes 1 s a out n := by
  refine ⟨completion u .ok n, core_run_succ h 0, ?_, hout⟩
  rw [hu]
  rfl

theorem Finishes.cons {s u : State} {k a b n : Nat} {y z : List Byte} (hs : Advances s u a y) (hu : Finishes k u b z n)
    (hb : b = a + y.length ∨ z = []) : Finishes (k + 1) s a (y ++ z) n := by
  obtain ⟨t, hrun, hend, hout⟩ := hu
  exact ⟨t, (core_run_succ hs.moves k).trans hrun, hend.trans (hs.ends _ _), hs.stored.append hout hb⟩

/-- A step that stores nothing. -/
theorem Finishes.quiet {s u : State} {k a n : Nat} {out : List Byte} (hs : Advances s u a []) (hu : Finishes k u a out n) :
    Finishes (k + 1) s a out n := hu.cons hs (.inl rfl)

/-- The whole of a command, from the run that ends it. -/
theorem Finishes.completedOk {s : State} {k n : Nat} {out : List Byte} (h : Finishes k s s.dst out n)
    (hlen : out.length = n) (hn : n < 4294967296) :
    ∃ t, Host.Core.run Sys2Proof.core k s = .next t ∧ CompletedOk s t out := by
  obtain ⟨t, hrun, hend, hout⟩ := h
  subst hlen
  refine ⟨t, hrun, hend, ?_, hout⟩
  rw [hend]
  exact (BitVec.toNat_ofNat _ _).trans (Nat.mod_eq_of_lt hn)

/-! ### What is left of a command in RUN -/

/-- The source from POS on. -/
def sourceLeft (s : State) : List Byte := s.mem.readRange (s.src + s.posn) (s.len - s.posn)

@[simp] theorem length_sourceLeft (s : State) : (sourceLeft s).length = s.len - s.posn := Memory.length_readRange _ _ _

theorem sourceLeft_eq_nil {s : State} (h : s.len ≤ s.posn) : sourceLeft s = [] :=
  List.length_eq_zero_iff.1 (by rw [length_sourceLeft]; omega)

/-- Where the next output byte goes. -/
def outAt (i : Instr) (s : State) : Nat :=
  match i with
  | .encCfb => s.dst + 16 + s.posn
  | .encCbc => s.dst + 16 + s.posn
  | .decCfb => s.dst + s.posn - 16
  | .decCbc => s.dst + s.posn - 16
  | .pad _ => s.dst + s.posn
  | .unpad _ => s.dst + s.posn

/-- The output from POS on, in terms of the source from POS on and the chaining register (R172, R201, R202, R230). -/
def outLeft (i : Instr) (s : State) : List Byte :=
  match i with
  | .encCfb => cfbEnc (Config.E s.key) s.chain (sourceLeft s)
  | .decCfb => cfbDec (Config.E s.key) s.chain (sourceLeft s)
  | .encCbc =>
    if s.posn ≤ s.len then cbcEnc (Config.E s.key) s.chain (sourceLeft s ++ padBytes (padLen 16 s.len)) else []
  | .decCbc => (cbcDec (Config.D s.key) s.chain (sourceLeft s)).take (decCbcOutLen s - (s.posn - 16))
  | .pad bs => sourceLeft s ++ padBytes (padLen bs.toNat s.len)
  | .unpad _ => s.mem.readRange (s.src + s.posn) (s.len - s.padv.toNat - s.posn)

/-- The output length of the whole command. -/
def outTotal (i : Instr) (s : State) : Nat :=
  match i with
  | .encCfb => 16 + s.len
  | .decCfb => s.len - 16
  | .encCbc => 16 + 16 * (s.len / 16 + 1)
  | .decCbc => decCbcOutLen s
  | .pad bs => s.len + padLen bs.toNat s.len
  | .unpad _ => s.len - s.padv.toNat

/-- The number of units of data left: 16 bytes each, or single bytes in PAD and UNPAD. -/
def unitsLeft (i : Instr) (s : State) : Nat :=
  if usesKey i then (workEnd i s - s.posn + 15) / 16 else workEnd i s - s.posn

theorem unitsLeft_eq_zero_iff (i : Instr) (s : State) : unitsLeft i s = 0 ↔ workEnd i s ≤ s.posn := by
  unfold unitsLeft
  split <;> omega

/-- A unit is one less to do. -/
theorem unitsLeft_advance {i : Instr} {s : State} (hmore : s.posn < workEnd i s) :
    unitsLeft i (advance s (unitSize i s)) + 1 = unitsLeft i s := by
  have hpos := posn_advance_unit hmore
  have hend : workEnd i (advance s (unitSize i s)) = workEnd i s := by cases i <;> rfl
  rw [unitsLeft, unitsLeft, hpos, hend]
  cases i with
  | encCfb | decCfb =>
    simp only [usesKey, if_true, workEnd, unitSize, unitTake] at hmore ⊢
    omega
  | encCbc | decCbc =>
    simp only [usesKey, if_true, workEnd, unitSize] at hmore ⊢
    omega
  | pad bs | unpad bs =>
    simp only [usesKey, Bool.false_eq_true, if_false, workEnd, unitSize] at hmore ⊢
    omega

/-! ### One unit of data -/

/-- The bytes that the next unit of data writes. -/
def unitOut (i : Instr) (s : State) : List Byte :=
  match i with
  | .encCfb => cfbCombine (Config.E s.key) s.chain (nextBytes s)
  | .decCfb => cfbCombine (Config.E s.key) s.chain (nextBytes s)
  | .encCbc => (Config.E s.key (xorBlock (encCbcPlain s) s.chain)).1
  | .decCbc => decCbcOut (Config.D s.key) s
  | .pad _ => s.mem.readRange (s.src + s.posn) 1
  | .unpad _ => s.mem.readRange (s.src + s.posn) 1

/-- The state after the next unit of data. -/
def afterUnit (i : Instr) (s : State) : State :=
  match i with
  | .encCfb => afterEncCfbSegment (Config.E s.key) s
  | .decCfb => afterDecCfbSegment (Config.E s.key) s
  | .encCbc => afterEncCbcBlock (Config.E s.key) s
  | .decCbc => afterDecCbcBlock (Config.D s.key) s
  | .pad _ => afterCopyByte s
  | .unpad _ => afterCopyByte s

/-- Of all registers a unit of data moves POS, BLK and the chaining register. -/
theorem afterUnit_frame (i : Instr) (s : State) :
    ∃ b c, afterUnit i s =
      advance { s with mem := s.mem.writeRange (outAt i s) (unitOut i s), blk := b, chain := c } (unitSize i s) := by
  cases i <;> exact ⟨_, _, rfl⟩

theorem length_unitOut_le (i : Instr) (s : State) : (unitOut i s).length ≤ unitSize i s := by
  cases i with
  | encCfb | decCfb => exact (length_cfbCombine_nextBytes _ s).le
  | encCbc => exact (length_block _).le
  | decCbc =>
    rw [unitOut, length_decCbcOut]
    exact Nat.min_le_left _ _
  | pad bs | unpad bs => exact (Memory.length_readRange _ _ _).le

/-- A command in RUN over good buffers, with POS in its place. -/
structure State.Working (s : State) (i : Instr) : Prop where
  running : s.Running i
  good : s.GoodBuffers i
  place : RunPlace i s

theorem State.Working.step_eq {s : State} {i : Instr} (h : s.Working i) : step s = exec i s := by
  obtain ⟨hfree, hp, hd, -⟩ := h.running
  rw [step_nil s hfree.events, engineStep_cmd s i (hfree.engineReady (by simp [hp])) hd]

theorem State.GoodBuffers.dest {s : State} {i : Instr} (h : s.GoodBuffers i) :
    servedRange s.platform s.dst (outmaxOf i s.len) := servedRange_of_region h.dst_served

/-- Memory, BLK, the chaining register, POS and the IV mark are no part of what makes a state of RUN a good one. -/
theorem State.Working.transfer {s : State} {i : Instr} (h : s.Working i) (m : Memory) (b c : Block) {p : BitVec 33} {iv : Bool}
    (hplace : RunPlace i { s with pos := p, ivMoved := iv }) :
    { s with mem := m, blk := b, chain := c, pos := p, ivMoved := iv }.Working i := by
  obtain ⟨⟨⟨hevents, hreset, hhung⟩, hp, hpast⟩, ⟨hsrc, hdst, hsrcp, hdstp, hraced⟩, -⟩ := h
  refine ⟨⟨⟨hevents, hreset, hhung⟩, hp, hpast⟩, ⟨hsrc, hdst, hsrcp, hdstp, hraced⟩, ?_⟩
  cases i <;> exact hplace

/-- The output of a command in RUN is not open. -/
theorem State.Working.outputFree {s : State} {i : Instr} (h : s.Working i) : outputFree s = false := by
  have hmax := h.running.past.2.2
  have hdst := h.good.dst_plain
  rw [State.dstr, ← hmax] at hdst
  rw [Machine.outputFree, h.good.unraced, show meetsRegions _ s.srcr = false from h.good.src_plain,
    show meetsRegions _ ⟨s.dst, s.outmax.toNat⟩ = false from hdst]
  rfl

/-- The overlap that CHECK allows (R67). -/
theorem State.Working.overlap {s : State} {i : Instr} (h : s.Working i) :
    ((i = .encCfb ∨ i = .encCbc) → s.len = 0 ∨ s.dst + 16 ≤ s.src ∨ s.dst ≥ s.src + s.len) ∧
      ((i = .decCfb ∨ i = .decCbc) → s.dst ≤ s.src + 16 ∨ s.dst ≥ s.src + s.len) ∧
      (¬(i = .encCfb ∨ i = .encCbc ∨ i = .decCfb ∨ i = .decCbc) → s.dst ≤ s.src ∨ s.dst ≥ s.src + s.len) :=
  (overlapOk_iff _ _ _ _).1 ((checkError_eq_none i s).1 h.running.past.2.1).2.2.2.2

section
variable {i : Instr} {s : State}

/-- Every access of a unit of data is served. -/
theorem State.Working.runUnit_data (h : s.Working i) (hiv : usesKey i = true → s.ivMoved = true)
    (hmore : s.posn < workEnd i s) : runUnit i s = .ok () (afterUnit i s) := by
  obtain ⟨hsrc, hplain⟩ := h.good.source
  have hdst := h.good.dest
  have hraced := h.good.unraced
  have hplace := h.place
  have htake : unitTake s ≤ s.len - s.posn := Nat.min_le_right _ _
  cases i with
  | encCfb =>
    simp only [workEnd, outmaxOf] at hmore hdst
    exact (runUnit_encCfb_segment (hiv rfl) hmore).trans (encCfbSegment_served _ s
      (servedRange_mono hsrc (by omega) (by omega)) (plainRange_mono hplain (by omega) (by omega)) hraced
      (servedRange_mono hdst (by omega) (by omega)))
  | decCfb =>
    simp only [workEnd, outmaxOf, RunPlace, hiv rfl, if_true] at hmore hdst hplace
    exact (runUnit_decCfb_segment (hiv rfl) hmore).trans (decCfbSegment_served _ s
      (servedRange_mono hsrc (by omega) (by omega)) (plainRange_mono hplain (by omega) (by omega)) hraced
      (servedRange_mono hdst (by omega) (by omega)))
  | encCbc =>
    simp only [workEnd, outmaxOf, RunPlace] at hmore hdst hplace
    exact (runUnit_encCbc_block (hiv rfl) hmore).trans (encCbcBlock_served _ s
      (servedRange_mono hsrc (by omega) (by omega)) (plainRange_mono hplain (by omega) (by omega)) hraced
      (servedRange_mono hdst (by omega) (by omega)))
  | decCbc =>
    have hmod := ((checkError_eq_none _ s).1 h.running.past.2.1).2.2.1 rfl
    simp only [workEnd, outmaxOf, RunPlace, hiv rfl, if_true] at hmore hdst hplace
    exact (runUnit_decCbc_block (hiv rfl) hmore).trans (decCbcBlock_served _ s
      (servedRange_mono hsrc (by omega) (by omega)) (plainRange_mono hplain (by omega) (by omega)) hraced
      (servedRange_mono hdst (by omega) (by omega)))
  | pad bs =>
    simp only [workEnd, outmaxOf] at hmore hdst
    exact (runUnit_copyByte (.inl ⟨rfl, hmore⟩)).trans (copyByte_served s
      (servedRange_mono hsrc (by omega) (by omega)) (plainRange_mono hplain (by omega) (by omega)) hraced
      (servedRange_mono hdst (by omega) (by omega)))
  | unpad bs =>
    simp only [workEnd, outmaxOf] at hmore hdst
    exact (runUnit_copyByte (.inr ⟨rfl, hmore⟩)).trans (copyByte_served s
      (servedRange_mono hsrc (by omega) (by omega)) (plainRange_mono hplain (by omega) (by omega)) hraced
      (servedRange_mono hdst (by omega) (by omega)))

/-- It writes inside DSTR. -/
theorem State.Working.unitOut_inside (h : s.Working i) (hiv : usesKey i = true → s.ivMoved = true)
    (hmore : s.posn < workEnd i s) : servedRange s.platform (outAt i s) (unitOut i s).length := by
  have hdst := h.good.dest
  have hplace := h.place
  have htake : unitTake s ≤ s.len - s.posn := Nat.min_le_right _ _
  have hlen := length_unitOut_le i s
  cases i with
  | encCfb | encCbc | pad bs | unpad bs =>
    simp only [workEnd, outmaxOf, RunPlace, outAt, unitSize] at hmore hdst hplace hlen ⊢
    exact servedRange_mono hdst (by omega) (by omega)
  | decCfb =>
    simp only [workEnd, outmaxOf, RunPlace, hiv rfl, if_true, outAt, unitSize] at hmore hdst hplace hlen ⊢
    exact servedRange_mono hdst (by omega) (by omega)
  | decCbc =>
    have hmod := ((checkError_eq_none _ s).1 h.running.past.2.1).2.2.1 rfl
    simp only [workEnd, outmaxOf, RunPlace, hiv rfl, if_true, outAt, unitSize] at hmore hdst hplace hlen ⊢
    exact servedRange_mono hdst (by omega) (by omega)

/-- A unit of data leaves the source that is still to come as it was: the overlap that R67 allows is behind it. -/
theorem State.Working.source_kept (h : s.Working i) (hiv : usesKey i = true → s.ivMoved = true) {a n : Nat}
    (hlo : s.src + (s.posn + unitSize i s) ≤ a) (hhi : a + n ≤ s.src + s.len) :
    (afterUnit i s).mem.readRange a n = s.mem.readRange a n := by
  have hdisjoint : a + n ≤ outAt i s ∨ outAt i s + (unitOut i s).length ≤ a := by
    obtain ⟨henc, hdec, hpad⟩ := h.overlap
    have hplace := h.place
    have hlen := length_unitOut_le i s
    cases i with
    | encCfb =>
      have := henc (.inl rfl)
      simp only [outAt] at hlen ⊢
      omega
    | encCbc =>
      have := henc (.inr rfl)
      simp only [outAt, unitSize] at hlen hlo ⊢
      omega
    | decCfb =>
      have := hdec (.inl rfl)
      simp only [outAt, RunPlace, hiv rfl, if_true] at hplace ⊢
      omega
    | decCbc =>
      have := hdec (.inr rfl)
      simp only [outAt, RunPlace, hiv rfl, if_true] at hplace ⊢
      omega
    | pad bs | unpad bs =>
      have := hpad (by simp)
      simp only [outAt] at hlen ⊢
      omega
  obtain ⟨b, c, hframe⟩ := afterUnit_frame i s
  rw [hframe]
  exact Memory.readRange_writeRange_disjoint _ _ _ _ _ hdisjoint

theorem afterUnit_posn (hmore : s.posn < workEnd i s) : (afterUnit i s).posn = s.posn + unitSize i s := by
  obtain ⟨b, c, hframe⟩ := afterUnit_frame i s
  rw [hframe]
  exact posn_advance_unit hmore

theorem afterUnit_operands (i : Instr) (s : State) :
    (afterUnit i s).src = s.src ∧ (afterUnit i s).dst = s.dst ∧ (afterUnit i s).len = s.len := by
  obtain ⟨b, c, hframe⟩ := afterUnit_frame i s
  rw [hframe]
  exact ⟨rfl, rfl, rfl⟩

/-- The source that is left splits at a unit that lies inside it. -/
theorem State.Working.sourceLeft_unit (h : s.Working i) (hiv : usesKey i = true → s.ivMoved = true)
    (hmore : s.posn < workEnd i s) (hin : s.posn + unitSize i s ≤ s.len) :
    sourceLeft s = s.mem.readRange (s.src + s.posn) (unitSize i s) ++ sourceLeft (afterUnit i s) := by
  obtain ⟨hsrc, -, hlen⟩ := afterUnit_operands i s
  rw [sourceLeft, sourceLeft, afterUnit_posn hmore, hsrc, hlen, h.source_kept hiv (Nat.le_refl _) (by omega),
    ← Nat.add_assoc, ← Memory.readRange_append]
  congr 1
  omega

/-- What a unit writes comes first in the output that is left (R172, R201, R202). -/
theorem State.Working.outLeft_unit (h : s.Working i) (hiv : usesKey i = true → s.ivMoved = true)
    (hmore : s.posn < workEnd i s) : outLeft i s = unitOut i s ++ outLeft i (afterUnit i s) := by
  have hpos := afterUnit_posn hmore
  obtain ⟨hsrc, -, hlen⟩ := afterUnit_operands i s
  have hleft := length_sourceLeft (afterUnit i s)
  rw [hpos, hlen] at hleft
  cases i with
  | encCfb =>
    simp only [workEnd] at hmore
    have hsplit := h.sourceLeft_unit hiv hmore (by simp only [unitSize, unitTake]; omega)
    show cfbEnc _ _ (sourceLeft s) = _
    rw [hsplit]
    exact cfb_segment _ .enc _ (nextBytes s) _ (List.length_pos_iff.1 (by simp [unitTake]; omega)) (by simp [unitTake])
      fun hpart => List.length_eq_zero_iff.1 (by simp only [length_nextBytes, unitTake, unitSize] at *; omega)
  | decCfb =>
    simp only [workEnd] at hmore
    have hsplit := h.sourceLeft_unit hiv hmore (by simp only [unitSize, unitTake]; omega)
    show cfbDec _ _ (sourceLeft s) = _
    rw [hsplit]
    exact cfb_segment _ .dec _ (nextBytes s) _ (List.length_pos_iff.1 (by simp [unitTake]; omega)) (by simp [unitTake])
      fun hpart => List.length_eq_zero_iff.1 (by simp only [length_nextBytes, unitTake, unitSize] at *; omega)
  | encCbc =>
    obtain ⟨-, hmod, -⟩ := h.place
    simp only [workEnd] at hmore
    show (if s.posn ≤ s.len then _ else _) = _
    rw [if_pos (by omega)]
    by_cases hfull : s.posn + 16 ≤ s.len
    · have htake : unitTake s = 16 := by rw [unitTake]; omega
      have hplain : encCbcPlain s = blockOfBytes (s.mem.readRange (s.src + s.posn) 16) := by
        rw [encCbcPlain, if_pos (by omega), nextBytes, htake]
      have hchain : (afterUnit .encCbc s).chain = Config.E s.key (xorBlock (encCbcPlain s) s.chain) := rfl
      have hkey : (afterUnit .encCbc s).key = s.key := rfl
      rw [h.sourceLeft_unit hiv hmore hfull, List.append_assoc, unitSize,
        cbcEnc_block _ _ _ _ (Memory.length_readRange _ _ _), outLeft, hlen, if_pos (hpos.trans_le hfull), unitOut,
        hchain, hkey, hplain]
    · have htake : unitTake s = s.len - s.posn := by rw [unitTake]; omega
      have hplain : encCbcPlain s = blockOfBytes (sourceLeft s ++ padBytes (padLen 16 s.len)) := by
        rw [encCbcPlain, if_neg (by omega), nextBytes, htake, sourceLeft]
      have hlast := cbcEnc_block (Config.E s.key) s.chain (sourceLeft s ++ padBytes (padLen 16 s.len)) []
        (by rw [List.length_append, length_sourceLeft, length_padBytes, padLen]; omega)
      rw [List.append_nil] at hlast
      rw [hlast, outLeft, hlen, if_neg (by rw [hpos]; exact hfull), unitOut, hplain]
      rfl
  | decCbc =>
    have hmod := ((checkError_eq_none _ s).1 h.running.past.2.1).2.2.1 rfl
    have hplace := h.place
    simp only [workEnd, RunPlace, hiv rfl, if_true] at hmore hplace
    show (cbcDec _ _ (sourceLeft s)).take _ = _
    rw [h.sourceLeft_unit hiv hmore (by simp only [unitSize]; omega), unitSize,
      cbcDec_block _ _ _ _ (Memory.length_readRange _ _ _), List.take_append, length_block, outLeft, hpos]
    congr 2
    exact (Nat.sub_sub _ _ _).trans (congrArg _ (by simp only [unitSize]; omega))
  | pad bs =>
    simp only [workEnd] at hmore
    show sourceLeft s ++ _ = _
    rw [h.sourceLeft_unit hiv hmore hmore, List.append_assoc]
    rfl
  | unpad bs =>
    simp only [workEnd] at hmore
    have hpadv : (afterUnit (.unpad bs) s).padv = s.padv := rfl
    rw [outLeft, outLeft, hpos, hsrc, hlen, hpadv, h.source_kept hiv (Nat.le_refl _) (by simp only [unitSize]; omega),
      ← Nat.add_assoc, unitOut, unitSize, ← Memory.readRange_append]
    congr 1
    omega

/-- The next unit writes where this one stopped, if it writes at all. -/
theorem State.Working.outAt_unit (h : s.Working i) (hiv : usesKey i = true → s.ivMoved = true)
    (hmore : s.posn < workEnd i s) :
    outAt i (afterUnit i s) = outAt i s + (unitOut i s).length ∨ outLeft i (afterUnit i s) = [] := by
  have hpos := afterUnit_posn hmore
  obtain ⟨-, hdst, -⟩ := afterUnit_operands i s
  have hplace := h.place
  cases i with
  | encCfb =>
    left
    rw [outAt, outAt, hpos, hdst, unitOut, length_cfbCombine_nextBytes, unitSize]
    omega
  | encCbc =>
    left
    rw [outAt, outAt, hpos, hdst, unitOut, length_block, unitSize]
    omega
  | decCfb =>
    left
    simp only [RunPlace, hiv rfl, if_true] at hplace
    rw [outAt, outAt, hpos, hdst, unitOut, length_cfbCombine_nextBytes, unitSize]
    omega
  | decCbc =>
    simp only [RunPlace, hiv rfl, if_true] at hplace
    by_cases hfull : 16 ≤ decCbcOutLen s - (s.posn - 16)
    · left
      rw [outAt, outAt, hpos, hdst, unitOut, length_decCbcOut, Nat.min_eq_left hfull, unitSize]
      omega
    · right
      have hout : decCbcOutLen (afterUnit .decCbc s) = decCbcOutLen s := rfl
      rw [outLeft, hpos, hout, unitSize, show decCbcOutLen s - (s.posn + 16 - 16) = 0 by omega, List.take_zero]
  | pad bs | unpad bs =>
    left
    rw [outAt, outAt, hpos, hdst, unitOut, Memory.length_readRange, unitSize]
    omega

theorem State.Working.advances_unit (h : s.Working i) (hiv : usesKey i = true → s.ivMoved = true)
    (hmore : s.posn < workEnd i s) : Advances s (afterUnit i s) (outAt i s) (unitOut i s) := by
  refine ⟨h.step_eq.trans (exec_run_of_ok h.running.phase (h.runUnit_data hiv hmore)), ?_, ?_⟩
  · obtain ⟨b, c, hframe⟩ := afterUnit_frame i s
    rw [hframe]
    exact fun _ _ => rfl
  · refine storedAt_of_served (h.unitOut_inside hiv hmore) ?_
    obtain ⟨b, c, hframe⟩ := afterUnit_frame i s
    rw [hframe]
    rfl

theorem State.Working.afterUnit (h : s.Working i) (hiv : usesKey i = true → s.ivMoved = true)
    (hmore : s.posn < workEnd i s) : (afterUnit i s).Working i := by
  obtain ⟨b, c, hframe⟩ := afterUnit_frame i s
  rw [hframe]
  refine h.transfer _ b c (p := s.pos + BitVec.ofNat 33 (unitSize i s)) (iv := s.ivMoved) ?_
  exact runPlace_data h.place h.running.past.2.1 hiv hmore

/-- The last step: the padding bytes of PAD, and the completion. -/
theorem State.Working.finishes_last (h : s.Working i) (hiv : usesKey i = true → s.ivMoved = true)
    (hend : workEnd i s ≤ s.posn) : Finishes 1 s (outAt i s) (outLeft i s) (outTotal i s) := by
  have hplace := h.place
  have hfree := h.outputFree
  have hquiet (hunit : runUnit i s = .ok () (complete s (outTotal i s))) (hnil : outLeft i s = []) :
      Finishes 1 s (outAt i s) (outLeft i s) (outTotal i s) := by
    rw [complete_plain _ _ hfree] at hunit
    rw [hnil]
    exact Machine.finishes_last (h.step_eq.trans (exec_run_of_ok h.running.phase hunit)) rfl (storedAt_nil _ rfl)
  cases i with
  | encCfb =>
    exact hquiet (runUnit_end (.inl ⟨rfl, hiv rfl, hend, rfl⟩)) (by rw [outLeft, sourceLeft_eq_nil hend]; rfl)
  | decCfb =>
    exact hquiet (runUnit_end (.inr (.inl ⟨rfl, hiv rfl, hend, rfl⟩))) (by rw [outLeft, sourceLeft_eq_nil hend]; rfl)
  | encCbc =>
    refine hquiet (runUnit_end (.inr (.inr (.inl ⟨rfl, hiv rfl, hend, rfl⟩)))) (if_neg ?_)
    simp only [workEnd] at hend
    omega
  | decCbc =>
    refine hquiet (runUnit_end (.inr (.inr (.inr (.inl ⟨rfl, hiv rfl, hend, rfl⟩))))) ?_
    rw [outLeft, sourceLeft_eq_nil hend]
    exact List.take_nil
  | unpad bs =>
    refine hquiet (runUnit_end (.inr (.inr (.inr (.inr ⟨bs, rfl, hend, rfl⟩))))) ?_
    simp only [workEnd] at hend
    rw [outLeft, show s.len - s.padv.toNat - s.posn = 0 by omega]
    rfl
  | pad bs =>
    have hpos : s.posn = s.len := Nat.le_antisymm hplace.1 hend
    have hserved : servedRange s.platform (s.dst + s.len) (padLen bs.toNat s.len) :=
      servedRange_mono h.good.dest (by omega) (by simp only [outmaxOf, padLen]; omega)
    have hunit := runUnit_pad_end (bs := bs) hend hserved
    rw [complete_plain _ _ (by exact hfree)] at hunit
    refine Machine.finishes_last (h.step_eq.trans (exec_run_of_ok h.running.phase hunit)) rfl ?_
    rw [outAt, outLeft, sourceLeft_eq_nil hend, List.nil_append, hpos]
    exact storedAt_of_served (by rw [length_padBytes]; exact hserved) rfl

end

/-- RUN past the IV, by induction on the units that are left. -/
theorem State.Working.finishes {i : Instr} {s : State} (h : s.Working i) (hiv : usesKey i = true → s.ivMoved = true) :
    Finishes (unitsLeft i s + 1) s (outAt i s) (outLeft i s) (outTotal i s) := by
  induction hn : unitsLeft i s generalizing s with
  | zero => exact h.finishes_last hiv ((unitsLeft_eq_zero_iff i s).1 hn)
  | succ n ih =>
    have hmore : s.posn < workEnd i s := by
      have := unitsLeft_eq_zero_iff i s
      omega
    obtain ⟨b, c, hframe⟩ := afterUnit_frame i s
    have hleft : unitsLeft i (Machine.afterUnit i s) = n := by
      have hone := unitsLeft_advance hmore
      have hsame : unitsLeft i (Machine.afterUnit i s) = unitsLeft i (advance s (unitSize i s)) := by
        rw [hframe]
        cases i <;> rfl
      omega
    have htotal : outTotal i (Machine.afterUnit i s) = outTotal i s := by
      rw [hframe]
      cases i <;> rfl
    have hmoved : (Machine.afterUnit i s).ivMoved = s.ivMoved := by
      rw [hframe]
      rfl
    rw [h.outLeft_unit hiv hmore, ← htotal]
    exact (ih (h.afterUnit hiv hmore) (hmoved ▸ hiv) hleft).cons (h.advances_unit hiv hmore) (h.outAt_unit hiv hmore)

end Sys2Proof.Machine
end

section
/-!
SUPPORT. The six commands as a whole: CHECK, PRECHECK and the IV access before the units of data, with the statements that
rest on them (R130, R133, R134, R173, R176, R203, R205, R233, R234).
-/

namespace Sys2Proof.Machine

/-! ### The IV access -/

/-- The state after the IV of an encrypt command is written. -/
def afterPrependIv (s : State) : State :=
  { s with mem := s.mem.writeRange s.dst s.ivb.1, chain := s.ivb, pos := 0, ivMoved := true }

/-- The state after the IV of a decrypt command is read. -/
def afterSplitIv (s : State) : State :=
  { s with chain := blockOfBytes (s.mem.readRange s.src 16), pos := 16, ivMoved := true }

/-- An encrypt command from the drawn IV on: the IV, and then what RUN writes. -/
theorem State.Working.finishes_encrypt {i : Instr} {s : State} (h : s.Working i) (hi : i = .encCfb ∨ i = .encCbc)
    (hiv : s.ivMoved = false) :
    Finishes (unitsLeft i (afterPrependIv s) + 1 + 1) s s.dst (s.ivb.1 ++ outLeft i (afterPrependIv s)) (outTotal i s) := by
  have hserved : servedRange s.platform s.dst 16 :=
    servedRange_mono h.good.dest (Nat.le_refl _) (by rcases hi with rfl | rfl <;> simp only [outmaxOf] <;> omega)
  have hkey : usesKey i = true := by rcases hi with rfl | rfl <;> rfl
  have hplace : RunPlace i { s with pos := 0, ivMoved := true } := by
    have hiv := runPlace_iv h.place h.running.past.2.1 hkey
    rcases hi with rfl | rfl <;> exact hiv
  have hmoves : Advances s (afterPrependIv s) s.dst s.ivb.1 :=
    { moves := h.step_eq.trans (exec_run_of_ok h.running.phase
        ((runUnit_prependIv hi hiv).trans (prependIv_served s hserved)))
      ends := fun _ _ => rfl
      stored := storedAt_of_served (by rw [length_block]; exact hserved) rfl }
  have hrest : (afterPrependIv s).Working i := h.transfer _ s.blk s.ivb hplace
  have hnext : outAt i (afterPrependIv s) = s.dst + s.ivb.1.length := by
    rw [length_block]
    rcases hi with rfl | rfl <;> rfl
  have htotal : outTotal i (afterPrependIv s) = outTotal i s := by rcases hi with rfl | rfl <;> rfl
  exact htotal ▸ (hrest.finishes fun _ => rfl).cons hmoves (.inl hnext)

/-- The IV is written outside the source, or there is none (R67). -/
theorem State.Working.sourceLeft_afterPrependIv {i : Instr} {s : State} (h : s.Working i) (hi : i = .encCfb ∨ i = .encCbc) :
    sourceLeft (afterPrependIv s) = s.mem.readRange s.src s.len := by
  have hoverlap := h.overlap.1 hi
  show (s.mem.writeRange s.dst s.ivb.1).readRange (s.src + 0) (s.len - 0) = _
  rw [Nat.add_zero, Nat.sub_zero]
  rcases hoverlap with h0 | hapart
  · rw [h0]
    rfl
  · exact Memory.readRange_writeRange_disjoint _ _ _ _ _ (by rw [length_block]; omega)

/-- A decrypt command from RUN on: the IV is read, and then what RUN writes. -/
theorem State.Working.finishes_decrypt {i : Instr} {s : State} (h : s.Working i) (hi : i = .decCfb ∨ i = .decCbc)
    (hiv : s.ivMoved = false) :
    Finishes (unitsLeft i (afterSplitIv s) + 1 + 1) s s.dst (outLeft i (afterSplitIv s)) (outTotal i s) := by
  obtain ⟨hsrc, hplain⟩ := h.good.source
  have hmin := ((checkError_eq_none i s).1 h.running.past.2.1).2.1 hi
  have hkey : usesKey i = true := by rcases hi with rfl | rfl <;> rfl
  have hplace : RunPlace i { s with pos := 16, ivMoved := true } := by
    have hiv := runPlace_iv h.place h.running.past.2.1 hkey
    rcases hi with rfl | rfl <;> exact hiv
  have hmoves : Advances s (afterSplitIv s) s.dst [] :=
    { moves := h.step_eq.trans (exec_run_of_ok h.running.phase ((runUnit_splitIv hi hiv).trans
        (splitIv_served s (servedRange_mono hsrc (Nat.le_refl _) (by omega))
          (plainRange_mono hplain (Nat.le_refl _) (by omega)) h.good.unraced)))
      ends := fun _ _ => rfl
      stored := storedAt_nil _ rfl }
  have hrest : (afterSplitIv s).Working i := h.transfer s.mem s.blk _ hplace
  have hnext : outAt i (afterSplitIv s) = s.dst := by rcases hi with rfl | rfl <;> exact Nat.add_sub_cancel _ _
  have htotal : outTotal i (afterSplitIv s) = outTotal i s := by rcases hi with rfl | rfl <;> rfl
  exact hnext ▸ htotal ▸ (hrest.finishes fun _ => rfl).quiet (hnext ▸ hmoves)

/-! ### The encrypt commands -/

/-- Settles O36: the IV and the segments that are left after it. -/
theorem encCfbWritesIvAndCiphertext : Obligations.EncCfbWritesIvAndCiphertext := by
  intro s hrun hgood hpos hiv
  have hposn : s.posn = 0 := by rw [State.posn, hpos]; rfl
  have hw : s.Working .encCfb := ⟨hrun, hgood, by rw [hposn]; exact Nat.zero_le _, fun _ => hpos⟩
  have hfin := hw.finishes_encrypt (.inl rfl) hiv
  have hout : outLeft .encCfb (afterPrependIv s) = cfbEnc (Config.E s.key) s.ivb (s.mem.readRange s.src s.len) :=
    congrArg (cfbEnc _ _) (hw.sourceLeft_afterPrependIv (.inl rfl))
  have hfit := ((rangeOk_iff _ _ _ _).1 ((checkError_eq_none _ s).1 hrun.past.2.1).2.2.2.1).2.2
  rw [hout] at hfin
  refine hfin.completedOk ?_ (Nat.lt_succ_of_le hfit)
  rw [List.length_append, length_block, cfbEnc, length_cfb, Memory.length_readRange]
  rfl

/-- Settles O38: the IV and the blocks that are left after it, the last one padded. -/
theorem encCbcWritesIvAndCiphertext : Obligations.EncCbcWritesIvAndCiphertext := by
  intro s hrun hgood hpos hiv
  have hposn : s.posn = 0 := by rw [State.posn, hpos]; rfl
  have hw : s.Working .encCbc := ⟨hrun, hgood, by rw [hposn]; exact Nat.zero_le _, by rw [hposn], fun _ => hpos⟩
  have hfin := hw.finishes_encrypt (.inr rfl) hiv
  have hout : outLeft .encCbc (afterPrependIv s) =
      cbcEnc (Config.E s.key) s.ivb (pad (s.mem.readRange s.src s.len) 16) := by
    rw [outLeft, hw.sourceLeft_afterPrependIv (.inr rfl), pad, Memory.length_readRange]
    exact if_pos (Nat.zero_le _)
  have hunits : unitsLeft .encCbc (afterPrependIv s) = s.len / 16 + 1 := by
    show (16 * (s.len / 16 + 1) - 0 + 15) / 16 = _
    omega
  have hfit := ((rangeOk_iff _ _ _ _).1 ((checkError_eq_none _ s).1 hrun.past.2.1).2.2.2.1).2.2
  rw [hout, hunits] at hfin
  refine hfin.completedOk ?_ (Nat.lt_succ_of_le hfit)
  rw [List.length_append, length_block, length_cbcEnc, length_pad, Memory.length_readRange, outTotal, padLen]
  omega

/-! ### CHECK and PRECHECK -/

/-- A command in CHECK whose checks pass, over good buffers. -/
structure State.AtCheck (s : State) (i : Instr) : Prop where
  free : s.Free
  phase : s.phase = .check
  clean : s.HiddenZero
  command : decode s.cmdLast = .cmd i
  passes : checkError i s = none
  good : s.GoodBuffers i

/-- The state after CHECK. -/
def afterCheck (i : Instr) (s : State) : State :=
  { s with
    outmax := BitVec.ofNat 33 (outmaxOf i s.len)
    phase := phaseAfterCheck i
    rngReq := phaseAfterCheck i == .rngWait }

/-- The state after a PRECHECK that found the padding length `pv`. -/
def afterPrecheck (i : Instr) (s : State) (pv : Byte) : State := { afterCheck i s with padv := pv, phase := .run }

section
variable {i : Instr} {s : State}

theorem State.AtCheck.advances (h : s.AtCheck i) : Advances s (afterCheck i s) s.dst [] where
  moves := by
    rw [step_nil s h.free.events, engineStep_cmd s i (h.free.engineReady (by simp [h.phase])) h.command,
      exec_check i h.phase, check_of_none i s h.passes]
    rfl
  ends := fun _ _ => rfl
  stored := storedAt_nil _ rfl

/-- A command that enters RUN past its checks, with PADV as PRECHECK leaves it. -/
theorem State.AtCheck.working (h : s.AtCheck i) (pv : Byte) (hplace : RunPlace i { s with padv := pv }) :
    (afterPrecheck i s pv).Working i := by
  obtain ⟨⟨hevents, hreset, hhung⟩, -, -, hd, hc, ⟨hsrc, hdst, hsrcp, hdstp, hraced⟩⟩ := h
  refine ⟨⟨⟨hevents, hreset, hhung⟩, rfl, hd, hc, toNat_outmax i s hc⟩, ⟨hsrc, hdst, hsrcp, hdstp, hraced⟩, ?_⟩
  cases i <;> exact hplace

theorem State.AtCheck.afterCheck_good (h : s.AtCheck i) : (afterCheck i s).GoodBuffers i := by
  obtain ⟨hsrc, hdst, hsrcp, hdstp, hraced⟩ := h.good
  exact ⟨hsrc, hdst, hsrcp, hdstp, hraced⟩

theorem State.AtCheck.step_precheck (h : s.AtCheck i) (hpre : phaseAfterCheck i = .precheck) :
    step (afterCheck i s) = exec i (afterCheck i s) := by
  obtain ⟨hevents, hreset, hhung⟩ := h.free
  have hfree : (afterCheck i s).Free := ⟨hevents, hreset, hhung⟩
  have hbusy : (afterCheck i s).phase ≠ .idle := by
    show phaseAfterCheck i ≠ .idle
    rw [hpre]
    nofun
  exact (step_nil (afterCheck i s) hevents).trans (engineStep_cmd (afterCheck i s) i (hfree.engineReady hbusy) h.command)

/-- PRECHECK that finds a valid padding goes on to RUN. -/
theorem State.AtCheck.advances_precheck (h : s.AtCheck i) (hpre : phaseAfterCheck i = .precheck) {pv : Byte}
    (hexec : exec i (afterCheck i s) = .next (afterPrecheck i s pv)) :
    Advances (afterCheck i s) (afterPrecheck i s pv) s.dst [] where
  moves := (h.step_precheck hpre).trans hexec
  ends := fun _ _ => rfl
  stored := storedAt_nil _ rfl

/-- PRECHECK that finds an invalid padding ends the command. -/
theorem State.AtCheck.fails_precheck (h : s.AtCheck i) (hpre : phaseAfterCheck i = .precheck)
    (hexec : exec i (afterCheck i s) = .next (completion (afterCheck i s) .padding 0)) :
    Host.Core.run Sys2Proof.core 2 s = .next (completion s .padding 0) :=
  (core_run_succ h.advances.moves 1).trans (core_run_succ ((h.step_precheck hpre).trans hexec) 0)

theorem State.AtCheck.posn_eq (h : s.AtCheck i) : s.posn = 0 := by
  rw [State.posn, h.clean.pos]
  rfl

theorem State.AtCheck.outTotal_fits (h : s.AtCheck i) {n : Nat} (hn : n ≤ outmaxOf i s.len) : n < 4294967296 := by
  have := ((rangeOk_iff _ _ _ _).1 ((checkError_eq_none i s).1 h.passes).2.2.2.1).2.2
  omega

end

/-! ### The decrypt commands -/

/-- Settles O37: CHECK, the IV and the segments after it. -/
theorem decCfbWritesPlaintext : Obligations.DecCfbWritesPlaintext := by
  intro s hfree hp hclean hd hc hgood
  have h : s.AtCheck .decCfb := ⟨hfree, hp, hclean, hd, hc, hgood⟩
  have hmin := ((checkError_eq_none _ s).1 hc).2.1 (.inl rfl)
  have hw : (afterCheck .decCfb s).Working .decCfb := h.working s.padv (by
    simp only [RunPlace, hclean.ivMoved, Bool.false_eq_true, if_false]
    exact hclean.pos)
  have hfin := (hw.finishes_decrypt (.inl rfl) hclean.ivMoved).quiet h.advances
  obtain ⟨t, hrun, hdone⟩ := hfin.completedOk (length_cfb _ _ _ _ |>.trans (length_sourceLeft _))
    (h.outTotal_fits (Nat.le_refl _))
  refine ⟨_, t, hrun, ?_, hdone⟩
  have hunits : unitsLeft .decCfb (afterSplitIv (afterCheck .decCfb s)) = (s.len - 16 + 15) / 16 := rfl
  rw [hunits]
  omega

/-- Settles O39: PRECHECK decides; with a valid padding the blocks after the IV are the plaintext without it. -/
theorem decCbcWritesPlaintextOrFailsPadding : Obligations.DecCbcWritesPlaintextOrFailsPadding := by
  intro s hfree hp hclean hd hc hgood
  have h : s.AtCheck .decCbc := ⟨hfree, hp, hclean, hd, hc, hgood⟩
  obtain ⟨-, hmin, hmod, -⟩ := (checkError_eq_none _ s).1 hc
  have hlong := hmin (.inr rfl)
  have hwhole := hmod rfl
  have hexec : exec .decCbc (afterCheck .decCbc s) = .next
      (if pkcs7Valid (decCbcPlain (Config.D s.key) s) 16 (s.len - 16) then
        afterPrecheck .decCbc s ((decCbcPlain (Config.D s.key) s).getLastD 0)
      else completion (afterCheck .decCbc s) .padding 0) := exec_decCbc_precheck rfl hc h.afterCheck_good
  show ∃ k t, _ ∧ _ ∧ match unpad (decCbcPlain (Config.D s.key) s) 16 with
    | some out => CompletedOk s t out
    | none => t = completion s .padding 0
  have hlen : (decCbcPlain (Config.D s.key) s).length = s.len - 16 := by
    rw [decCbcPlain, length_cbcDec, Memory.length_readRange]
    omega
  by_cases hv : pkcs7Valid (decCbcPlain (Config.D s.key) s) 16 (s.len - 16) = true
  · obtain ⟨h1, h16, hle⟩ := pkcs7Valid_len _ _ _ hv
    have hunpad : unpad (decCbcPlain (Config.D s.key) s) 16 = some ((decCbcPlain (Config.D s.key) s).take
        (s.len - 16 - ((decCbcPlain (Config.D s.key) s).getLastD 0).toNat)) := by rw [unpad, hlen, if_pos hv]
    rw [hunpad]
    generalize hpv : (decCbcPlain (Config.D s.key) s).getLastD 0 = pv at *
    have hw := h.working pv (by
      simp only [RunPlace, hclean.ivMoved, Bool.false_eq_true, if_false]
      have : 32 ≤ s.len := by omega
      exact ⟨this, h1, h16, hclean.pos⟩)
    have hfin := ((hw.finishes_decrypt (.inr rfl) hclean.ivMoved).quiet
      (h.advances_precheck rfl (hexec.trans (by rw [if_pos hv])))).quiet h.advances
    have hblocks : 16 * ((s.len - 16) / 16) = s.len - 16 := by omega
    have hout : outLeft .decCbc (afterSplitIv (afterPrecheck .decCbc s pv)) =
        (decCbcPlain (Config.D s.key) s).take (s.len - 16 - pv.toNat) := by
      rw [← Nat.sub_zero (s.len - 16 - pv.toNat), ← hblocks]
      rfl
    have htotal : outTotal .decCbc (afterPrecheck .decCbc s pv) = s.len - 16 - pv.toNat :=
      congrArg (· - pv.toNat) hblocks
    rw [hout, htotal] at hfin
    obtain ⟨t, hrun, hdone⟩ := hfin.completedOk (by rw [List.length_take, hlen]; omega)
      (h.outTotal_fits (Nat.sub_le _ _))
    refine ⟨_, t, hrun, ?_, hdone⟩
    show (s.len - 16 + 15) / 16 + 1 + 1 + 1 + 1 ≤ _
    omega
  · have hnone : unpad (decCbcPlain (Config.D s.key) s) 16 = none := by rw [unpad, hlen, if_neg hv]
    rw [hnone]
    exact ⟨2, _, h.fails_precheck rfl (hexec.trans (by rw [if_neg hv])), by omega, rfl⟩

/-! ### The padding commands -/

/-- Settles O40: CHECK, the copy and the padding bytes. -/
theorem padWritesPaddedData : Obligations.PadWritesPaddedData := by
  intro bs s hfree hp hclean hd hc hgood
  have h : s.AtCheck (.pad bs) := ⟨hfree, hp, hclean, hd, hc, hgood⟩
  have hposn : (afterCheck (.pad bs) s).posn = 0 := h.posn_eq
  have hw : (afterCheck (.pad bs) s).Working (.pad bs) :=
    h.working s.padv ⟨h.posn_eq.trans_le (Nat.zero_le _), hclean.ivMoved⟩
  have hfin := hw.finishes nofun
  have hat : outAt (.pad bs) (afterCheck (.pad bs) s) = s.dst := by
    rw [outAt, hposn]
    rfl
  have hout : outLeft (.pad bs) (afterCheck (.pad bs) s) = pad (s.mem.readRange s.src s.len) bs.toNat := by
    rw [outLeft, sourceLeft, hposn, pad, Memory.length_readRange]
    rfl
  rw [hat, hout] at hfin
  obtain ⟨t, hrun, hdone⟩ := (hfin.quiet h.advances).completedOk (by
    rw [length_pad, Memory.length_readRange]
    rfl) (h.outTotal_fits (Nat.le_refl _))
  refine ⟨_, t, hrun, ?_, hdone⟩
  have hunits : unitsLeft (.pad bs) (afterCheck (.pad bs) s) ≤ s.len := Nat.sub_le _ _
  omega

/-- Settles O41: PRECHECK decides; with a valid padding the copy is of the data without it. -/
theorem unpadWritesDataOrFailsPadding : Obligations.UnpadWritesDataOrFailsPadding := by
  intro bs s hfree hp hclean hd hc hgood
  have h : s.AtCheck (.unpad bs) := ⟨hfree, hp, hclean, hd, hc, hgood⟩
  have hexec : exec (.unpad bs) (afterCheck (.unpad bs) s) = .next
      (if pkcs7Valid (s.mem.readRange s.src s.len) bs.toNat s.len then
        afterPrecheck (.unpad bs) s ((s.mem.readRange s.src s.len).getLastD 0)
      else completion (afterCheck (.unpad bs) s) .padding 0) := exec_unpad_precheck rfl h.afterCheck_good
  have hlen : (s.mem.readRange s.src s.len).length = s.len := Memory.length_readRange _ _ _
  by_cases hv : pkcs7Valid (s.mem.readRange s.src s.len) bs.toNat s.len = true
  · obtain ⟨h1, hbs, hle⟩ := pkcs7Valid_len _ _ _ hv
    have hunpad : unpad (s.mem.readRange s.src s.len) bs.toNat = some ((s.mem.readRange s.src s.len).take
        (s.len - ((s.mem.readRange s.src s.len).getLastD 0).toNat)) := by rw [unpad, hlen, if_pos hv]
    rw [hunpad, Memory.take_readRange _ _ _ _ (Nat.sub_le _ _)]
    have hchecked := h.advances_precheck rfl (hexec.trans (by rw [if_pos hv]))
    generalize (s.mem.readRange s.src s.len).getLastD 0 = pv at *
    have hw := h.working pv ⟨h1, hbs, hle, h.posn_eq.trans_le (Nat.zero_le _), hclean.ivMoved⟩
    have hfin := hw.finishes nofun
    have hposn : (afterPrecheck (.unpad bs) s pv).posn = 0 := h.posn_eq
    have hat : outAt (.unpad bs) (afterPrecheck (.unpad bs) s pv) = s.dst := by
      rw [outAt, hposn]
      rfl
    have hout : outLeft (.unpad bs) (afterPrecheck (.unpad bs) s pv) =
        s.mem.readRange s.src (s.len - pv.toNat) := by
      rw [outLeft, hposn]
      rfl
    rw [hat, hout] at hfin
    obtain ⟨t, hrun, hdone⟩ := ((hfin.quiet hchecked).quiet h.advances).completedOk (Memory.length_readRange _ _ _)
      (h.outTotal_fits (Nat.sub_le _ _))
    refine ⟨_, t, hrun, ?_, hdone⟩
    have hunits : unitsLeft (.unpad bs) (afterPrecheck (.unpad bs) s pv) ≤ s.len :=
      (Nat.sub_le _ _).trans (Nat.sub_le _ _)
    omega
  · have hnone : unpad (s.mem.readRange s.src s.len) bs.toNat = none := by rw [unpad, hlen, if_neg hv]
    rw [hnone]
    exact ⟨2, _, h.fails_precheck rfl (hexec.trans (by rw [if_neg hv])), by omega, rfl⟩

end Sys2Proof.Machine
end

section
/-!
SUPPORT. The steps that a command has left, and that each step of the engine takes one of them off (R138).
-/

namespace Sys2Proof.Machine

/-! ### The accesses of a step stay in the regions of the command -/

/-- The accesses of RUN (R174, R177, R204, R207, R233, R236). -/
theorem stepAddresses_run {i : Instr} {s : State} (hp : s.phase = .run) (hpast : PastCheck i s) (hplace : RunPlace i s)
    {a : Nat} (ha : a ∈ stepAddresses i s) : s.srcr.has a = true ∨ (s.dstr i).has a = true := by
  obtain ⟨-, hc, -⟩ := hpast
  obtain ⟨-, hmin, hmod, -⟩ := (checkError_eq_none i s).1 hc
  rw [Region.has_iff, Region.has_iff]
  simp only [State.srcr, State.dstr]
  have htake : min 16 (s.len - s.posn) ≤ s.len - s.posn := Nat.min_le_right _ _
  cases i with
  | encCfb =>
    simp only [stepAddresses, hp, ne_eq, not_true_eq_false, if_false] at ha
    simp only [RunPlace, outmaxOf] at hplace ⊢
    split_ifs at ha <;> simp only [List.mem_append, List.mem_range'_1, List.not_mem_nil] at ha
    · omega
    · omega
  | decCfb =>
    have hlong := hmin (.inl rfl)
    cases hiv : s.ivMoved with
    | false =>
      simp only [stepAddresses, hp, hiv, ne_eq, not_true_eq_false, if_false, if_true, List.mem_range'_1] at ha
      omega
    | true =>
      simp only [stepAddresses, hp, hiv, reduceCtorEq, ne_eq, not_true_eq_false, if_false] at ha
      simp only [RunPlace, hiv, if_true, outmaxOf] at hplace ⊢
      split_ifs at ha
      · simp only [List.mem_append, List.mem_range'_1] at ha
        omega
      · cases ha
  | encCbc =>
    simp only [stepAddresses, hp, ne_eq, not_true_eq_false, if_false] at ha
    simp only [RunPlace, outmaxOf] at hplace ⊢
    split_ifs at ha <;> simp only [List.mem_append, List.mem_range'_1, List.not_mem_nil] at ha
    · omega
    · omega
  | decCbc =>
    have hlong := hmin (.inr rfl)
    have hwhole := hmod rfl
    cases hiv : s.ivMoved with
    | false =>
      simp only [stepAddresses, hp, hiv, reduceCtorEq, ne_eq, not_true_eq_false, if_false, if_true,
        List.mem_range'_1] at ha
      omega
    | true =>
      simp only [stepAddresses, hp, hiv, reduceCtorEq, ne_eq, not_true_eq_false, if_false] at ha
      simp only [RunPlace, hiv, if_true, outmaxOf] at hplace ⊢
      split_ifs at ha
      · simp only [List.mem_append, List.mem_range'_1] at ha
        omega
      · cases ha
  | pad bs =>
    simp only [stepAddresses, hp, ne_eq, not_true_eq_false, if_false] at ha
    simp only [RunPlace, outmaxOf] at hplace ⊢
    split_ifs at ha
    · simp only [List.mem_cons, List.not_mem_nil, or_false] at ha
      omega
    · rw [List.mem_range'_1] at ha
      omega
  | unpad bs =>
    simp only [stepAddresses, hp, reduceCtorEq, ne_eq, not_true_eq_false, if_false] at ha
    simp only [RunPlace, outmaxOf] at hplace ⊢
    split_ifs at ha
    · simp only [List.mem_cons, List.not_mem_nil, or_false] at ha
      omega
    · cases ha

/-- The reads of PRECHECK (R206, R235). -/
theorem stepAddresses_precheck {i : Instr} {s : State} (hp : s.phase = .precheck) {a : Nat} (ha : a ∈ stepAddresses i s) :
    s.srcr.has a = true := by
  rw [Region.has_iff]
  simp only [State.srcr]
  cases i with
  | encCfb | decCfb | encCbc | pad bs => simp [stepAddresses, hp] at ha
  | decCbc =>
    simp only [stepAddresses, hp, if_true] at ha
    split_ifs at ha
    · cases ha
    · simp only [List.mem_append, List.mem_range'_1] at ha
      omega
  | unpad bs =>
    simp only [stepAddresses, hp, if_true] at ha
    split_ifs at ha with h0 hbad
    · cases ha
    · rw [List.mem_singleton] at ha
      omega
    · rw [List.mem_cons, List.mem_range'_1] at ha
      omega

/-- On a bus that answers every access to the command's regions, no step of it is left without an answer. -/
theorem busAnswers_step_ne_never {i : Instr} {s : State} (h : s.Inv) (hd : decode s.cmdLast = .cmd i)
    (hsrc : answeredRegion s.platform s.srcr) (hdst : answeredRegion s.platform (s.dstr i)) :
    busAnswers s.platform (stepAddresses i s) ≠ .never := by
  refine busAnswers_ne_never _ _ fun a ha => ?_
  cases hp : s.phase with
  | run =>
    obtain ⟨hpast, hplace⟩ := h.run_of_decode hp hd
    rcases stepAddresses_run hp hpast hplace ha with hin | hin
    · exact hsrc a hin
    · exact hdst a hin
  | precheck => exact hsrc a (stepAddresses_precheck hp ha)
  | idle | check | rngWait =>
    rw [stepAddresses_eq_nil (by simp [hp]) (by simp [hp])] at ha
    cases ha

/-! ### The steps left -/

/-- The steps left in RUN: the IV where it is still to come, the units of data, the completion. -/
def runSteps (i : Instr) (s : State) : Nat :=
  if usesKey i ∧ s.ivMoved = false then unitsLeft i { s with pos := ivPos i, ivMoved := true } + 1 + 1
  else unitsLeft i s + 1

/-- The most steps that RUN of a command can take. -/
def runBound (i : Instr) (L : Nat) : Nat :=
  match i with
  | .encCfb => (L + 15) / 16 + 2
  | .encCbc => L / 16 + 3
  | .decCfb => (L + 15) / 16 + 1
  | .decCbc => (L + 15) / 16 + 1
  | .pad _ => L + 1
  | .unpad _ => L + 1

/-- The most steps that a command has left before its completion or its wait for the random source. -/
def stepsLeft (i : Instr) (s : State) : Nat :=
  match s.phase with
  | .idle => 0
  | .check => if draws? i then 1 else runBound i s.len + if prechecks i then 2 else 1
  | .rngWait => 0
  | .precheck => runBound i s.len + 1
  | .run => runSteps i s

/-- The units left once the IV access has put POS in its place. -/
theorem unitsLeft_iv {i : Instr} (hi : usesKey i = true) (s : State) :
    unitsLeft i { s with pos := ivPos i, ivMoved := true } = (workEnd i s - (ivPos i).toNat + 15) / 16 := by
  cases i with
  | encCfb | decCfb | encCbc | decCbc => rfl
  | pad bs | unpad bs => cases hi

theorem runSteps_first {i : Instr} {s : State} (hi : usesKey i = true) (hiv : s.ivMoved = false) :
    runSteps i s = (workEnd i s - (ivPos i).toNat + 15) / 16 + 2 := by
  rw [runSteps, if_pos ⟨hi, hiv⟩, unitsLeft_iv hi]

theorem runSteps_later {i : Instr} {s : State} (hiv : usesKey i = true → s.ivMoved = true) :
    runSteps i s = unitsLeft i s + 1 := by
  rw [runSteps, if_neg fun h => by simp [hiv h.1] at h]

theorem stepsLeft_run (i : Instr) {s : State} (hp : s.phase = .run) : stepsLeft i s = runSteps i s := by rw [stepsLeft, hp]

theorem runSteps_le_runBound {i : Instr} {s : State} (hpast : PastCheck i s) (hplace : RunPlace i s) :
    runSteps i s ≤ runBound i s.len := by
  obtain ⟨-, hmin, -⟩ := (checkError_eq_none i s).1 hpast.2.1
  by_cases hfirst : usesKey i = true ∧ s.ivMoved = false
  · rw [runSteps_first hfirst.1 hfirst.2]
    cases i with
    | encCfb => exact Nat.le_refl _
    | encCbc =>
      simp only [workEnd, runBound]
      omega
    | decCfb =>
      have hlong := hmin (.inl rfl)
      show (s.len - 16 + 15) / 16 + 2 ≤ (s.len + 15) / 16 + 1
      omega
    | decCbc =>
      have hlong := hmin (.inr rfl)
      show (s.len - 16 + 15) / 16 + 2 ≤ (s.len + 15) / 16 + 1
      omega
    | pad bs | unpad bs => cases hfirst.1
  · have hiv : usesKey i = true → s.ivMoved = true := fun hi => by
      by_contra hx
      exact hfirst ⟨hi, Bool.eq_false_iff.2 hx⟩
    rw [runSteps_later hiv]
    cases i with
    | encCfb | encCbc | decCfb | decCbc | pad bs | unpad bs =>
      simp only [unitsLeft, usesKey, if_true, Bool.false_eq_true, if_false, workEnd, runBound]
      omega

/-! ### Each step takes one off -/

/-- A unit of RUN. -/
theorem RunOutcome.progresses {i : Instr} {s t : State} (hp : s.phase = .run) (ht : RunOutcome i s t) (hfree : s.Free) :
    t.phase = .idle ∨ (t.Free ∧ stepsLeft i t < stepsLeft i s) := by
  obtain ⟨hevents, hreset, hhung⟩ := hfree
  cases ht with
  | iv u work cipher first =>
    obtain ⟨-, -, hend, -⟩ := work.transfer
    refine .inr ⟨?_, ?_⟩
    · rw [work.frame]
      exact ⟨hevents, hreset, hhung⟩
    · rw [stepsLeft_run i hp, stepsLeft_run i (s := { u with pos := ivPos i, ivMoved := true }) (work.kept.1.trans hp),
        runSteps_first cipher first, runSteps_later fun _ => rfl, unitsLeft_iv cipher, hend]
      omega
  | data u work iv more =>
    obtain ⟨-, -, hend, hsize, hpos, hmoved⟩ := work.transfer
    refine .inr ⟨?_, ?_⟩
    · rw [work.frame]
      exact ⟨hevents, hreset, hhung⟩
    · have hone := unitsLeft_advance (i := i) (s := u) (by rw [hpos, hend]; exact more)
      have hsame : unitsLeft i u = unitsLeft i s := by rw [unitsLeft, unitsLeft, hend, hpos]
      rw [hsize] at hone
      rw [stepsLeft_run i hp, stepsLeft_run i (s := advance u (unitSize i s)) (work.kept.1.trans hp), runSteps_later iv,
        runSteps_later (s := advance u (unitSize i s)) fun hi => hmoved.trans (iv hi)]
      omega
  | complete u n work iv ended => exact .inl (complete_phase u n)

/-- CHECK ends the command, or leaves it what its next phase can take at most. -/
theorem check_progresses {i : Instr} {s : State} (hinv : s.Inv) (hfree : s.Free) (hp : s.phase = .check)
    (hd : decode s.cmdLast = .cmd i) :
    (check i s).phase = .idle ∨ (check i s).phase = .rngWait ∨
      ((check i s).Free ∧ stepsLeft i (check i s) < stepsLeft i s) := by
  obtain ⟨hevents, hreset, hhung⟩ := hfree
  cases hc : checkError i s with
  | some code =>
    rw [check_of_error i s code hc]
    exact .inl rfl
  | none =>
    have hafter := inv_check i s hinv hp hhung hreset hd
    rw [check_of_none i s hc] at hafter ⊢
    have hrun (hnext : phaseAfterCheck i = .run) := runSteps_le_runBound (hafter.run_of_decode hnext hd).1
      (hafter.run_of_decode hnext hd).2
    cases i with
    | encCfb | encCbc => exact .inr (.inl rfl)
    | decCbc | unpad bs =>
      refine .inr (.inr ⟨⟨hevents, hreset, hhung⟩, ?_⟩)
      rw [show stepsLeft _ s = runBound _ s.len + 2 by rw [stepsLeft, hp]; rfl]
      exact Nat.lt_succ_self _
    | decCfb | pad bs =>
      refine .inr (.inr ⟨⟨hevents, hreset, hhung⟩, ?_⟩)
      rw [show stepsLeft _ s = runBound _ s.len + 1 by rw [stepsLeft, hp]; rfl]
      exact Nat.lt_succ_of_le (hrun rfl)

/-- A step of a command on a bus that answers ends it, sends it to wait for the random source, or takes a step off. -/
theorem exec_progresses {i : Instr} {s : State} (hinv : s.Inv) (hfree : s.Free) (hbusy : s.phase ≠ .idle)
    (hwait : s.phase ≠ .rngWait) (hd : decode s.cmdLast = .cmd i)
    (hbus : busAnswers s.platform (stepAddresses i s) ≠ .never) :
    ∃ t, exec i s = .next t ∧ (t.phase = .idle ∨ t.phase = .rngWait ∨ (t.Free ∧ stepsLeft i t < stepsLeft i s)) := by
  have hf := exec_follows i s
  have hready := hfree.engineReady hbusy
  obtain ⟨hevents, hreset, hhung⟩ := hfree
  unfold ExecFollows at hf
  cases hb : busAnswers s.platform (stepAddresses i s) with
  | never => exact absurd hb hbus
  | error =>
    rw [hb] at hf
    obtain ⟨u, hu, -⟩ := hf
    exact ⟨_, hu, .inl rfl⟩
  | ok =>
    rw [hb] at hf
    obtain ⟨t, ht, hs⟩ := hf
    refine ⟨t, ht, ?_⟩
    cases hs with
    | held h =>
      rcases h with h | ⟨h, -⟩ | ⟨h, hpre⟩
      · exact absurd h hbusy
      · exact absurd h hwait
      · rw [(hinv.precheck_of_decode h hd).2.1] at hpre
        cases hpre
    | checked hp => exact check_progresses hinv ⟨hevents, hreset, hhung⟩ hp hd
    | awaited h _ => exact absurd h hwait
    | prechecked hp _ hout =>
      cases hout with
      | failed d => exact .inl rfl
      | passed d pv htaken =>
        have hafter := (inv_precheck hinv hready hp hd d pv).2 htaken
        obtain ⟨hpast, hplace⟩ := hafter.run_of_decode rfl hd
        refine .inr (.inr ⟨⟨hevents, hreset, hhung⟩, ?_⟩)
        rw [show stepsLeft i s = runBound i s.len + 1 by rw [stepsLeft, hp]]
        exact Nat.lt_succ_of_le (runSteps_le_runBound hpast hplace)
    | ran hp hout => exact (hout.progresses hp ⟨hevents, hreset, hhung⟩).imp_right .inr

/-- So a command reaches an end, or the wait for the random source, in as many steps as it has left. -/
theorem run_within_stepsLeft {i : Instr} (n : Nat) {s : State} (hinv : s.Inv) (hfree : s.Free)
    (hd : decode s.cmdLast = .cmd i) (hsrc : answeredRegion s.platform s.srcr)
    (hdst : answeredRegion s.platform (s.dstr i)) (hn : stepsLeft i s ≤ n) :
    ∃ k t, Host.Core.run Sys2Proof.core k s = .next t ∧ (t.phase = .idle ∨ t.phase = .rngWait) ∧ k ≤ n := by
  by_cases hend : s.phase = .idle ∨ s.phase = .rngWait
  · exact ⟨0, s, rfl, hend, Nat.zero_le _⟩
  rw [not_or] at hend
  obtain ⟨hbusy, hwait⟩ := hend
  obtain ⟨t, hexec, hnext⟩ := exec_progresses hinv hfree hbusy hwait hd (busAnswers_step_ne_never hinv hd hsrc hdst)
  have hstep : step s = .next t := by
    rw [step_nil s hfree.events, engineStep_cmd s i (hfree.engineReady hbusy) hd, hexec]
  have hpos : 0 < stepsLeft i s := by
    unfold stepsLeft
    cases hp : s.phase with
    | idle => exact absurd hp hbusy
    | rngWait => exact absurd hp hwait
    | check =>
      dsimp only
      split_ifs <;> omega
    | precheck => exact Nat.succ_pos _
    | run =>
      dsimp only
      unfold runSteps
      split_ifs <;> omega
  cases n with
  | zero => omega
  | succ n =>
    have hone (hx : t.phase = .idle ∨ t.phase = .rngWait) :
        ∃ k t, Host.Core.run Sys2Proof.core k s = .next t ∧ (t.phase = .idle ∨ t.phase = .rngWait) ∧ k ≤ n + 1 :=
      ⟨1, t, core_run_succ hstep 0, hx, Nat.succ_le_succ (Nat.zero_le n)⟩
    rcases hnext with hx | hx | ⟨hfree', hless⟩
    · exact hone (.inl hx)
    · exact hone (.inr hx)
    · obtain ⟨t', ht', hside⟩ := exec_hostSide i s
      cases ht'.symm.trans hexec
      obtain ⟨hcmd, hsrcAddr, hdstAddr, hlen, hplatform⟩ := sameOperands_of_hostSide hside
      have hsrcr : t.srcr = s.srcr := by simp only [State.srcr, State.src, State.len, hsrcAddr, hlen]
      have hdstr : t.dstr i = s.dstr i := by simp only [State.dstr, State.dst, State.len, hdstAddr, hlen]
      obtain ⟨k, u, hrun, hu, hk⟩ := run_within_stepsLeft n (everyStepKeepsInvariant s t hinv hstep) hfree'
        (hcmd ▸ hd) (by rwa [hplatform, hsrcr]) (by rwa [hplatform, hdstr]) (by omega)
      exact ⟨k + 1, u, (core_run_succ hstep k).trans hrun, hu, Nat.succ_le_succ hk⟩

/-- In every phase a command has at most its RUN left, and the steps before it. -/
theorem stepsLeft_le {i : Instr} {s : State} (hinv : s.Inv) (hd : decode s.cmdLast = .cmd i) :
    stepsLeft i s ≤ runBound i s.len + if draws? i then 0 else if prechecks i then 2 else 1 := by
  cases hp : s.phase with
  | idle | rngWait =>
    rw [stepsLeft, hp]
    exact Nat.zero_le _
  | check =>
    rw [stepsLeft, hp]
    cases i with
    | encCfb | encCbc =>
      simp only [draws?, if_true, runBound]
      omega
    | decCfb | decCbc | pad bs | unpad bs => exact Nat.le_refl _
  | precheck =>
    have hpre := (hinv.precheck_of_decode hp hd).2.1
    rw [stepsLeft, hp]
    cases i with
    | decCbc | unpad bs => exact Nat.le_succ _
    | encCfb | decCfb | encCbc | pad bs => cases hpre
  | run =>
    obtain ⟨hpast, hplace⟩ := hinv.run_of_decode hp hd
    rw [stepsLeft_run i hp]
    exact (runSteps_le_runBound hpast hplace).trans (Nat.le_add_right _ _)

/-- Settles O42: the steps left are within the bound in every phase. -/
theorem engineFinishesWithinBound : Obligations.EngineFinishesWithinBound := by
  intro s i hinv hfree _ hd hsrc hdst
  obtain ⟨k, t, hrun, ht, hk⟩ := run_within_stepsLeft _ hinv hfree hd hsrc hdst (stepsLeft_le hinv hd)
  refine ⟨k, t, hrun, ht, ?_⟩
  cases i with
  | encCfb | decCfb | encCbc | decCbc | pad bs | unpad bs =>
    simp only [runBound, draws?, prechecks, if_true, Bool.false_eq_true, if_false] at hk ⊢
    omega

end Sys2Proof.Machine
end
